-- ==== Sys2Proof/Word.lean ====
section
/-! DEFINITION. The two word types of the block (00_scope.md R7): a byte is a natural in 0..255, a register word a
natural in 0..2^32 − 1, both unsigned. -/

namespace Sys2Proof

/-- One byte of a buffer or of a data format (R2, R7). -/
abbrev Byte := BitVec 8

/-- One 32-bit register word (R7, 10_state.md R11). -/
abbrev Word := BitVec 32

end Sys2Proof
end

