-- ==== Sys2Proof/Config.lean ====
section
/-! DEFINITION. What is fixed for an instance of the block: the constants of 00_scope.md R5, the parameters of R6, and
the free values (each an opaque constant: nothing in Lean can evaluate one or prove a value of it). -/

namespace Sys2Proof.Config

/-- The RLE escape byte `ESC` (R5). -/
def esc : Byte := 0xFF#8

/-- The longest run one RLE or pair token stands for, `RUNMAX` (R5). -/
def runMax : Nat := 255

/-- The seven magic bytes of a frame, "BWTJS1\0" (R5, 30_encoding.md R77). -/
def magic : List Byte := [0x42#8, 0x57#8, 0x54#8, 0x4A#8, 0x53#8, 0x31#8, 0x00#8]

/-- The offset of a frame's metadata block: seven magic bytes and four length bytes (R5). -/
def headerSize : Nat := 11

/-- The MTF table in its initial order, the identity [0, 1, ..., 255] (R5, 41_mtf.md R110). -/
def mtfIdentity : List Byte := (List.range 256).map (BitVec.ofNat 8)

/-- `BASE` and the window placement (R6, 20_memory.md R48): the addresses of the host's map at which the three spaces
begin. The platform fixes them and no rule constrains them, so they are addresses without a width. -/
structure Placement where
  /-- `BASE`, the address of REG offset 0. -/
  base : Nat
  /-- The address of IBUF index 0. -/
  ibufBase : Nat
  /-- The address of OBUF index 0. -/
  obufBase : Nat
deriving DecidableEq, Repr

/-- The parameters of one instance of the block (R6): the two buffer capacities, whether the pair commands exist, and
where the three spaces appear in the host's address map. The busy time of R6 is `busyTime`. -/
structure Instance where
  icap : Nat
  ocap : Nat
  pairPresent : Bool
  placement : Placement
deriving DecidableEq, Repr

/-- The constraints R6 puts on the parameters: on the capacities alone. -/
abbrev Instance.wf (p : Instance) : Prop :=
  1 ≤ p.icap ∧ p.icap ≤ p.ocap ∧ p.ocap ≤ 2 ^ 31 - 1

/-- The instance the machine has at `State.reset` (DESIGN CHOICE, log entries 1 and 20: R6 leaves the numbers open). -/
def defaultInstance : Instance :=
  { icap := 65536, ocap := 65536, pairPresent := true,
    placement := { base := 0x00000, ibufBase := 0x10000, obufBase := 0x20000 } }

/-- FREE VALUE (log entry 2): the byte at an index of a buffer that draw number `draw` made unspecified
(20_memory.md R47, 10_state.md R27), and the byte a read of a buffer returns while BUSY (R51). -/
opaque freeByte (draw index : Nat) : Byte

/-- FREE VALUE (log entry 3): the word a read of a register other than STATUS returns while BUSY (R51). -/
opaque freeWord (draw : Nat) : Word

/-- FREE VALUE (log entry 4): the busy time of a command (R6, 70_reset_and_hazards.md R221): how many host turns pass
between its start step and the sequencer's turn. -/
opaque busyTime (draw : Nat) : Nat

/-- FREE VALUE (log entry 19): `saved` of the statistics function for original size 0 and this compressed size, which
the source does not give (43_pipeline.md R152, 93 U7). -/
opaque freeSaved (compressedSize : Nat) : Int

end Sys2Proof.Config
end

