-- ==== Sys2Proof/Syntax.lean ====
section
/-! DEFINITION. The instructions: one constructor per row of spec/opcode_table.json. Thirteen rows are command words
written to CMD (30_encoding.md R60 to R62); five are the units of the data formats (R70 to R79), which a unit of the
block reads from its stream at `ip` (10_state.md R20; log entry 9). -/

namespace Sys2Proof

/-- A set of pipeline stages: the SMASK field of a COMPRESS command word (30_encoding.md R60), the three known bits of
STAGES (10_state.md R12). -/
structure StageSet where
  bwt : Bool
  mtf : Bool
  rle : Bool
deriving DecidableEq, Repr

/-- The default stage list ["bwt", "mtf", "rle"] (00_scope.md R5, 43_pipeline.md R141). -/
def StageSet.all : StageSet := { bwt := true, mtf := true, rle := true }

/-- The byte streams whose units have rows of their own in the opcode table. -/
inductive Stream where
  /-- The RLE token stream (30_encoding.md R70). -/
  | rle
  /-- The pair-variant stream (R74). -/
  | pair
  /-- The MTF code stream (R75). -/
  | mtf
  /-- The container frame (R77). -/
  | frame
deriving DecidableEq, Repr

/-- One constructor per row of the opcode table, in the table's order. -/
inductive Instr where
  /-- `BWT_ENC`, 0x00000001 (40_bwt.md R94). -/
  | bwtEnc
  /-- `BWT_DEC`, 0x00000002 (40_bwt.md R97). -/
  | bwtDec
  /-- `MTF_ENC`, 0x00000003 (41_mtf.md R113). -/
  | mtfEnc
  /-- `MTF_DEC`, 0x00000004 (41_mtf.md R114). -/
  | mtfDec
  /-- `RLE_ENC`, 0x00000005 (42_rle.md R122). -/
  | rleEnc
  /-- `RLE_DEC`, 0x00000006 (42_rle.md R124). -/
  | rleDec
  /-- `PAIR_ENC`, 0x00000007, exists iff PAIR_PRESENT (42_rle.md R128). -/
  | pairEnc
  /-- `PAIR_DEC`, 0x00000008, exists iff PAIR_PRESENT (42_rle.md R129). -/
  | pairDec
  /-- `COMPRESS` with the default stage list, 0x00000009 (43_pipeline.md R142). -/
  | compress
  /-- `COMPRESS.SUB`: COMPRESS with SUB = 1 and this SMASK (43_pipeline.md R141, R142). -/
  | compressSub (sel : StageSet)
  /-- `DECOMPRESS`, 0x0000000A (43_pipeline.md R147). -/
  | decompress
  /-- `FRAME_EMIT`, 0x0000000B (44_frame.md R160). -/
  | frameEmit
  /-- `FRAME_PARSE`, 0x0000000C (44_frame.md R161). -/
  | frameParse
  /-- `RLE.LIT`: a literal token of the RLE stream (30_encoding.md R71). -/
  | rleLit (v : Byte)
  /-- `RLE.ESC3`: an escape token of the RLE stream (30_encoding.md R72). -/
  | rleEsc3 (v c : Byte)
  /-- `PAIR.TOK`: a token of the pair stream (30_encoding.md R74). -/
  | pairTok (v c : Byte)
  /-- `MTF.CODE`: a code of the MTF stream (30_encoding.md R75). -/
  | mtfCode (k : Byte)
  /-- `FRAME.HDR`: the header of a frame, magic and metadata length (30_encoding.md R77, R78). -/
  | frameHdr (len : Word)
deriving DecidableEq, Repr

/-- The stream a data-format row belongs to; none for a command word. -/
def Instr.stream : Instr → Option Stream
  | .bwtEnc => none
  | .bwtDec => none
  | .mtfEnc => none
  | .mtfDec => none
  | .rleEnc => none
  | .rleDec => none
  | .pairEnc => none
  | .pairDec => none
  | .compress => none
  | .compressSub _ => none
  | .decompress => none
  | .frameEmit => none
  | .frameParse => none
  | .rleLit _ => some .rle
  | .rleEsc3 _ _ => some .rle
  | .pairTok _ _ => some .pair
  | .mtfCode _ => some .mtf
  | .frameHdr _ => some .frame

end Sys2Proof
end

