-- ==== Sys2Proof/WellFormed.lean ====
section
/-! DEFINITION. Which instructions exist on an instance, and which may stand before given bytes of their stream. The
widths of the fields are in their types. -/

namespace Sys2Proof

/-- The instruction exists on the instance: the rows of the pair variant count only when PAIR_PRESENT is true
(30_encoding.md R62 and section 1b, 42_rle.md R127); every field value of every other row is legal. -/
def Instr.wf (p : Config.Instance) : Instr → Bool
  | .bwtEnc => true
  | .bwtDec => true
  | .mtfEnc => true
  | .mtfDec => true
  | .rleEnc => true
  | .rleDec => true
  | .pairEnc => p.pairPresent
  | .pairDec => p.pairPresent
  | .compress => true
  | .compressSub _ => true
  | .decompress => true
  | .frameEmit => true
  | .frameParse => true
  | .rleLit _ => true
  | .rleEsc3 _ _ => true
  | .pairTok _ _ => p.pairPresent
  | .mtfCode _ => true
  | .frameHdr _ => true

/-- The unit may stand before the bytes `rest` of its stream: a byte 0xFF is a literal token only where fewer than two
bytes follow it (30_encoding.md R70, R71); every other unit may stand anywhere. -/
def Instr.mayPrecede (rest : List Byte) : Instr → Bool
  | .bwtEnc => true
  | .bwtDec => true
  | .mtfEnc => true
  | .mtfDec => true
  | .rleEnc => true
  | .rleDec => true
  | .pairEnc => true
  | .pairDec => true
  | .compress => true
  | .compressSub _ => true
  | .decompress => true
  | .frameEmit => true
  | .frameParse => true
  | .rleLit v => v != Config.esc || decide (rest.length < 2)
  | .rleEsc3 _ _ => true
  | .pairTok _ _ => true
  | .mtfCode _ => true
  | .frameHdr _ => true

end Sys2Proof
end

