-- ==== Sys2Proof/Decode.lean ====
section
/-! DEFINITION. The decoder, total on any command word and any bytes of a stream and rejecting by name, and after it
the encoder, both from 30_encoding.md. A command word has no byte order (20_memory.md R41); a stream is read in index
order (R43). -/

namespace Sys2Proof

/-- Why a command word or the bytes of a stream are no instruction. -/
inductive Reject where
  /-- A bit of 31:12 of the command word is 1 (R62). -/
  | reservedBits
  /-- OP is not 0x09 and a bit of 11:8 is 1 (R62). -/
  | fieldsOutsideCompress
  /-- OP is 0x09, SUB is 0 and a bit of 11:9 is 1 (R62). -/
  | subsetWithoutSub
  /-- OP is 0x00 or in 0x0D..0xFF (R62). -/
  | unassignedOpcode
  /-- OP is 0x07 or 0x08, or a pair token is asked for, and PAIR_PRESENT is false (R62). -/
  | pairAbsent
  /-- No byte is left in the stream (R70). -/
  | endOfStream
  /-- One byte is left in a pair stream (42_rle.md R129). -/
  | unpairedByte
  /-- Fewer than seven bytes of a frame are there (44_frame.md R161). -/
  | tooShort
  /-- The first seven bytes are not MAGIC (R161). -/
  | invalidFormat
  /-- Fewer than four bytes follow the magic (R161). -/
  | truncatedLength
deriving DecidableEq, Repr

/-- The opcodes of 30_encoding.md R61, for a word whose other bits are all 0. -/
def decodeOpcode (p : Config.Instance) (op : Byte) : Except Reject Instr :=
  match op.toNat with
  | 0x01 => .ok .bwtEnc
  | 0x02 => .ok .bwtDec
  | 0x03 => .ok .mtfEnc
  | 0x04 => .ok .mtfDec
  | 0x05 => .ok .rleEnc
  | 0x06 => .ok .rleDec
  | 0x07 => if p.pairPresent then .ok .pairEnc else .error .pairAbsent
  | 0x08 => if p.pairPresent then .ok .pairDec else .error .pairAbsent
  | 0x0A => .ok .decompress
  | 0x0B => .ok .frameEmit
  | 0x0C => .ok .frameParse
  | _ => .error .unassignedOpcode

/-- The command a word written to CMD starts (R60 to R62): OP in 7:0, SUB in 8, SMASK.BWT, SMASK.MTF and SMASK.RLE in 9,
10 and 11, and 31:12 all 0. -/
def decodeCommand (p : Config.Instance) (w : Word) : Except Reject Instr :=
  if w.extractLsb' 12 20 ≠ 0#20 then .error .reservedBits
  else if w.extractLsb' 0 8 = 0x09#8 then
    if w.getLsbD 8 then
      .ok (.compressSub { bwt := w.getLsbD 9, mtf := w.getLsbD 10, rle := w.getLsbD 11 })
    else if w.extractLsb' 9 3 = 0#3 then .ok .compress
    else .error .subsetWithoutSub
  else if w.extractLsb' 8 4 ≠ 0#4 then .error .fieldsOutsideCompress
  else decodeOpcode p (w.extractLsb' 0 8)

/-- Four bytes, the most significant first, as a word: the length field of a frame (30_encoding.md R78). -/
def ofBe32 (a b c d : Byte) : Word :=
  BitVec.ofNat 32 (a.toNat * 2 ^ 24 + b.toNat * 2 ^ 16 + c.toNat * 2 ^ 8 + d.toNat)

/-- `BE32(v)`: the four bytes of a word, the most significant first (00_scope.md R8). -/
def be32 (v : Word) : List Byte :=
  [v.extractLsb' 24 8, v.extractLsb' 16 8, v.extractLsb' 8 8, v.extractLsb' 0 8]

/-- The next token of an RLE stream and the bytes after it (R70): three bytes iff the first is 0xFF and at least three
are left. -/
def decodeRle : List Byte → Except Reject (Instr × List Byte)
  | [] => .error .endOfStream
  | a :: v :: c :: rest => if a = Config.esc then .ok (.rleEsc3 v c, rest) else .ok (.rleLit a, v :: c :: rest)
  | a :: rest => .ok (.rleLit a, rest)

/-- The next pair of a pair stream and the bytes after it (R74). -/
def decodePair : List Byte → Except Reject (Instr × List Byte)
  | [] => .error .endOfStream
  | [_] => .error .unpairedByte
  | v :: c :: rest => .ok (.pairTok v c, rest)

/-- The next code of an MTF stream and the bytes after it (R75): every byte is a legal code. -/
def decodeMtf : List Byte → Except Reject (Instr × List Byte)
  | [] => .error .endOfStream
  | k :: rest => .ok (.mtfCode k, rest)

/-- The header of a frame and the bytes after it, by the tests of 44_frame.md R161 in the order of R162. -/
def decodeFrame (bs : List Byte) : Except Reject (Instr × List Byte) :=
  if bs.length < 7 then .error .tooShort
  else if bs.take 7 ≠ Config.magic then .error .invalidFormat
  else match bs.drop 7 with
    | a :: b :: c :: d :: rest => .ok (.frameHdr (ofBe32 a b c d), rest)
    | _ => .error .truncatedLength

/-- The next unit of a stream and the bytes after it. -/
def decodeStream (p : Config.Instance) (st : Stream) (bs : List Byte) : Except Reject (Instr × List Byte) :=
  match st with
  | .rle => decodeRle bs
  | .pair => if p.pairPresent then decodePair bs else .error .pairAbsent
  | .mtf => decodeMtf bs
  | .frame => decodeFrame bs

/-- The number `w` of `k` bytes as a stream, its most significant byte first: the opcode table's `encoding` strings list
byte 0 first, and its bit numbers count from the last byte's least significant bit (log entry 10). -/
def streamOfNumber : Nat → Nat → List Byte
  | 0, _ => []
  | k + 1, w => BitVec.ofNat 8 (w / 256 ^ k) :: streamOfNumber k w

/-- The stream whose units have this many bits in the opcode table (log entry 10: eight bits are read as the RLE stream,
as nothing in one byte tells an RLE literal from an MTF code). -/
def streamOfWidth (nbits : Nat) : Stream :=
  if nbits = 16 then .pair else if nbits = 88 then .frame else .rle

/-- The instruction the decoder reads from `nbits` bits numbered as the opcode table numbers them: a command word when
they are 32, else the first unit of the stream of that width, on an instance where the pair variant is present. -/
def decodeTableWord (nbits w : Nat) : Option Instr :=
  if nbits = 32 then (decodeCommand Config.defaultInstance (BitVec.ofNat 32 w)).toOption
  else ((decodeStream Config.defaultInstance (streamOfWidth nbits) (streamOfNumber (nbits / 8) w)).toOption).map Prod.fst

/-! The encoder. -/

/-- How an instruction stands outside the block: a command word, or the bytes of a unit of a stream. -/
inductive Encoding where
  | word (w : Word)
  | bytes (bs : List Byte)
deriving DecidableEq, Repr

/-- The command word of COMPRESS with SUB = 1 and this SMASK (43_pipeline.md R142). -/
def compressSubWord (sel : StageSet) : Word :=
  BitVec.ofNat 32 (0x109 + sel.bwt.toNat * 2 ^ 9 + sel.mtf.toNat * 2 ^ 10 + sel.rle.toNat * 2 ^ 11)

/-- The encoding of an instruction (R60, R61, R71, R72, R74, R75, R77). -/
def encode : Instr → Encoding
  | .bwtEnc => .word 0x00000001#32
  | .bwtDec => .word 0x00000002#32
  | .mtfEnc => .word 0x00000003#32
  | .mtfDec => .word 0x00000004#32
  | .rleEnc => .word 0x00000005#32
  | .rleDec => .word 0x00000006#32
  | .pairEnc => .word 0x00000007#32
  | .pairDec => .word 0x00000008#32
  | .compress => .word 0x00000009#32
  | .compressSub sel => .word (compressSubWord sel)
  | .decompress => .word 0x0000000A#32
  | .frameEmit => .word 0x0000000B#32
  | .frameParse => .word 0x0000000C#32
  | .rleLit v => .bytes [v]
  | .rleEsc3 v c => .bytes [Config.esc, v, c]
  | .pairTok v c => .bytes [v, c]
  | .mtfCode k => .bytes [k]
  | .frameHdr len => .bytes (Config.magic ++ be32 len)

/-- The bytes of a stream's unit; a command word stands in no stream. -/
def Encoding.stream : Encoding → List Byte
  | .word _ => []
  | .bytes bs => bs

/-- The bytes an instruction of a stream is emitted as. -/
def encodeUnit (i : Instr) : List Byte := (encode i).stream

/-! The command rows of the machine-readable table (30_encoding.md section 1b), a second account of R62. -/

/-- A row of the opcode table: a word `w` selects it iff `(w AND mask) = value`. -/
structure CommandRow where
  mnemonic : String
  value : Word
  mask : Word
  /-- The row counts only when PAIR_PRESENT is true. -/
  pairOnly : Bool
deriving DecidableEq, Repr

/-- The thirteen command rows of spec/opcode_table.json. -/
def commandRows : List CommandRow :=
  [⟨"BWT_ENC", 0x00000001#32, 0xFFFFFFFF#32, false⟩, ⟨"BWT_DEC", 0x00000002#32, 0xFFFFFFFF#32, false⟩,
   ⟨"MTF_ENC", 0x00000003#32, 0xFFFFFFFF#32, false⟩, ⟨"MTF_DEC", 0x00000004#32, 0xFFFFFFFF#32, false⟩,
   ⟨"RLE_ENC", 0x00000005#32, 0xFFFFFFFF#32, false⟩, ⟨"RLE_DEC", 0x00000006#32, 0xFFFFFFFF#32, false⟩,
   ⟨"PAIR_ENC", 0x00000007#32, 0xFFFFFFFF#32, true⟩] ++
  [⟨"PAIR_DEC", 0x00000008#32, 0xFFFFFFFF#32, true⟩, ⟨"COMPRESS", 0x00000009#32, 0xFFFFFFFF#32, false⟩,
   ⟨"COMPRESS.SUB", 0x00000109#32, 0xFFFFF1FF#32, false⟩, ⟨"DECOMPRESS", 0x0000000A#32, 0xFFFFFFFF#32, false⟩,
   ⟨"FRAME_EMIT", 0x0000000B#32, 0xFFFFFFFF#32, false⟩, ⟨"FRAME_PARSE", 0x0000000C#32, 0xFFFFFFFF#32, false⟩]

/-- The word selects the row on this instance. -/
def CommandRow.selectedBy (r : CommandRow) (p : Config.Instance) (w : Word) : Bool :=
  decide (w &&& r.mask = r.value) && (!r.pairOnly || p.pairPresent)

end Sys2Proof
end

