-- ==== Sys2Proof/Machine/State.lean ====
section
/-! DEFINITION. The state of the block (10_state.md, 45_common.md R234), the reasons a step can stop, and the state
right after reset. Plain data: no field holds a function. -/

namespace Sys2Proof.Machine

/-- A byte memory: the bytes that hold a known value, by index, indices strictly rising. An unlisted index holds no
known value: what it reads as is a free value, drawn by the accessor that reads it (log entry 2). -/
abbrev Memory := List Host.Cell

/-- The canonical form of a memory: indices strictly rising. No entry equals what an unlisted index holds, as that is
no known value. -/
abbrev Memory.wf (m : Memory) : Prop := List.Pairwise (fun a b : Host.Cell => a.1 < b.1) m

/-- The error conditions and their absence, the values of STATUS.ECODE (60_exceptions.md R180). -/
inductive ECode where
  /-- 0x00: no error and no fallback. -/
  | none
  /-- 0x01: the command word is illegal (R182). -/
  | illegalCommand
  /-- 0x02: ILEN > ICAP, or MLEN > ILEN (R183). -/
  | badLength
  /-- 0x03: a result longer than OCAP (R184), or the annotation of a fallback (R200). -/
  | outputOverflow
  /-- 0x10: a blob of fewer than seven bytes (R187). -/
  | tooShort
  /-- 0x11: the first seven bytes differ from MAGIC (R187). -/
  | invalidFormat
  /-- 0x12: fewer than four bytes after the magic (R187). -/
  | truncatedLength
  /-- 0x13: the declared metadata length is greater than the bytes after the header (R187). -/
  | truncatedBody
  /-- 0x20: no stage list is present (R185). -/
  | invalidMetadata
  /-- 0x21: a primary index is needed and none is present (R185). -/
  | missingPrimaryIndex
  /-- 0x22: the primary index is not below the length (R186). -/
  | primaryIndexRange
  /-- 0x23: reserved for the host, never raised by the block (R188). -/
  | parseFailed
deriving DecidableEq, Repr

/-- The fields of STATUS (10_state.md R21); bits 7:6 and 31:16 hold nothing and read 0. The 32-bit word is
`Status.word` in Flags.lean (log entry 14). -/
structure Status where
  busy : Bool
  done : Bool
  err : Bool
  fb : Bool
  stgv : Bool
  pidxv : Bool
  ecode : ECode
deriving DecidableEq, Repr

/-- The control state of the sequencer, SEQ (R10). -/
inductive Seq where
  | idle
  | busy
deriving DecidableEq, Repr

/-- What a unit does between the start and the completion of a command: one entry per unit function of the block. -/
inductive Stage where
  /-- BWT forward (40_bwt.md R99). -/
  | bwtEnc
  /-- BWT inverse (R96). -/
  | bwtDec
  /-- MTF forward (41_mtf.md R111). -/
  | mtfEnc
  /-- MTF inverse (R112). -/
  | mtfDec
  /-- RLE encoder (42_rle.md R120). -/
  | rleEnc
  /-- RLE decoder (R123). -/
  | rleDec
  /-- Pair encoder (R128). -/
  | pairEnc
  /-- Pair decoder (R129). -/
  | pairDec
  /-- Frame emitter (44_frame.md R160). -/
  | frameEmit
  /-- Frame parser (R161). -/
  | frameParse
deriving DecidableEq, Repr

/-- The run accumulator of the RLE encoder (R19). -/
structure Run where
  value : Byte
  length : Nat
deriving DecidableEq, Repr

/-- The hidden working state of the units (10_state.md section 5): none of it is readable or writable by the host, and
it holds `Work.clear` whenever no command runs (log entry 8). -/
structure Work where
  /-- The stages still to run, the running one first (43_pipeline.md R140, 45_common.md R231). -/
  todo : List Stage
  /-- The stage buffer the running stage reads (R25). -/
  src : List Byte
  /-- The stage buffer the running stage has written (R25). -/
  dst : List Byte
  /-- The input cursor (R20). -/
  ip : Nat
  /-- The output cursor (R20). -/
  op : Nat
  /-- The rotation offset array OFS (R16). -/
  ofs : List Nat
  /-- The inverse-transform map T (R17). -/
  tmap : List Nat
  /-- The walk position of the BWT inverse (R17). -/
  cursor : Nat
  /-- The MTF symbol table M (R18). -/
  mtf : List Byte
  /-- The run accumulator (R19). -/
  run : Run
  /-- The metadata length L the frame parser has read (44_frame.md R161; log entry 12). -/
  hdr : Option Word
deriving DecidableEq, Repr

/-- The working state outside a command: nothing survives from one command to the next (R26; log entry 8). -/
def Work.clear : Work :=
  { todo := [], src := [], dst := [], ip := 0, op := 0, ofs := [], tmap := [], cursor := 0, mtf := Config.mtfIdentity,
    run := { value := 0#8, length := 0 }, hdr := none }

/-- One event from outside the block (45_common.md R235): a bus access of the host, its width in bits, or the reset
input. Registers are addressed by byte offset, buffers by index (20_memory.md R40). -/
inductive Access where
  | regRead (offset width : Nat)
  | regWrite (offset width : Nat) (v : Word)
  | ibufRead (index width : Nat)
  | ibufWrite (index width : Nat) (b : Byte)
  | obufRead (index width : Nat)
  | obufWrite (index width : Nat) (b : Byte)
  /-- The reset input `rst` is asserted and released (70_reset_and_hazards.md R210). -/
  | rst
deriving DecidableEq, Repr

/-- The value a read of the host returned. -/
inductive Reply where
  | word (v : Word)
  | byte (b : Byte)
deriving DecidableEq, Repr

/-- The state of one instance of the block. -/
structure State where
  /-- The parameters of the instance (00_scope.md R6), the placement of its spaces in the host's map included: constants,
  which no step changes (log entries 1, 20). -/
  inst : Config.Instance
  /-- CMD, offset 0x00 (R22). -/
  cmd : Word
  /-- STATUS, offset 0x04 (R21). -/
  status : Status
  /-- STAGES, offset 0x08 (R12). -/
  stages : Word
  /-- PIDX, offset 0x0C (R13). -/
  pidx : Word
  /-- ILEN, offset 0x10 (R14). -/
  ilen : Word
  /-- OLEN, offset 0x14 (R14). -/
  olen : Word
  /-- MLEN, offset 0x18 (R15). -/
  mlen : Word
  /-- POFF, offset 0x1C (R15). -/
  poff : Word
  /-- PLEN, offset 0x20 (R15). -/
  plen : Word
  /-- SEQ (R10). -/
  seq : Seq
  /-- The input buffer IBUF (R24): its bytes that hold a known value. -/
  ibuf : Memory
  /-- The output buffer OBUF (R24): its bytes that hold a known value. -/
  obuf : Memory
  /-- The hidden working state of the units (R16 to R20, R25). -/
  work : Work
  /-- The MODEL's own: the draw the unknown bytes of IBUF come from (log entry 2). -/
  ibufDraw : Nat
  /-- The MODEL's own: the draw the unknown bytes of OBUF come from (log entry 2). -/
  obufDraw : Nat
  /-- The MODEL's own: the number of the next draw of a free value (log entry 2). -/
  draws : Nat
  /-- The MODEL's own: the host turns left before the sequencer's turn (log entry 4). -/
  busyLeft : Nat
  /-- The MODEL's own: the host's pending accesses in issue order (20_memory.md R50; log entry 5). -/
  inbox : List Access
  /-- The MODEL's own: the values the host's reads returned, oldest first (log entry 5). -/
  outbox : List Reply
deriving DecidableEq, Repr

/-- Why the machine stops with a fault: an access to an address the spec says does not exist (20_memory.md R42). No
instruction raises one; a host access does (log entry 6). -/
inductive Fault where
  /-- An IBUF access at an index ≥ ICAP, raised by the host's access; safe: the block does not respond and its state
  does not change. -/
  | ibufIndexOutside
  /-- An OBUF access at an index ≥ OCAP, raised by the host's access; safe, as above. -/
  | obufIndexOutside
deriving DecidableEq, Repr

/-- Why the machine has no step (93 U12: "the model has no such step"; log entry 6). -/
inductive Refusal where
  /-- An instruction of the opcode table without a meaning yet, raised by its arm of exec; safe. -/
  | notModelled (mnemonic : String)
  /-- A REG access that is not 32 bits wide (20_memory.md R41), raised by the host's access; safe. -/
  | registerWidth
  /-- A REG access at an offset that is not a multiple of 4 (R41), raised by the host's access; safe. -/
  | registerAlignment
  /-- A buffer access that is not one byte wide (R42), raised by the host's access; safe. -/
  | bufferWidth
deriving DecidableEq, Repr

/-- STATUS after reset: 0, no field set (R27). -/
def Status.reset : Status :=
  { busy := false, done := false, err := false, fb := false, stgv := false, pidxv := false, ecode := .none }

/-- The state of the instance `p` right after reset (10_state.md R27, 70_reset_and_hazards.md R210): every register 0,
SEQ IDLE, no byte of a buffer known. -/
def State.resetOf (p : Config.Instance) : State :=
  { inst := p, cmd := 0#32, status := Status.reset, stages := 0#32, pidx := 0#32, ilen := 0#32, olen := 0#32,
    mlen := 0#32, poff := 0#32, plen := 0#32, seq := .idle, ibuf := [], obuf := [], work := Work.clear,
    ibufDraw := 0, obufDraw := 1, draws := 2, busyLeft := 0, inbox := [], outbox := [] }

/-- The machine right after reset, on the instance of log entry 1. -/
def State.reset : State := State.resetOf Config.defaultInstance

end Sys2Proof.Machine
end

