-- ==== Sys2Proof/Machine/Flags.lean ====
section
/-! DEFINITION. STATUS: the codes of ECODE, the 32-bit word the host reads, and what each kind of step does to the
fields (10_state.md R21). There are no arithmetic flags. -/

namespace Sys2Proof.Machine

/-- The number of a condition in STATUS.ECODE (60_exceptions.md R180). -/
def ECode.code : ECode → Byte
  | .none => 0x00#8
  | .illegalCommand => 0x01#8
  | .badLength => 0x02#8
  | .outputOverflow => 0x03#8
  | .tooShort => 0x10#8
  | .invalidFormat => 0x11#8
  | .truncatedLength => 0x12#8
  | .truncatedBody => 0x13#8
  | .invalidMetadata => 0x20#8
  | .missingPrimaryIndex => 0x21#8
  | .primaryIndexRange => 0x22#8
  | .parseFailed => 0x23#8

/-- STATUS as the word the host reads (R21): BUSY in bit 0, DONE 1, ERR 2, FB 3, STGV 4, PIDXV 5, ECODE in 15:8, and
every other bit 0. -/
def Status.word (f : Status) : Word :=
  BitVec.ofNat 32 (f.busy.toNat + f.done.toNat * 2 + f.err.toNat * 4 + f.fb.toNat * 8 + f.stgv.toNat * 16
    + f.pidxv.toNat * 32 + f.ecode.code.toNat * 256)

/-- The start step: BUSY set, DONE, ERR, FB and ECODE cleared, STGV and PIDXV unchanged (45_common.md R236). -/
def Status.start (f : Status) : Status :=
  { f with busy := true, done := false, err := false, fb := false, ecode := .none }

/-- A completion without an error: DONE set, BUSY cleared (the last line of every command's rule). -/
def Status.complete (f : Status) : Status :=
  { f with done := true, busy := false }

/-- An error completion: ERR and the code set, FB cleared, DONE set, BUSY cleared (60_exceptions.md R181). -/
def Status.fail (c : ECode) (f : Status) : Status :=
  { f with err := true, ecode := c, fb := false, done := true, busy := false }

/-- The fallback's annotation: FB set, ECODE 0x03 (43_pipeline.md R145). -/
def Status.annotate (f : Status) : Status :=
  { f with fb := true, ecode := .outputOverflow }

end Sys2Proof.Machine
end

