-- ==== Sys2Proof/Machine/Operands.lean ====
section
/-! DEFINITION. How a command reads its operands: one byte of a buffer, the input sequence `IN`, the stage set of
STAGES, and the lengths as naturals (00_scope.md R7, R9). -/

namespace Sys2Proof.Machine

/-- The known byte at an index, if there is one. -/
def Memory.get? : Memory → Nat → Option Byte
  | [], _ => none
  | (a, b) :: m, i => if a = i then some b else Memory.get? m i

/-- `MemRead(IBUF+i, 1)`: the byte at an index of IBUF, a free value where nothing is known (R9, R27). -/
def State.ibufByte (s : State) (i : Nat) : Byte :=
  (Memory.get? s.ibuf i).getD (Config.freeByte s.ibufDraw i)

/-- `MemRead(OBUF+i, 1)`: the byte at an index of OBUF, a free value where nothing is known (R9, R47). -/
def State.obufByte (s : State) (i : Nat) : Byte :=
  (Memory.get? s.obuf i).getD (Config.freeByte s.obufDraw i)

/-- `n = x[ILEN]` as a natural. -/
def State.inputLength (s : State) : Nat := s.ilen.toNat

/-- `IN`: the bytes of IBUF at 0 .. n − 1 (R9). -/
def State.input (s : State) : List Byte := (List.range s.inputLength).map s.ibufByte

/-- OBUF[0..OLEN): the output sequence a host reads after a command (10_state.md R14, R24). -/
def State.output (s : State) : List Byte := (List.range s.olen.toNat).map s.obufByte

/-- The input does not lie inside IBUF: the first test of every legal command (60_exceptions.md R183). -/
def State.inputTooLong (s : State) : Bool := decide (s.inputLength > s.inst.icap)

/-- A sequence is longer than the output buffer (60_exceptions.md R184). -/
def State.overflows (s : State) (bs : List Byte) : Bool := decide (bs.length > s.inst.ocap)

/-- The stages STAGES names (10_state.md R12): the UNK bits 7:3 are skipped without error (43_pipeline.md R148). -/
def State.stageSet (s : State) : StageSet :=
  { bwt := s.stages.getLsbD 0, mtf := s.stages.getLsbD 1, rle := s.stages.getLsbD 2 }

/-- A stage set as the word COMPRESS writes to STAGES: `BWT + 2·MTF + 4·RLE`, the UNK bits 0 (R142). -/
def stageWord (sel : StageSet) : Word :=
  BitVec.ofNat 32 (sel.bwt.toNat + 2 * sel.mtf.toNat + 4 * sel.rle.toNat)

end Sys2Proof.Machine
end

