-- ==== Sys2Proof/Machine/Ops.lean ====
section
/-! DEFINITION. The shared operations: writing a byte of a buffer, `OUT <- s`, the two ends of a command (the
completion and the error completion, which is this block's exception), leaving the error state, and the reset step. -/

namespace Sys2Proof.Machine

/-- Writes the byte at an index, keeping the canonical form. -/
def Memory.set : Memory → Nat → Byte → Memory
  | [], i, v => [(i, v)]
  | (a, b) :: m, i, v =>
    if i < a then (i, v) :: (a, b) :: m
    else if i = a then (i, v) :: m
    else (a, b) :: Memory.set m i v

/-- The memory that holds the sequence at the indices from `k` on. -/
def Memory.ofBytes : Nat → List Byte → Memory
  | _, [] => []
  | k, b :: bs => (k, b) :: Memory.ofBytes (k + 1) bs

/-- `OUT <- bs` (00_scope.md R9, 20_memory.md R47): OBUF holds the sequence from index 0, every byte of OBUF after it is
unspecified (a draw of its own), and OLEN is its length. -/
def State.out (bs : List Byte) (s : State) : State :=
  { s with obuf := Memory.ofBytes 0 bs, obufDraw := s.draws, draws := s.draws + 1,
           olen := BitVec.ofNat 32 bs.length }

/-- `x[PIDX] <- zext_32(p)` (R9). -/
def State.setPidx (p : Nat) (s : State) : State := { s with pidx := BitVec.ofNat 32 p }

/-- `x[STATUS].PIDXV <- b` (10_state.md R23). -/
def State.setPidxv (b : Bool) (s : State) : State := { s with status := { s.status with pidxv := b } }

/-- `x[STATUS].STGV <- b` (10_state.md R23). -/
def State.setStgv (b : Bool) (s : State) : State := { s with status := { s.status with stgv := b } }

/-- SEQ returns to IDLE and the working buffers are discarded (10_state.md R10, R26). -/
def State.retire (s : State) : State := { s with seq := .idle, work := Work.clear, busyLeft := 0 }

/-- The end of every command that raises nothing: `x[STATUS].DONE <- 1 ; x[STATUS].BUSY <- 0`, and SEQ is IDLE. ERR, FB
and ECODE keep what the start step or the command gave them (log entry 15). -/
def State.complete (s : State) : State := { s with status := s.status.complete }.retire

/-- The commands whose error completion has a line of its own in 60_exceptions.md R181. -/
inductive ErrorLine where
  | bwtDec
  | decompress
  | frameParse
  | other
deriving DecidableEq, Repr

/-- The valid bits an error completion clears (R181): BWT_DEC consumes PIDXV, DECOMPRESS both. -/
def Status.consume (k : ErrorLine) (f : Status) : Status :=
  match k with
  | .bwtDec => { f with pidxv := false }
  | .decompress => { f with pidxv := false, stgv := false }
  | .frameParse => f
  | .other => f

/-- What an error completion does to the result registers and OBUF (R181): FRAME_PARSE zeroes POFF and PLEN; every other
command but an illegal one zeroes OLEN and leaves every byte of OBUF unspecified. -/
def State.spoil (k : ErrorLine) (c : ECode) (s : State) : State :=
  if k = .frameParse then { s with poff := 0#32, plen := 0#32 }
  else if c = .illegalCommand then s
  else { s with olen := 0#32, obuf := [], obufDraw := s.draws, draws := s.draws + 1 }

/-- `raise Cond`: the error completion of 60_exceptions.md R181, in one step. Control goes nowhere: SEQ returns to
IDLE, and the next CMD write that starts a command clears the error (R193). -/
def State.raise (k : ErrorLine) (c : ECode) (s : State) : State :=
  ({ s with status := (s.status.fail c).consume k }.spoil k c).retire

/-- The reset step (70_reset_and_hazards.md R210): every register 0, SEQ IDLE, a running command abandoned without a
completion step, both buffers unspecified (two fresh draws). The instance, the host's pending accesses and the replies
it has read are not the block's and stay (log entry 16). -/
def State.applyReset (s : State) : State :=
  { State.resetOf s.inst with
      ibufDraw := s.draws, obufDraw := s.draws + 1, draws := s.draws + 2, inbox := s.inbox, outbox := s.outbox }

end Sys2Proof.Machine
end

