-- ==== Sys2Proof/Machine/Frame.lean ====
section
/-! DEFINITION. The frame unit (44_frame.md): FRAME_EMIT, FRAME_PARSE, and the effect of a frame's header on the parser.
It handles bytes only and never reads STAGES or PIDX (R168). -/

namespace Sys2Proof.Machine

/-- `MAGIC ++ BE32(L) ++ IN` (R160). -/
def frameOf (len : Word) (content : List Byte) : List Byte := encodeUnit (.frameHdr len) ++ content

/-- The length field of a blob, bytes 7 to 10 (30_encoding.md R78). -/
def frameLength (blob : List Byte) : Word :=
  ofBe32 (blob.getD 7 0#8) (blob.getD 8 0#8) (blob.getD 9 0#8) (blob.getD 10 0#8)

/-- What a frame's parse gives: the length L of its metadata block, or the first condition that applies, by the tests of
R161 in the order of R162. The body check compares naturals, and L has no cap (R163). -/
def parseFrame (blob : List Byte) : Except ECode Word :=
  if blob.length < 7 then .error .tooShort
  else if blob.take 7 ≠ Config.magic then .error .invalidFormat
  else if blob.length - 7 < 4 then .error .truncatedLength
  else if (frameLength blob).toNat > blob.length - Config.headerSize then .error .truncatedBody
  else .ok (frameLength blob)

/-- FRAME_EMIT (R160). -/
def execFrameEmit (s : State) : Host.Outcome State Fault Refusal :=
  if s.inputTooLong then .next (s.raise .other .badLength)
  else if s.mlen.toNat > s.inputLength then .next (s.raise .other .badLength)
  else if Config.headerSize + s.inputLength > s.inst.ocap then .next (s.raise .other .outputOverflow)
  else .next ((s.out (frameOf s.mlen s.input)).complete)

/-- The results of a successful FRAME_PARSE (R161): MLEN = L, POFF = 11 + L, PLEN = n − 11 − L. -/
def State.setFrame (len : Word) (s : State) : State :=
  { s with mlen := len, poff := BitVec.ofNat 32 (Config.headerSize + len.toNat),
           plen := BitVec.ofNat 32 (s.inputLength - Config.headerSize - len.toNat) }

/-- FRAME_PARSE (R161): in place; OBUF and OLEN are not written. -/
def execFrameParse (s : State) : Host.Outcome State Fault Refusal :=
  if s.inputTooLong then .next (s.raise .frameParse .badLength)
  else match parseFrame s.input with
    | .error c => .next (s.raise .frameParse c)
    | .ok len => .next ((s.setFrame len).complete)

/-- FRAME.HDR (30_encoding.md R77, R78; log entry 12): the parser has read the eleven bytes of the header and holds L;
the result registers are written by the completion step alone (20_memory.md R50). -/
def execFrameHdr (len : Word) (s : State) : Host.Outcome State Fault Refusal :=
  .next { s with work := { s.work with ip := s.work.ip + Config.headerSize, hdr := some len } }

end Sys2Proof.Machine
end

