-- ==== Sys2Proof/Machine/Bwt.lean ====
section
/-! DEFINITION. The BWT engine (40_bwt.md): the rotation order and the forward transform, the rank pass and the walk of
the inverse, and the commands BWT_ENC and BWT_DEC. -/

namespace Sys2Proof.Machine

/-- Byte `i` of the rotation of `b` that starts at offset `a`: `b[(a+i) mod n]` (R90). -/
def rotationByte (b : List Byte) (a i : Nat) : Byte := b.getD ((a + i) % b.length) 0#8

/-- The comparator over the next `k` byte pairs, from position `i` on (R90): the first difference decides, unsigned. -/
def compareFrom (b : List Byte) (a c i : Nat) : Nat → Ordering
  | 0 => .eq
  | k + 1 =>
    if rotationByte b a i < rotationByte b c i then .lt
    else if rotationByte b c i < rotationByte b a i then .gt
    else compareFrom b a c (i + 1) k

/-- `cmp(a, c)`: the rotations of `b` at offsets `a` and `c`, compared over all n byte pairs (R90). -/
def compareRotations (b : List Byte) (a c : Nat) : Ordering := compareFrom b a c 0 b.length

/-- Rank order of two offsets: by rotation, and equal rotations by ascending offset (R91). -/
def ranksBefore (b : List Byte) (a c : Nat) : Bool :=
  match compareRotations b a c with
  | .lt => true
  | .eq => decide (a ≤ c)
  | .gt => false

/-- OFS: the offsets 0 .. n − 1 in the sorted order of R91. -/
def rotationOrder (b : List Byte) : List Nat :=
  List.insertionSort (fun a c => ranksBefore b a c = true) (List.range b.length)

/-- The primary index: the rank of offset 0 (R92); 0 for the empty sequence (90_conflicts.md C2). -/
def primaryIndex (b : List Byte) : Nat := (rotationOrder b).idxOf 0

/-- `L[i]` for the rotation that starts at `o`: the byte before it, `b[(o + n − 1) mod n]` (R99). -/
def precedingByte (b : List Byte) (o : Nat) : Byte := b.getD ((o + b.length - 1) % b.length) 0#8

/-- The last column `L` (R99). -/
def lastColumn (b : List Byte) : List Byte := (rotationOrder b).map (precedingByte b)

/-- `bwt_enc(b)` (R99). -/
def bwtEncode (b : List Byte) : List Byte × Nat := (lastColumn b, primaryIndex b)

/-- Sorted order of the pairs `(L[i], i)`: by byte value ascending, equal bytes by ascending index (R95). -/
def pairBefore (l : List Byte) (i j : Nat) : Bool :=
  decide (l.getD i 0#8 < l.getD j 0#8) || (decide (l.getD i 0#8 = l.getD j 0#8) && decide (i ≤ j))

/-- The map T: at each rank the original index of its pair (R95, R96; the direction is 90_conflicts.md C1). -/
def inverseMap (l : List Byte) : List Nat :=
  List.insertionSort (fun i j => pairBefore l i j = true) (List.range l.length)

/-- The walk of R96 for `k` more output bytes: emit `L[T[cursor]]`, then `cursor = T[cursor]`. -/
def inverseWalk (l : List Byte) (t : List Nat) : Nat → Nat → List Byte
  | 0, _ => []
  | k + 1, cursor => l.getD (t.getD cursor 0) 0#8 :: inverseWalk l t k (t.getD cursor 0)

/-- `bwt_dec(L, p)` (R96); the commands call it with p < n, or with n = 0. -/
def bwtDecode (l : List Byte) (p : Nat) : List Byte := inverseWalk l (inverseMap l) l.length p

/-- BWT_ENC (R94). -/
def execBwtEnc (s : State) : Host.Outcome State Fault Refusal :=
  if s.inputTooLong then .next (s.raise .other .badLength)
  else
    .next ((((s.out (bwtEncode s.input).1).setPidx (bwtEncode s.input).2).setPidxv true).complete)

/-- BWT_DEC (R97): the tests in its order, n = 0 before the range, PIDXV consumed in every case. -/
def execBwtDec (s : State) : Host.Outcome State Fault Refusal :=
  if s.inputTooLong then .next (s.raise .bwtDec .badLength)
  else if !s.status.pidxv then .next (s.raise .bwtDec .missingPrimaryIndex)
  else if s.inputLength = 0 then .next (((s.out []).setPidxv false).complete)
  else if s.pidx.toNat ≥ s.inputLength then .next (s.raise .bwtDec .primaryIndexRange)
  else .next (((s.out (bwtDecode s.input s.pidx.toNat)).setPidxv false).complete)

end Sys2Proof.Machine
end

