-- ==== Sys2Proof/Machine/Mtf.lean ====
section
/-! DEFINITION. The MTF recoder (41_mtf.md): the table's steps, the two functions over a sequence, the commands MTF_ENC
and MTF_DEC, and the effect of one code of the MTF stream. -/

namespace Sys2Proof.Machine

/-- The entry at position `k` moves to the front; entries 0 .. k − 1 move right by one (R111, R112). -/
def moveToFront (m : List Byte) (k : Nat) : List Byte := m.getD k 0#8 :: m.eraseIdx k

/-- The position of a value in the table (R111): the index k with M[k] = v. -/
def mtfPosition (m : List Byte) (v : Byte) : Nat := m.idxOf v

/-- Encodes a sequence from a given table on, one step of R111 for each byte. -/
def mtfEncodeFrom (m : List Byte) : List Byte → List Byte
  | [] => []
  | v :: vs => BitVec.ofNat 8 (mtfPosition m v) :: mtfEncodeFrom (moveToFront m (mtfPosition m v)) vs

/-- Decodes a sequence from a given table on, one step of R112 for each byte. -/
def mtfDecodeFrom (m : List Byte) : List Byte → List Byte
  | [] => []
  | k :: ks => m.getD k.toNat 0#8 :: mtfDecodeFrom (moveToFront m k.toNat) ks

/-- `mtf_enc(s)`: from the identity table (R110, R115). -/
def mtfEncode (bs : List Byte) : List Byte := mtfEncodeFrom Config.mtfIdentity bs

/-- `mtf_dec(s)`: from the identity table (R110, R115). -/
def mtfDecode (bs : List Byte) : List Byte := mtfDecodeFrom Config.mtfIdentity bs

/-- MTF_ENC (R113). -/
def execMtfEnc (s : State) : Host.Outcome State Fault Refusal :=
  if s.inputTooLong then .next (s.raise .other .badLength)
  else .next ((s.out (mtfEncode s.input)).complete)

/-- MTF_DEC (R114). -/
def execMtfDec (s : State) : Host.Outcome State Fault Refusal :=
  if s.inputTooLong then .next (s.raise .other .badLength)
  else .next ((s.out (mtfDecode s.input)).complete)

/-- A unit of the running stage read `n` bytes of its stream and wrote `bs` (10_state.md R20, R25). -/
def Work.emit (n : Nat) (bs : List Byte) (w : Work) : Work :=
  { w with ip := w.ip + n, op := w.op + bs.length, dst := w.dst ++ bs }

/-- MTF.CODE (R112): emit the value at position `k`, then move it to the front. -/
def execMtfCode (k : Byte) (s : State) : Host.Outcome State Fault Refusal :=
  .next { s with work :=
    { s.work.emit 1 [s.work.mtf.getD k.toNat 0#8] with mtf := moveToFront s.work.mtf k.toNat } }

end Sys2Proof.Machine
end

