-- ==== Sys2Proof/Machine/Rle.lean ====
section
/-! DEFINITION. The RLE codec (42_rle.md): run scanning, the escape-based encoder and decoder, the pair variant, the four
commands, and the effects of the tokens of both streams. -/

namespace Sys2Proof.Machine

/-- Run scanning with the run accumulator `(value, length)` (R120, 10_state.md R19): the run grows while the next byte is
its value and it is shorter than RUNMAX, and is closed otherwise. -/
def scanRuns (value : Byte) (length : Nat) : List Byte → List Run
  | [] => [{ value := value, length := length }]
  | b :: bs =>
    if b = value ∧ length < Config.runMax then scanRuns value (length + 1) bs
    else { value := value, length := length } :: scanRuns b 1 bs

/-- The emitted runs of a sequence, in order (R120). -/
def runs : List Byte → List Run
  | [] => []
  | b :: bs => scanRuns b 1 bs

/-- The RLE token of a run (R121). -/
def rleToken (r : Run) : Instr :=
  if r.length = 1 then
    if r.value = Config.esc then .rleEsc3 Config.esc 0x00#8 else .rleLit r.value
  else .rleEsc3 r.value (BitVec.ofNat 8 (r.length - 1))

/-- The pair token of a run: the value and the run length itself (R128). -/
def pairToken (r : Run) : Instr := .pairTok r.value (BitVec.ofNat 8 r.length)

/-- `rle_enc(s)`: the tokens of the runs, concatenated (R121). -/
def rleEncode (bs : List Byte) : List Byte := (runs bs).flatMap (fun r => encodeUnit (rleToken r))

/-- `pair_enc(x)` (R128). -/
def pairEncode (bs : List Byte) : List Byte := (runs bs).flatMap (fun r => encodeUnit (pairToken r))

/-- `rle_dec(y)` (R123): an escape token where the byte is 0xFF and at least two more remain, else a literal. -/
def rleDecode : List Byte → List Byte
  | a :: v :: c :: rest =>
    if a = Config.esc then List.replicate (c.toNat + 1) v ++ rleDecode rest
    else a :: rleDecode (v :: c :: rest)
  | a :: rest => a :: rleDecode rest
  | [] => []

/-- The pair decoder (R129): a count of 0 emits nothing, and an unpaired last byte is a literal. -/
def pairDecode : List Byte → List Byte
  | v :: c :: rest => List.replicate c.toNat v ++ pairDecode rest
  | [v] => [v]
  | [] => []

/-- RLE_ENC (R122). -/
def execRleEnc (s : State) : Host.Outcome State Fault Refusal :=
  if s.inputTooLong then .next (s.raise .other .badLength)
  else if s.overflows (rleEncode s.input) then .next (s.raise .other .outputOverflow)
  else .next ((s.out (rleEncode s.input)).complete)

/-- RLE_DEC (R124). -/
def execRleDec (s : State) : Host.Outcome State Fault Refusal :=
  if s.inputTooLong then .next (s.raise .other .badLength)
  else if s.overflows (rleDecode s.input) then .next (s.raise .other .outputOverflow)
  else .next ((s.out (rleDecode s.input)).complete)

/-- PAIR_ENC (R128): IllegalCommand first when PAIR_PRESENT is false. -/
def execPairEnc (s : State) : Host.Outcome State Fault Refusal :=
  if !s.inst.pairPresent then .next (s.raise .other .illegalCommand)
  else if s.inputTooLong then .next (s.raise .other .badLength)
  else if s.overflows (pairEncode s.input) then .next (s.raise .other .outputOverflow)
  else .next ((s.out (pairEncode s.input)).complete)

/-- PAIR_DEC (R129): IllegalCommand first when PAIR_PRESENT is false. -/
def execPairDec (s : State) : Host.Outcome State Fault Refusal :=
  if !s.inst.pairPresent then .next (s.raise .other .illegalCommand)
  else if s.inputTooLong then .next (s.raise .other .badLength)
  else if s.overflows (pairDecode s.input) then .next (s.raise .other .outputOverflow)
  else .next ((s.out (pairDecode s.input)).complete)

/-- RLE.LIT (R71, R123): emit the byte, advance 1 byte. -/
def execRleLit (v : Byte) (s : State) : Host.Outcome State Fault Refusal :=
  .next { s with work := s.work.emit 1 [v] }

/-- RLE.ESC3 (R72, R123): emit `c + 1` copies of `v`, `c` zero-extended, advance 3 bytes. -/
def execRleEsc3 (v c : Byte) (s : State) : Host.Outcome State Fault Refusal :=
  .next { s with work := s.work.emit 3 (List.replicate (c.toNat + 1) v) }

/-- PAIR.TOK (R74, R129): emit `c` copies of `v`, none for a count of 0, advance 2 bytes. -/
def execPairTok (v c : Byte) (s : State) : Host.Outcome State Fault Refusal :=
  .next { s with work := s.work.emit 2 (List.replicate c.toNat v) }

end Sys2Proof.Machine
end

