-- ==== Sys2Proof/Machine/Pipeline.lean ====
section
/-! DEFINITION. The pipeline sequencer (43_pipeline.md): COMPRESS with the default or a selected stage set and its
fallback, and DECOMPRESS. -/

namespace Sys2Proof.Machine

/-- `s3` of R142: BWT, MTF and RLE in that order, each where it is selected (R140). -/
def compressBytes (sel : StageSet) (bs : List Byte) : List Byte :=
  let s1 := if sel.bwt then (bwtEncode bs).1 else bs
  let s2 := if sel.mtf then mtfEncode s1 else s1
  if sel.rle then rleEncode s2 else s2

/-- `p` of R142: the primary index where BWT is selected, else 0. -/
def compressIndex (sel : StageSet) (bs : List Byte) : Nat := if sel.bwt then (bwtEncode bs).2 else 0

/-- The fallback of R145: the input itself, STAGES 0 for ["none"], no primary index, FB and the annotation, no error. -/
def State.fallback (s : State) : State :=
  let t := ((s.out s.input).setPidx 0).setPidxv false
  { t with stages := 0#32, status := t.status.annotate }

/-- The result of R142 when the last stage's output fits. -/
def State.compressed (sel : StageSet) (s : State) : State :=
  let t := ((s.out (compressBytes sel s.input)).setPidx (compressIndex sel s.input)).setPidxv sel.bwt
  { t with stages := stageWord sel }

/-- COMPRESS with a stage selection (R142): BadLength is its only error; a stage failure takes the fallback. -/
def State.runCompress (sel : StageSet) (s : State) : State :=
  if s.inputTooLong then s.raise .other .badLength
  else if s.overflows (compressBytes sel s.input) then (s.fallback.setStgv true).complete
  else ((s.compressed sel).setStgv true).complete

/-- COMPRESS, default stage list (R141, R142). -/
def execCompress (s : State) : Host.Outcome State Fault Refusal :=
  .next (s.runCompress StageSet.all)

/-- COMPRESS.SUB: the stages of SMASK (R141, R142). -/
def execCompressSub (sel : StageSet) (s : State) : Host.Outcome State Fault Refusal :=
  .next (s.runCompress sel)

/-- The RLE stage of DECOMPRESS (R147). -/
def undoRle (st : StageSet) (bs : List Byte) : List Byte := if st.rle then rleDecode bs else bs

/-- The MTF stage of DECOMPRESS (R147). -/
def undoMtf (st : StageSet) (bs : List Byte) : List Byte := if st.mtf then mtfDecode bs else bs

/-- The BWT stage of DECOMPRESS (R147): nothing for an empty sequence, the range of the index otherwise. -/
def undoBwt (st : StageSet) (p : Nat) (bs : List Byte) : Except ECode (List Byte) :=
  if st.bwt then
    if bs.length = 0 then .ok []
    else if p ≥ bs.length then .error .primaryIndexRange
    else .ok (bwtDecode bs p)
  else .ok bs

/-- `decompress` after the metadata tests (R147): the first condition that applies, or the bytes. The overflow test is
made where the RLE stage has run. -/
def decompressBytes (st : StageSet) (p ocap : Nat) (bs : List Byte) : Except ECode (List Byte) :=
  if st.rle ∧ (undoRle st bs).length > ocap then .error .outputOverflow
  else undoBwt st p (undoMtf st (undoRle st bs))

/-- DECOMPRESS (R146, R147): the tests in its order; STGV and PIDXV are consumed in every case. -/
def execDecompress (s : State) : Host.Outcome State Fault Refusal :=
  if s.inputTooLong then .next (s.raise .decompress .badLength)
  else if !s.status.stgv then .next (s.raise .decompress .invalidMetadata)
  else if s.stageSet.bwt && !s.status.pidxv then .next (s.raise .decompress .missingPrimaryIndex)
  else match decompressBytes s.stageSet s.pidx.toNat s.inst.ocap s.input with
    | .error c => .next (s.raise .decompress c)
    | .ok bs => .next ((((s.out bs).setStgv false).setPidxv false).complete)

end Sys2Proof.Machine
end

