-- ==== Sys2Proof/Machine/Sequencer.lean ====
section
/-! DEFINITION. What the sequencer does between the start and the completion of a command: the stages a command runs, the
working state a stage starts with, the hidden steps of the units, and which instruction is fetched next. No host sees
any of it (10_state.md R10, R27; log entry 8): the completion step writes the command's results. -/

namespace Sys2Proof.Machine

/-- The stages of COMPRESS, in pipeline order (43_pipeline.md R140). -/
def forwardStages (sel : StageSet) : List Stage :=
  (if sel.bwt then [.bwtEnc] else []) ++ (if sel.mtf then [.mtfEnc] else []) ++ (if sel.rle then [.rleEnc] else [])

/-- The stages of DECOMPRESS, in the mirror order (R140). -/
def backwardStages (sel : StageSet) : List Stage :=
  (if sel.rle then [.rleDec] else []) ++ (if sel.mtf then [.mtfDec] else []) ++ (if sel.bwt then [.bwtDec] else [])

/-- The stages a command runs; nothing where one of its tests fails before any stage runs (60_exceptions.md R190), and
nothing for a unit of a stream, which is no command. -/
def State.plan (s : State) (i : Instr) : Option (List Stage) :=
  if s.inputTooLong then none
  else match i with
    | .bwtEnc => some [.bwtEnc]
    | .bwtDec => if s.status.pidxv then some [.bwtDec] else none
    | .mtfEnc => some [.mtfEnc]
    | .mtfDec => some [.mtfDec]
    | .rleEnc => some [.rleEnc]
    | .rleDec => some [.rleDec]
    | .pairEnc => if s.inst.pairPresent then some [.pairEnc] else none
    | .pairDec => if s.inst.pairPresent then some [.pairDec] else none
    | .compress => some (forwardStages StageSet.all)
    | .compressSub sel => some (forwardStages sel)
    | .decompress =>
      if s.status.stgv && (!s.stageSet.bwt || s.status.pidxv) then some (backwardStages s.stageSet) else none
    | .frameEmit => if s.mlen.toNat ≤ s.inputLength then some [.frameEmit] else none
    | .frameParse => some [.frameParse]
    | .rleLit _ => none
    | .rleEsc3 _ _ => none
    | .pairTok _ _ => none
    | .mtfCode _ => none
    | .frameHdr _ => none

/-- The working state the first of the stages starts with: both cursors 0 (R20), OFS filled and sorted (R16), T built and
the cursor at the primary index (R17), M the identity (R18, 41_mtf.md R110). With no stage to run the sequence passes
through (43_pipeline.md R141). -/
def Work.load (todo : List Stage) (src : List Byte) (p : Nat) : Work :=
  { Work.clear with
      todo := todo, src := src,
      dst := if todo = [] then src else [],
      op := if todo = [] then src.length else 0,
      ofs := if todo.head? = some .bwtEnc then rotationOrder src else [],
      tmap := if todo.head? = some .bwtDec then inverseMap src else [],
      cursor := if todo.head? = some .bwtDec then p else 0 }

/-- The running stage has read its whole input; the frame emitter has written its frame, and the frame parser has read
the header. -/
def Work.stageDone (w : Work) : Stage → Bool
  | .bwtEnc => decide (w.src.length ≤ w.ip)
  | .bwtDec => decide (w.src.length ≤ w.ip)
  | .mtfEnc => decide (w.src.length ≤ w.ip)
  | .mtfDec => decide (w.src.length ≤ w.ip)
  | .rleEnc => decide (w.src.length ≤ w.ip)
  | .rleDec => decide (w.src.length ≤ w.ip)
  | .pairEnc => decide (w.src.length ≤ w.ip)
  | .pairDec => decide (w.src.length ≤ w.ip)
  | .frameEmit => decide (w.dst ≠ [])
  | .frameParse => w.hdr.isSome

/-- The running stage hands its output to the next; after the last, none is left to run. -/
def Work.handOver (rest : List Stage) (p : Nat) (w : Work) : Work :=
  match rest with
  | [] => { w with todo := [] }
  | u :: us => Work.load (u :: us) w.dst p

/-- The command's stages end here: a test has failed, and nothing else of its rule is performed (R181). -/
def Work.abandon (w : Work) : Work := { w with todo := [] }

/-- One byte of the last column (40_bwt.md R99). -/
def Work.bwtEncStep (w : Work) : Work := w.emit 1 [precedingByte w.src (w.ofs.getD w.ip 0)]

/-- One step of the walk (40_bwt.md R96); an index outside the sequence is not walked (R186). -/
def Work.bwtDecStep (w : Work) : Work :=
  if w.cursor < w.src.length then
    { w.emit 1 [w.src.getD (w.tmap.getD w.cursor 0) 0#8] with cursor := w.tmap.getD w.cursor 0 }
  else w.abandon

/-- One step of the MTF encoder (41_mtf.md R111). -/
def Work.mtfEncStep (w : Work) : Work :=
  let k := mtfPosition w.mtf (w.src.getD w.ip 0#8)
  { w.emit 1 [BitVec.ofNat 8 k] with mtf := moveToFront w.mtf k }

/-- One run of an encoder: scanned into the run accumulator, emitted as its token, and stepped over (42_rle.md R120). -/
def Work.runStep (token : Run → Instr) (w : Work) : Work :=
  match runs (w.src.drop w.ip) with
  | [] => w.abandon
  | r :: _ => { w.emit r.length (encodeUnit (token r)) with run := r }

/-- The step of a stage that reads no unit of a stream at `ip`. The token stages come here where the stream holds no
unit: the unpaired last byte of a pair stream is a literal (42_rle.md R129); a frame's header that fails its tests ends
the parse. -/
def Work.stageStep (len : Word) (w : Work) : Stage → Work
  | .bwtEnc => w.bwtEncStep
  | .bwtDec => w.bwtDecStep
  | .mtfEnc => w.mtfEncStep
  | .mtfDec => w.abandon
  | .rleEnc => w.runStep rleToken
  | .rleDec => w.abandon
  | .pairEnc => w.runStep pairToken
  | .pairDec => w.emit 1 [w.src.getD w.ip 0#8]
  | .frameEmit => w.emit w.src.length (frameOf len w.src)
  | .frameParse => w.abandon

/-- One hidden step of the running stage. The output of the RLE inverse is tested against OCAP when it is complete, and
the stages after it are not run when it is too long (43_pipeline.md R147). -/
def State.hiddenStep (s : State) : State :=
  match s.work.todo with
  | [] => s
  | u :: rest =>
    if s.work.stageDone u then
      if u = .rleDec ∧ s.overflows s.work.dst = true then { s with work := s.work.abandon }
      else { s with work := s.work.handOver rest s.pidx.toNat }
    else { s with work := s.work.stageStep s.mlen u }

/-- The unit of a stream that a stage reads next from the bytes at `ip`, for the stages that decode a stream. -/
def Stage.unitAt (bs : List Byte) : Stage → Option Instr
  | .bwtEnc => none
  | .bwtDec => none
  | .mtfEnc => none
  | .mtfDec => (decodeMtf bs).toOption.map Prod.fst
  | .rleEnc => none
  | .rleDec => (decodeRle bs).toOption.map Prod.fst
  | .pairEnc => none
  | .pairDec => (decodePair bs).toOption.map Prod.fst
  | .frameEmit => none
  | .frameParse => (decodeFrame bs).toOption.map Prod.fst

/-- What the sequencer does on its turn. -/
inductive Fetched where
  /-- It runs this instruction: the latched command when no stage is left to run, or a unit of a stream. -/
  | instr (i : Instr)
  /-- The latched word is no command (30_encoding.md R62). -/
  | illegal
  /-- It takes a hidden step of the running stage. -/
  | hidden
deriving DecidableEq, Repr

/-- The next instruction: a unit of the running stage's stream at `ip`, or the command in CMD once every stage has run
(10_state.md R10, R20). -/
def State.fetch (s : State) : Fetched :=
  match s.work.todo with
  | [] =>
    match decodeCommand s.inst s.cmd with
    | .ok i => .instr i
    | .error _ => .illegal
  | u :: _ =>
    if s.work.stageDone u then .hidden
    else match u.unitAt (s.work.src.drop s.work.ip) with
      | some i => .instr i
      | none => .hidden

/-- The working state at the start of the command a word starts; none for a command whose first tests fail, and for an
illegal word, which never reads an operand (60_exceptions.md R182). -/
def State.startWork (s : State) (w : Word) : Work :=
  match decodeCommand s.inst w with
  | .ok i =>
    match s.plan i with
    | some stages => Work.load stages s.input s.pidx.toNat
    | none => Work.clear
  | .error _ => Work.clear

/-- The start step `reg_write(0x00, w)` with SEQ = IDLE (45_common.md R236). The operands are not copied: no host write
is performed while BUSY, so they stand until the completion step (log entry 7). -/
def State.startCommand (w : Word) (s : State) : State :=
  { s with cmd := w, status := s.status.start, seq := .busy, work := s.startWork w,
           busyLeft := Config.busyTime s.draws, draws := s.draws + 1 }

/-- The bits of an instruction, placed where the sequencer fetches next (log entry 11): a command word latched in CMD
with no busy time and no hidden stage left, or a stream that the stage of that width is about to read. -/
def State.placeInstr (nbits w : Nat) (s : State) : State :=
  if nbits = 32 then
    { s with cmd := BitVec.ofNat 32 w, status := s.status.start, seq := .busy, work := Work.clear, busyLeft := 0 }
  else
    { s with
        status := s.status.start, seq := .busy, busyLeft := 0,
        work := { Work.clear with
          todo := [match streamOfWidth nbits with
            | .rle => .rleDec
            | .pair => .pairDec
            | .mtf => .mtfDec
            | .frame => .frameParse],
          src := streamOfNumber (nbits / 8) w } }

end Sys2Proof.Machine
end

