-- ==== Sys2Proof/Machine/Bus.lean ====
section
/-! DEFINITION. The host's accesses (20_memory.md, 45_common.md R235): each is performed whole, in issue order. -/

namespace Sys2Proof.Machine

/-- Where an access stands in the host's address map (00_scope.md R6, 20_memory.md R48): its offset or index after the
base of its space. The reset input is no access to an address. No step of the block reads it: an access names its space
and the place in it (log entry 20). -/
def Access.hostAddress (q : Config.Placement) : Access → Option Nat
  | .regRead offset _ => some (q.base + offset)
  | .regWrite offset _ _ => some (q.base + offset)
  | .ibufRead index _ => some (q.ibufBase + index)
  | .ibufWrite index _ _ => some (q.ibufBase + index)
  | .obufRead index _ => some (q.obufBase + index)
  | .obufWrite index _ _ => some (q.obufBase + index)
  | .rst => none

/-- The same block and state with its spaces at other places of the host's address map (R48). -/
def State.place (q : Config.Placement) (s : State) : State := { s with inst := { s.inst with placement := q } }

/-- The value of a register at a byte offset; 0 at every reserved offset (10_state.md R11). -/
def State.regValue (s : State) (offset : Nat) : Word :=
  match offset with
  | 0x00 => s.cmd
  | 0x04 => s.status.word
  | 0x08 => s.stages
  | 0x0C => s.pidx
  | 0x10 => s.ilen
  | 0x14 => s.olen
  | 0x18 => s.mlen
  | 0x1C => s.poff
  | 0x20 => s.plen
  | _ => 0#32

/-- A register write with SEQ = IDLE (R235): CMD starts a command, STAGES stores `v[7:0]` and sets STGV, PIDX sets
PIDXV, ILEN and MLEN store the word; every other offset ignores it (10_state.md R11, R12, R13). -/
def State.writeReg (offset : Nat) (v : Word) (s : State) : State :=
  match offset with
  | 0x00 => s.startCommand v
  | 0x08 => { s with stages := (v.extractLsb' 0 8).zeroExtend 32 }.setStgv true
  | 0x0C => { s with pidx := v }.setPidxv true
  | 0x10 => { s with ilen := v }
  | 0x18 => { s with mlen := v }
  | _ => s

/-- The host receives the value it read (log entry 5). -/
def State.reply (r : Reply) (s : State) : State := { s with outbox := s.outbox ++ [r] }

/-- A read while BUSY of anything but STATUS returns an unspecified value, drawn for this read (20_memory.md R51). -/
def State.replyUnspecified (r : Reply) (s : State) : State := { s.reply r with draws := s.draws + 1 }

/-- A register read (R235): the value when IDLE; while BUSY only STATUS has one. -/
def State.readReg (offset : Nat) (s : State) : State :=
  match s.seq with
  | .idle => s.reply (.word (s.regValue offset))
  | .busy =>
    if offset = 0x04 then s.reply (.word s.status.word)
    else s.replyUnspecified (.word (Config.freeWord s.draws))

/-- A buffer read (R235): the byte when IDLE, an unspecified one while BUSY. -/
def State.readByte (index : Nat) (b : Byte) (s : State) : State :=
  match s.seq with
  | .idle => s.reply (.byte b)
  | .busy => s.replyUnspecified (.byte (Config.freeByte s.draws index))

/-- A write is performed when SEQ = IDLE and ignored while BUSY (20_memory.md R51). -/
def State.whenIdle (s : State) (written : State) : State :=
  match s.seq with
  | .idle => written
  | .busy => s

/-- A register access of this shape is part of the interface (20_memory.md R41), or the name of what is wrong with it. -/
def registerShape (offset width : Nat) : Option Refusal :=
  if width ≠ 32 then some .registerWidth
  else if offset % 4 ≠ 0 then some .registerAlignment
  else none

/-- One access of the host, or the reset input (R235). -/
def State.access (a : Access) (s : State) : Host.Outcome State Fault Refusal :=
  match a with
  | .regRead offset width =>
    match registerShape offset width with
    | some r => .refused r
    | none => .next (s.readReg offset)
  | .regWrite offset width v =>
    match registerShape offset width with
    | some r => .refused r
    | none => .next (s.whenIdle (s.writeReg offset v))
  | .ibufRead index width =>
    if width ≠ 8 then .refused .bufferWidth
    else if index < s.inst.icap then .next (s.readByte index (s.ibufByte index))
    else .fault .ibufIndexOutside
  | .ibufWrite index width b =>
    if width ≠ 8 then .refused .bufferWidth
    else if index < s.inst.icap then .next (s.whenIdle { s with ibuf := s.ibuf.set index b })
    else .fault .ibufIndexOutside
  | .obufRead index width =>
    if width ≠ 8 then .refused .bufferWidth
    else if index < s.inst.ocap then .next (s.readByte index (s.obufByte index))
    else .fault .obufIndexOutside
  | .obufWrite index width _ =>
    if width ≠ 8 then .refused .bufferWidth
    else if index < s.inst.ocap then .next s
    else .fault .obufIndexOutside
  | .rst => .next s.applyReset

/-- The host's turn: its oldest pending access is performed; with none pending the block's state stands. -/
def State.hostTurn (s : State) : Host.Outcome State Fault Refusal :=
  match s.inbox with
  | [] => .next s
  | a :: rest => { s with inbox := rest }.access a

end Sys2Proof.Machine
end

