-- ==== Sys2Proof/Machine/Dispatch.lean ====
section
/-! DEFINITION. The meaning of each instruction: for a command row the completion step of that command (45_common.md
R235), for a row of a data format the unit's effect on the stage that reads it. -/

namespace Sys2Proof.Machine

def exec (i : Instr) (s : State) : Host.Outcome State Fault Refusal :=
  match i with
  | .bwtEnc => Sys2Proof.Machine.execBwtEnc s
  | .bwtDec => Sys2Proof.Machine.execBwtDec s
  | .mtfEnc => Sys2Proof.Machine.execMtfEnc s
  | .mtfDec => Sys2Proof.Machine.execMtfDec s
  | .rleEnc => Sys2Proof.Machine.execRleEnc s
  | .rleDec => Sys2Proof.Machine.execRleDec s
  | .pairEnc => Sys2Proof.Machine.execPairEnc s
  | .pairDec => Sys2Proof.Machine.execPairDec s
  | .compress => Sys2Proof.Machine.execCompress s
  | .compressSub sel => Sys2Proof.Machine.execCompressSub sel s
  | .decompress => Sys2Proof.Machine.execDecompress s
  | .frameEmit => Sys2Proof.Machine.execFrameEmit s
  | .frameParse => Sys2Proof.Machine.execFrameParse s
  | .rleLit v => Sys2Proof.Machine.execRleLit v s
  | .rleEsc3 v c => Sys2Proof.Machine.execRleEsc3 v c s
  | .pairTok v c => Sys2Proof.Machine.execPairTok v c s
  | .mtfCode k => Sys2Proof.Machine.execMtfCode k s
  | .frameHdr len => Sys2Proof.Machine.execFrameHdr len s

end Sys2Proof.Machine
end

