-- ==== Sys2Proof/Machine/Turn.lean ====
section
/-! DEFINITION. Which agent moves next (10_state.md R10, 45_common.md R235). -/

namespace Sys2Proof.Machine

/-- The sequencer's turn: it runs the instruction it fetches, ends an illegal command (60_exceptions.md R182), or takes a
hidden step. -/
def State.sequencerTurn (s : State) : Host.Outcome State Fault Refusal :=
  match s.fetch with
  | .instr i => exec i s
  | .illegal => .next (s.raise .other .illegalCommand)
  | .hidden => .next s.hiddenStep

/-- One turn: the host's while SEQ is IDLE and for the busy time of a command, and the sequencer's after it (log entry
4). -/
def State.turn (s : State) : Host.Outcome State Fault Refusal :=
  match s.seq with
  | .idle => s.hostTurn
  | .busy =>
    match s.busyLeft with
    | 0 => s.sequencerTurn
    | k + 1 => { s with busyLeft := k }.hostTurn

end Sys2Proof.Machine
end

