-- ==== Sys2Proof/Machine/HostSide.lean ====
section
/-! DEFINITION. What the spec records of the host's side of the boundary: the host-script notation (30_encoding.md R85,
R86), the stage list as a word and back (R63), and the statistics function (43_pipeline.md R151, R152). None of it
changes the state of the block. JSON, UTF-8 and the metadata object are out of scope (00_scope.md R4). -/

namespace Sys2Proof.Machine

/-- A line of a host script (R85), and the pseudo-operations of R86. A register is named by its offset. The number of
times `WAIT` reads STATUS is not fixed by the spec, so it is an argument (log entry 23). -/
inductive HostLine where
  /-- `WR NAME, value`. -/
  | wr (offset : Nat) (v : Word)
  /-- `RD NAME`. -/
  | rd (offset : Nat)
  /-- `LDB i: b0 b1 ...`. -/
  | ldb (i : Nat) (bs : List Byte)
  /-- `RDB i, k`. -/
  | rdb (i k : Nat)
  /-- `RIB i, k`. -/
  | rib (i k : Nat)
  /-- `WAIT`, with the number of reads of STATUS it came to. -/
  | wait (reads : Nat)
  /-- `CALL word`. -/
  | call (w : Word) (reads : Nat)
  /-- `LOAD s`. -/
  | load (bs : List Byte)
  /-- `SETMETA stages, p`. -/
  | setMeta (stages p : Word)
  /-- `; text`. -/
  | comment (text : String)
deriving DecidableEq, Repr

/-- One IBUF byte write for each byte, from index `i` on (R85). -/
def loadBytes : Nat → List Byte → List Access
  | _, [] => []
  | i, b :: bs => .ibufWrite i 8 b :: loadBytes (i + 1) bs

/-- The bus accesses of a line, in order (R85, R86). -/
def HostLine.accesses : HostLine → List Access
  | .wr offset v => [.regWrite offset 32 v]
  | .rd offset => [.regRead offset 32]
  | .ldb i bs => loadBytes i bs
  | .rdb i k => (List.range k).map (fun j => .obufRead (i + j) 8)
  | .rib i k => (List.range k).map (fun j => .ibufRead (i + j) 8)
  | .wait reads => List.replicate reads (.regRead 0x04 32)
  | .call w reads => .regWrite 0x00 32 w :: List.replicate reads (.regRead 0x04 32)
  | .load bs => loadBytes 0 bs ++ [.regWrite 0x10 32 (BitVec.ofNat 32 bs.length)]
  | .setMeta stages p => [.regWrite 0x08 32 stages, .regWrite 0x0C 32 p]
  | .comment _ => []

/-- A name of the source's stage list (R63): a known stage, "none", or a name the block does not know, for which the
host may set one of the five UNK bits. -/
inductive StageName where
  | bwt
  | mtf
  | rle
  | none
  | unknown (unk : Option (Fin 5))
deriving DecidableEq, Repr

/-- The bits a name contributes to STAGES (R63, 10_state.md R12). -/
def StageName.bits : StageName → Word
  | .bwt => 0x01#32
  | .mtf => 0x02#32
  | .rle => 0x04#32
  | .none => 0x00#32
  | .unknown .none => 0x00#32
  | .unknown (.some k) => BitVec.ofNat 32 (2 ^ (3 + k.val))

/-- The word a host writes to STAGES for a stage list (R63). -/
def stageListWord (names : List StageName) : Word := names.foldr (fun n w => n.bits ||| w) 0#32

/-- The stage list a host writes for the word it read (R63): the names of the set bits in pipeline order, and ["none"]
for 0 when FB is 1. -/
def stageListOf (fb : Bool) (w : Word) : List StageName :=
  if w = 0#32 ∧ fb = true then [.none]
  else (if w.getLsbD 0 then [.bwt] else []) ++ (if w.getLsbD 1 then [.mtf] else [])
    ++ (if w.getLsbD 2 then [.rle] else [])

/-- The result of `getCompressionStats` (R152), in exact rationals. -/
structure CompressionStats where
  ratio : Rat
  reduction : Rat
  saved : Int
  effective : Bool
deriving DecidableEq, Repr

/-- The compression ratio, 1 when the original size is 0 (R151). -/
def compressionRatio (originalSize compressedSize : Nat) : Rat :=
  if originalSize = 0 then 1 else (compressedSize : Rat) / (originalSize : Rat)

/-- `getCompressionStats(originalSize, compressedSize)` (R152); `saved` for an empty original and a non-empty result is
a free value (log entry 19). -/
def compressionStats (originalSize compressedSize : Nat) : CompressionStats :=
  if originalSize = 0 then
    { ratio := compressionRatio originalSize compressedSize, reduction := 0,
      saved := if compressedSize = 0 then 0 else Config.freeSaved compressedSize, effective := false }
  else
    { ratio := compressionRatio originalSize compressedSize,
      reduction := (1 - compressionRatio originalSize compressedSize) * 100,
      saved := (originalSize : Int) - (compressedSize : Int), effective := decide (compressedSize < originalSize) }

end Sys2Proof.Machine
end

