-- ==== Sys2Proof/Safety.lean ====
section
/-! DEFINITION. The terms statements use: the invariant of the machine, what a command keeps, delivers and spoils, and
the function each stage computes. -/

namespace Sys2Proof.Machine

/-- The invariant: it holds at reset, every step keeps it, and it rules out the states no run reaches. -/
structure Inv (s : State) : Prop where
  /-- The capacities are as 00_scope.md R6 constrains them. -/
  inst_wf : s.inst.wf
  /-- SEQ equals STATUS.BUSY at all times (45_common.md R234). -/
  seq_busy : s.seq = .busy ↔ s.status.busy = true
  /-- While BUSY no outcome is shown (20_memory.md R51). -/
  busy_clear : s.status.busy = true →
    s.status.done = false ∧ s.status.err = false ∧ s.status.fb = false ∧ s.status.ecode = .none
  /-- ECODE is set exactly when ERR or FB is (10_state.md R21). -/
  code_set : s.status.ecode = .none ↔ s.status.err = false ∧ s.status.fb = false
  /-- A fallback is no error and carries the annotation 0x03 (43_pipeline.md R145). -/
  fallback_code : s.status.fb = true → s.status.err = false ∧ s.status.ecode = .outputOverflow
  /-- ParseFailed is never raised by the block (60_exceptions.md R188). -/
  never_parseFailed : s.status.ecode ≠ .parseFailed
  /-- STAGES bits 31:8 read 0 (10_state.md R12). -/
  stages_reserved : s.stages.toNat < 256
  /-- IBUF is in canonical form and lies inside its capacity (20_memory.md R40). -/
  ibuf_wf : Memory.wf s.ibuf ∧ ∀ c ∈ s.ibuf, c.1 < s.inst.icap
  /-- OBUF is in canonical form. -/
  obuf_wf : Memory.wf s.obuf
  /-- The known bytes of OBUF are exactly OBUF[0..OLEN) (10_state.md R14, 20_memory.md R47). -/
  obuf_known : ∀ i, (Memory.get? s.obuf i).isSome = decide (i < s.olen.toNat)
  /-- The output lies inside OBUF (R14). -/
  olen_le : s.olen.toNat ≤ s.inst.ocap
  /-- Nothing is carried from one command to the next but the registers and buffers (10_state.md R26). -/
  idle_clear : s.seq = .idle → s.work = Work.clear ∧ s.busyLeft = 0
  /-- M is a permutation of the byte values at every moment (10_state.md R18, 41_mtf.md R115). -/
  mtf_perm : s.work.mtf.Perm Config.mtfIdentity
  /-- The output cursor stands at the end of what the stage has written (10_state.md R20). -/
  op_end : s.work.op = s.work.dst.length
  /-- The draws of the buffers lie behind the next draw, so a draw made later is another one. -/
  draws_fresh : s.ibufDraw < s.draws ∧ s.obufDraw < s.draws ∧ s.ibufDraw ≠ s.obufDraw

/-- What no completion step changes: the parameters, CMD, ILEN, every byte of IBUF (20_memory.md R46), and the host's
side. -/
structure KeepsInputs (s t : State) : Prop where
  inst : t.inst = s.inst
  cmd : t.cmd = s.cmd
  ilen : t.ilen = s.ilen
  ibuf : ∀ i, t.ibufByte i = s.ibufByte i
  inbox : t.inbox = s.inbox
  outbox : t.outbox = s.outbox

/-- A completion step has ended the command: SEQ is IDLE and the working buffers are discarded (10_state.md R10, R26); the
value they are cleared to is the model's (log entry 8). -/
structure Ends (s t : State) : Prop extends KeepsInputs s t where
  seq : t.seq = .idle
  work : t.work = Work.clear

/-- The command has ended with the output sequence `bs` in OBUF[0..OLEN), every byte of OBUF after it is a draw made at
this step (20_memory.md R47), and the frame registers are as they were. -/
structure Delivers (s t : State) (bs : List Byte) : Prop extends Ends s t where
  olen : t.olen.toNat = bs.length
  output : t.output = bs
  beyond : ∀ i, bs.length ≤ i → t.obufByte i = Config.freeByte s.draws i
  mlen : t.mlen = s.mlen
  poff : t.poff = s.poff
  plen : t.plen = s.plen

/-- The command has ended in an error that leaves OLEN 0 and every byte of OBUF a draw made at this step; STAGES, PIDX
and the frame registers are as they were (60_exceptions.md R181). -/
structure Spoils (s t : State) : Prop extends Ends s t where
  olen : t.olen = 0#32
  obuf : ∀ i, t.obufByte i = Config.freeByte s.draws i
  stages : t.stages = s.stages
  pidx : t.pidx = s.pidx
  mlen : t.mlen = s.mlen
  poff : t.poff = s.poff
  plen : t.plen = s.plen

/-- OBUF and OLEN are untouched. -/
structure KeepsOutput (s t : State) : Prop where
  olen : t.olen = s.olen
  obuf : ∀ i, t.obufByte i = s.obufByte i

/-- Only the host's own side and the model's counters differ: nothing of the block has changed. -/
structure SameBlock (s t : State) : Prop where
  inst : t.inst = s.inst
  cmd : t.cmd = s.cmd
  status : t.status = s.status
  stages : t.stages = s.stages
  pidx : t.pidx = s.pidx
  ilen : t.ilen = s.ilen
  olen : t.olen = s.olen
  mlen : t.mlen = s.mlen
  poff : t.poff = s.poff
  plen : t.plen = s.plen
  seq : t.seq = s.seq
  work : t.work = s.work
  ibuf : ∀ i, t.ibufByte i = s.ibufByte i
  obuf : ∀ i, t.obufByte i = s.obufByte i

/-- The bytes a stage turns its input into: the function of its unit. `p` is the primary index and `len` the metadata
length it uses; the frame parser writes no bytes. -/
def Stage.apply (p : Nat) (len : Word) (bs : List Byte) : Stage → List Byte
  | .bwtEnc => (bwtEncode bs).1
  | .bwtDec => bwtDecode bs p
  | .mtfEnc => mtfEncode bs
  | .mtfDec => mtfDecode bs
  | .rleEnc => rleEncode bs
  | .rleDec => rleDecode bs
  | .pairEnc => pairEncode bs
  | .pairDec => pairDecode bs
  | .frameEmit => frameOf len bs
  | .frameParse => []

end Sys2Proof.Machine
end

