-- ==== Sys2Proof/Certificates/Slice0/Obligations.lean ====
section
/-! DEFINITION. The statements for the provers. Each docstring names the rule of spec/ it formalises. A byte that the
spec leaves unspecified is a free value: a statement that says a byte is `Config.freeByte d i` says only that it is the
draw numbered `d`, which can be any byte. -/

open Sys2Proof Sys2Proof.Machine

/-! ## Reset, registers and the bus -/

/-- 10_state.md R27: after reset every register is 0, SEQ is IDLE, and no byte of a buffer is known. The draw numbers
are the model's (log entry 2). -/
def Obligations.ResetLeavesEveryRegisterZero : Prop :=
  (∀ p : Config.Instance, ∀ offset, (State.resetOf p).regValue offset = 0#32) ∧
  (∀ p : Config.Instance, (State.resetOf p).seq = .idle ∧ (State.resetOf p).work = Work.clear ∧
    (State.resetOf p).ibuf = [] ∧ (State.resetOf p).obuf = []) ∧
  State.reset = State.resetOf Config.defaultInstance

/-- 70_reset_and_hazards.md R210: the reset input makes every register 0 and SEQ IDLE, abandons a running command, and
leaves both buffers unspecified, each by a draw of its own. The cleared value of the hidden working state, which R210
leaves unspecified, is the model's (log entry 8), and so are busyLeft = 0 (log entry 4) and that the instance and the
host's side stay (log entry 16). -/
def Obligations.ResetInputAbandonsTheCommand : Prop :=
  ∀ s : State, ∃ t, State.access .rst s = .next t ∧ (∀ offset, t.regValue offset = 0#32) ∧ t.seq = .idle ∧
    t.work = Work.clear ∧ t.busyLeft = 0 ∧
    (∀ i, t.ibufByte i = Config.freeByte s.draws i) ∧ (∀ i, t.obufByte i = Config.freeByte (s.draws + 1) i) ∧
    t.inst = s.inst ∧ t.inbox = s.inbox ∧ t.outbox = s.outbox

/-- 10_state.md R21, 60_exceptions.md R180: the places of the fields of STATUS, the bits that read 0, and the number of
each condition. -/
def Obligations.StatusWordHoldsItsFields : Prop :=
  (∀ f : Status, f.word.getLsbD 0 = f.busy ∧ f.word.getLsbD 1 = f.done ∧ f.word.getLsbD 2 = f.err ∧
    f.word.getLsbD 3 = f.fb ∧ f.word.getLsbD 4 = f.stgv ∧ f.word.getLsbD 5 = f.pidxv ∧
    f.word.extractLsb' 8 8 = f.ecode.code ∧ f.word.extractLsb' 6 2 = 0#2 ∧ f.word.extractLsb' 16 16 = 0#16) ∧
  ECode.code .none = 0x00#8 ∧ ECode.code .illegalCommand = 0x01#8 ∧ ECode.code .badLength = 0x02#8 ∧
  ECode.code .outputOverflow = 0x03#8 ∧ ECode.code .tooShort = 0x10#8 ∧ ECode.code .invalidFormat = 0x11#8 ∧
  ECode.code .truncatedLength = 0x12#8 ∧ ECode.code .truncatedBody = 0x13#8 ∧
  ECode.code .invalidMetadata = 0x20#8 ∧ ECode.code .missingPrimaryIndex = 0x21#8 ∧
  ECode.code .primaryIndexRange = 0x22#8 ∧ ECode.code .parseFailed = 0x23#8

/-- 45_common.md R235, row `reg_read`, and 10_state.md R11: with SEQ = IDLE a read returns the register's value, 0 from
0x24 on, and changes nothing of the block (20_memory.md R54). -/
def Obligations.IdleRegisterReadReturnsTheValue : Prop :=
  ∀ (s : State) (offset : Nat), s.seq = .idle → offset % 4 = 0 →
    ∃ v, State.access (.regRead offset 32) s = .next { s with outbox := s.outbox ++ [.word v] } ∧
      (offset = 0x00 → v = s.cmd) ∧ (offset = 0x04 → v = s.status.word) ∧ (offset = 0x08 → v = s.stages) ∧
      (offset = 0x0C → v = s.pidx) ∧ (offset = 0x10 → v = s.ilen) ∧ (offset = 0x14 → v = s.olen) ∧
      (offset = 0x18 → v = s.mlen) ∧ (offset = 0x1C → v = s.poff) ∧ (offset = 0x20 → v = s.plen) ∧
      (0x24 ≤ offset → v = 0#32)

/-- 45_common.md R235, row `reg_write`, with SEQ = IDLE: STAGES stores `v[7:0]` and sets STGV, PIDX sets PIDXV, ILEN and
MLEN store the word, and every other offset but CMD's is ignored. -/
def Obligations.IdleRegisterWriteStoresByOffset : Prop :=
  ∀ (s : State) (offset : Nat) (v : Word), s.seq = .idle → offset % 4 = 0 → offset ≠ 0x00 →
    State.access (.regWrite offset 32 v) s = .next
      (if offset = 0x08 then
        { s with stages := BitVec.ofNat 32 (v.toNat % 256), status := { s.status with stgv := true } }
       else if offset = 0x0C then { s with pidx := v, status := { s.status with pidxv := true } }
       else if offset = 0x10 then { s with ilen := v }
       else if offset = 0x18 then { s with mlen := v }
       else s)

/-- 45_common.md R236: the start step stores the word in CMD, sets BUSY, clears DONE, ERR, FB and ECODE, and leaves STGV,
PIDXV, every other register and both buffers as they were. The operands it captures are the registers and IBUF as they
stand (log entry 7); the hidden working state is the stages' (log entry 8). -/
def Obligations.CommandWriteStartsTheCommand : Prop :=
  ∀ (s : State) (w : Word), s.seq = .idle → ∃ t, State.access (.regWrite 0x00 32 w) s = .next t ∧
    t.cmd = w ∧ t.seq = .busy ∧
    t.status = { s.status with busy := true, done := false, err := false, fb := false, ecode := .none } ∧
    t.stages = s.stages ∧ t.pidx = s.pidx ∧ t.ilen = s.ilen ∧ t.olen = s.olen ∧ t.mlen = s.mlen ∧
    t.poff = s.poff ∧ t.plen = s.plen ∧ (∀ i, t.ibufByte i = s.ibufByte i) ∧ (∀ i, t.obufByte i = s.obufByte i) ∧
    t.inst = s.inst ∧ t.inbox = s.inbox ∧ t.outbox = s.outbox

/-- 20_memory.md R51: while BUSY every write of the interface's shape is ignored, and no access of the host but the reset
input changes anything of the block; only the host's own side and the model's counters move. -/
def Obligations.BusyAccessChangesNothingOfTheBlock : Prop :=
  (∀ s : State, s.seq = .busy →
    (∀ offset v, offset % 4 = 0 → State.access (.regWrite offset 32 v) s = .next s) ∧
    (∀ i b, i < s.inst.icap → State.access (.ibufWrite i 8 b) s = .next s) ∧
    (∀ i b, i < s.inst.ocap → State.access (.obufWrite i 8 b) s = .next s)) ∧
  ∀ (s t : State) (a : Access), s.seq = .busy → a ≠ .rst → State.access a s = .next t →
    SameBlock s t ∧ t.busyLeft = s.busyLeft ∧ t.inbox = s.inbox

/-- 20_memory.md R51: while BUSY a read of STATUS returns BUSY = 1, DONE, ERR and FB 0, ECODE 0 and the two valid bits;
a read of any other register returns a free value. -/
def Obligations.BusyStatusReadShowsNoOutcome : Prop :=
  ∀ s : State, Inv s → s.seq = .busy →
    (∃ v, State.access (.regRead 0x04 32) s = .next { s with outbox := s.outbox ++ [.word v] } ∧
      v = BitVec.ofNat 32 (1 + 16 * s.status.stgv.toNat + 32 * s.status.pidxv.toNat)) ∧
    (∀ offset, offset % 4 = 0 → offset ≠ 0x04 → State.access (.regRead offset 32) s =
      .next { s with outbox := s.outbox ++ [.word (Config.freeWord s.draws)], draws := s.draws + 1 })

/-- 20_memory.md R41, R42 and 93 U12: an access of another shape or outside a space has no next state. The names of the
stops are the model's (log entry 6). -/
def Obligations.BadAccessHasNoStep : Prop :=
  ∀ s : State,
    (∀ offset width, width ≠ 32 → State.access (.regRead offset width) s = .refused .registerWidth ∧
      ∀ v, State.access (.regWrite offset width v) s = .refused .registerWidth) ∧
    (∀ offset, offset % 4 ≠ 0 → State.access (.regRead offset 32) s = .refused .registerAlignment ∧
      ∀ v, State.access (.regWrite offset 32 v) s = .refused .registerAlignment) ∧
    (∀ i, s.inst.icap ≤ i → State.access (.ibufRead i 8) s = .fault .ibufIndexOutside ∧
      ∀ b, State.access (.ibufWrite i 8 b) s = .fault .ibufIndexOutside) ∧
    (∀ i, s.inst.ocap ≤ i → State.access (.obufRead i 8) s = .fault .obufIndexOutside ∧
      ∀ b, State.access (.obufWrite i 8 b) s = .fault .obufIndexOutside) ∧
    (∀ i width b, width ≠ 8 → State.access (.ibufRead i width) s = .refused .bufferWidth ∧
      State.access (.ibufWrite i width b) s = .refused .bufferWidth ∧
      State.access (.obufRead i width) s = .refused .bufferWidth ∧
      State.access (.obufWrite i width b) s = .refused .bufferWidth)

/-- 20_memory.md R42, R45 and 45_common.md R235: with SEQ = IDLE a write of IBUF is read back at its index and leaves
every other byte alone; a read returns the byte; a write of OBUF is ignored. -/
def Obligations.IdleBufferAccessMovesOneByte : Prop :=
  ∀ s : State, s.seq = .idle →
    (∀ i b, i < s.inst.icap → ∃ t, State.access (.ibufWrite i 8 b) s = .next t ∧ t.ibufByte i = b ∧
      (∀ j, j ≠ i → t.ibufByte j = s.ibufByte j) ∧ t = { s with ibuf := t.ibuf }) ∧
    (∀ i, i < s.inst.icap → State.access (.ibufRead i 8) s =
      .next { s with outbox := s.outbox ++ [.byte (s.ibufByte i)] }) ∧
    (∀ i, i < s.inst.ocap → State.access (.obufRead i 8) s =
      .next { s with outbox := s.outbox ++ [.byte (s.obufByte i)] }) ∧
    (∀ i b, i < s.inst.ocap → State.access (.obufWrite i 8 b) s = .next s)

/-- 60_exceptions.md R193: ERR, FB and ECODE stay as they are at every access but the reset input and the CMD write that
starts a command. -/
def Obligations.OutcomeStaysUntilTheNextStart : Prop :=
  ∀ (s t : State) (a : Access), State.access a s = .next t → a ≠ .rst →
    (∀ width w, a = .regWrite 0x00 width w → s.seq = .busy) →
    t.status.err = s.status.err ∧ t.status.fb = s.status.fb ∧ t.status.ecode = s.status.ecode ∧
    t.status.done = s.status.done ∧ t.status.busy = s.status.busy

/-! ## Encodings -/

/-- 30_encoding.md R61, R62, R70 to R78: words and bytes written out from the encodings decode to what they stand
for. -/
def Obligations.WrittenOutWordsDecode : Prop :=
  let p := Config.defaultInstance
  decodeCommand p 0x00000001#32 = .ok .bwtEnc ∧ decodeCommand p 0x00000006#32 = .ok .rleDec ∧
  decodeCommand p 0x00000009#32 = .ok .compress ∧
  decodeCommand p 0x00000B09#32 = .ok (.compressSub { bwt := true, mtf := false, rle := true }) ∧
  decodeCommand p 0x0000000C#32 = .ok .frameParse ∧
  decodeCommand p 0x00000E09#32 = .error .subsetWithoutSub ∧
  decodeCommand p 0x00001009#32 = .error .reservedBits ∧
  decodeStream p .rle [0xFF#8, 0x41#8, 0x02#8] = .ok (.rleEsc3 0x41#8 0x02#8, []) ∧
  decodeStream p .pair [0x41#8, 0x03#8] = .ok (.pairTok 0x41#8 0x03#8, []) ∧
  decodeStream p .frame [0x42#8, 0x57#8, 0x54#8, 0x4A#8, 0x53#8, 0x31#8, 0x00#8, 0x00#8, 0x00#8, 0x00#8, 0x1A#8] =
    .ok (.frameHdr 26#32, [])

/-- 30_encoding.md R62: which command words are illegal, and that an illegal word in CMD does nothing but end with
IllegalCommand. The place of the sequencer's turn is the model's (log entry 4). -/
def Obligations.IllegalCommandWords : Prop :=
  (∀ (s : State) (e : Reject), s.seq = .busy → s.busyLeft = 0 → s.work.todo = [] →
    decodeCommand s.inst s.cmd = .error e → step s = .next (s.raise .other .illegalCommand)) ∧
  ∀ (p : Config.Instance) (w : Word), (∃ e, decodeCommand p w = .error e) ↔
    ((w.extractLsb' 0 8).toNat = 0x00 ∨ 0x0D ≤ (w.extractLsb' 0 8).toNat) ∨
    (((w.extractLsb' 0 8).toNat = 0x07 ∨ (w.extractLsb' 0 8).toNat = 0x08) ∧ p.pairPresent = false) ∨
    (∃ i, 12 ≤ i ∧ i < 32 ∧ w.getLsbD i = true) ∨
    ((w.extractLsb' 0 8).toNat ≠ 0x09 ∧ ∃ i, 8 ≤ i ∧ i < 12 ∧ w.getLsbD i = true) ∨
    ((w.extractLsb' 0 8).toNat = 0x09 ∧ w.getLsbD 8 = false ∧ ∃ i, 9 ≤ i ∧ i < 12 ∧ w.getLsbD i = true)

/-- 30_encoding.md section 1b: no word selects two rows of the table, and a word is a command iff it selects one. -/
def Obligations.CommandRowsAreDisjointAndComplete : Prop :=
  ∀ (p : Config.Instance) (w : Word), (commandRows.filter (fun r => r.selectedBy p w)).length ≤ 1 ∧
    ((∃ i, decodeCommand p w = .ok i) ↔ ∃ r ∈ commandRows, r.selectedBy p w = true)

/-- 30_encoding.md R60 to R62: a word decodes to a command exactly when the command exists on the instance and is encoded
as that word. -/
def Obligations.CommandDecodeInvertsEncode : Prop :=
  ∀ (p : Config.Instance) (w : Word) (i : Instr),
    decodeCommand p w = .ok i ↔ i.wf p = true ∧ i.stream = none ∧ encode i = .word w

/-- 30_encoding.md R70 to R78: bytes decode to a unit of a stream, with some bytes after it, exactly when they are the
unit's encoding followed by those bytes and the unit may stand there. -/
def Obligations.StreamDecodeInvertsEncode : Prop :=
  ∀ (p : Config.Instance) (st : Stream) (bs rest : List Byte) (i : Instr),
    decodeStream p st bs = .ok (i, rest) ↔
      i.wf p = true ∧ i.stream = some st ∧ i.mayPrecede rest = true ∧ bs = encodeUnit i ++ rest

/-! ## The sequencer -/

/-- 10_state.md R10, R20: on the sequencer's turn a step runs the command latched in CMD when no stage is left to run,
and otherwise the unit of the running stage's stream at `ip`. The place of the sequencer's turn is the model's (log
entry 4). -/
def Obligations.StepRunsTheDecodedInstruction : Prop :=
  ∀ (s : State) (i : Instr), s.seq = .busy → s.busyLeft = 0 →
    (s.work.todo = [] → decodeCommand s.inst s.cmd = .ok i → step s = exec i s) ∧
    (∀ us rest, s.work.todo = .rleDec :: us → s.work.ip < s.work.src.length →
      decodeStream s.inst .rle (s.work.src.drop s.work.ip) = .ok (i, rest) → step s = exec i s) ∧
    (∀ us rest, s.work.todo = .pairDec :: us → s.work.ip < s.work.src.length →
      decodeStream s.inst .pair (s.work.src.drop s.work.ip) = .ok (i, rest) → step s = exec i s) ∧
    (∀ us rest, s.work.todo = .mtfDec :: us → s.work.ip < s.work.src.length →
      decodeStream s.inst .mtf (s.work.src.drop s.work.ip) = .ok (i, rest) → step s = exec i s) ∧
    (∀ us rest, s.work.todo = .frameParse :: us → s.work.hdr = none →
      decodeStream s.inst .frame (s.work.src.drop s.work.ip) = .ok (i, rest) → step s = exec i s)

/-- 45_common.md R235: while SEQ is IDLE, and for the busy time of a command, a step performs the host's oldest pending
access, and stands still where none is pending. The queue and the busy time are the model's (log entries 4, 5). -/
def Obligations.HostTurnPerformsTheOldestAccess : Prop :=
  ∀ s : State,
    (s.seq = .idle → s.inbox = [] → step s = .next s) ∧
    (∀ a as, s.seq = .idle → s.inbox = a :: as → step s = State.access a { s with inbox := as }) ∧
    (∀ k, s.seq = .busy → s.busyLeft = k + 1 → s.inbox = [] → step s = .next { s with busyLeft := k }) ∧
    (∀ k a as, s.seq = .busy → s.busyLeft = k + 1 → s.inbox = a :: as →
      step s = State.access a { s with busyLeft := k, inbox := as })

/-- 60_exceptions.md R182, R181: an illegal word ends with IllegalCommand, and the registers, both buffers and the valid
bits are as they were. -/
def Obligations.IllegalWordEndsWithIllegalCommand : Prop :=
  ∀ (s : State) (e : Reject), s.seq = .busy → s.busyLeft = 0 → s.work.todo = [] →
    decodeCommand s.inst s.cmd = .error e →
    ∃ t, step s = .next t ∧ Ends s t ∧ KeepsOutput s t ∧
      t.status = { s.status with done := true, busy := false, err := true, fb := false, ecode := .illegalCommand } ∧
      t.stages = s.stages ∧ t.pidx = s.pidx ∧ t.mlen = s.mlen ∧ t.poff = s.poff ∧ t.plen = s.plen

/-- 60_exceptions.md R181: the error completion, for each of its lines: the STATUS it leaves, the valid bits it consumes,
the registers it zeroes, and that everything else keeps its value. -/
def Obligations.ErrorCompletionChangesOnlyItsFields : Prop :=
  ∀ (s : State) (k : ErrorLine) (c : ECode), Ends s (s.raise k c) ∧
    (s.raise k c).stages = s.stages ∧ (s.raise k c).pidx = s.pidx ∧ (s.raise k c).mlen = s.mlen ∧
    (s.raise k c).status = { s.status with
      err := true, ecode := c, fb := false, done := true, busy := false,
      pidxv := s.status.pidxv && decide (k ≠ .bwtDec ∧ k ≠ .decompress),
      stgv := s.status.stgv && decide (k ≠ .decompress) } ∧
    (k = .frameParse → (s.raise k c).poff = 0#32 ∧ (s.raise k c).plen = 0#32 ∧ KeepsOutput s (s.raise k c)) ∧
    (k ≠ .frameParse → (s.raise k c).poff = s.poff ∧ (s.raise k c).plen = s.plen) ∧
    (k ≠ .frameParse → c ≠ .illegalCommand →
      (s.raise k c).olen = 0#32 ∧ ∀ i, (s.raise k c).obufByte i = Config.freeByte s.draws i) ∧
    (k ≠ .frameParse → c = .illegalCommand → KeepsOutput s (s.raise k c))

/-- 60_exceptions.md R183: every command that exists on the instance ends with BadLength when ILEN > ICAP, before any
other test, and FRAME_EMIT when MLEN > ILEN. -/
def Obligations.EveryCommandTestsItsLengthFirst : Prop :=
  (∀ s : State, s.inputLength < s.mlen.toNat →
    ∃ t, exec .frameEmit s = .next t ∧ Spoils s t ∧ t.status.err = true ∧ t.status.ecode = .badLength) ∧
  ∀ (s : State) (i : Instr), i.stream = none → i.wf s.inst = true → s.inst.icap < s.inputLength →
    ∃ t, exec i s = .next t ∧ Ends s t ∧ t.status.err = true ∧ t.status.ecode = .badLength ∧ t.status.done = true ∧
      t.status.busy = false ∧ t.stages = s.stages ∧ t.pidx = s.pidx ∧ t.mlen = s.mlen ∧
      (i = .frameParse → t.poff = 0#32 ∧ t.plen = 0#32 ∧ KeepsOutput s t) ∧
      (i ≠ .frameParse → t.poff = s.poff ∧ t.plen = s.plen ∧ t.olen = 0#32)

/-- 10_state.md R11, column "block writes it", and 20_memory.md R46: what each instruction leaves alone, whatever its
outcome. -/
def Obligations.InstructionsWriteOnlyTheirRegisters : Prop :=
  ∀ (s t : State) (i : Instr), exec i s = .next t →
    KeepsInputs s t ∧
    (i ≠ .compress → (∀ sel, i ≠ .compressSub sel) → t.stages = s.stages) ∧
    (i ≠ .compress → (∀ sel, i ≠ .compressSub sel) → i ≠ .bwtEnc → t.pidx = s.pidx) ∧
    (i ≠ .frameParse → t.mlen = s.mlen ∧ t.poff = s.poff ∧ t.plen = s.plen) ∧
    (i = .frameParse → KeepsOutput s t) ∧
    (i.stream ≠ none → KeepsOutput s t ∧ t.status = s.status ∧ t.seq = s.seq) ∧
    (i.stream = none → t.seq = .idle ∧ t.status.done = true ∧ t.status.busy = false)

/-- 70_reset_and_hazards.md R221 and 45_common.md R231: every command completes. From a BUSY state whose pending accesses
all have a step, the machine comes to IDLE in finitely many steps. -/
def Obligations.EveryCommandCompletes : Prop :=
  ∀ s : State, s.seq = .busy →
    (∀ a ∈ s.inbox, ∀ t : State, t.inst = s.inst → ∃ u, State.access a t = .next u) →
    ∃ k t, Sys2Proof.core.run k s = .next t ∧ t.seq = .idle

/-- 10_state.md R26, R16 to R20 with the rules of the units: on the sequencer's turns alone, the stages of a started
command turn its input into exactly the sequence its completion writes to OBUF; until then the registers and buffers do
not change. The hidden steps are the model's (log entry 8). -/
def Obligations.StagesComputeTheResult : Prop :=
  ∀ (s u : State) (i : Instr), s.inst.wf → s.seq = .busy → s.busyLeft = 0 → decodeCommand s.inst s.cmd = .ok i →
    i ≠ .frameParse → s.work = s.startWork s.cmd → s.status.err = false → s.status.fb = false →
    exec i s = .next u → u.status.err = false → u.status.fb = false →
    ∃ k t, Sys2Proof.core.run k s = .next t ∧ t = { s with work := t.work } ∧ t.work.todo = [] ∧ t.work.dst = u.output

/-! ## The commands -/

/-- 40_bwt.md R94: BWT_ENC. -/
def Obligations.BwtEncWritesColumnAndIndex : Prop :=
  (∀ p, decodeCommand p 0x00000001#32 = .ok .bwtEnc) ∧
  ∀ s : State, s.inst.wf →
    (s.inst.icap < s.inputLength → ∃ t, exec .bwtEnc s = .next t ∧ Spoils s t ∧
      t.status = { s.status with done := true, busy := false, err := true, fb := false, ecode := .badLength }) ∧
    (s.inputLength ≤ s.inst.icap → ∃ t, exec .bwtEnc s = .next t ∧ Delivers s t (bwtEncode s.input).1 ∧
      t.olen = s.ilen ∧ t.pidx = BitVec.ofNat 32 (bwtEncode s.input).2 ∧ t.stages = s.stages ∧
      t.status = { s.status with done := true, busy := false, pidxv := true })

/-- 40_bwt.md R97: BWT_DEC, its tests in their order; PIDXV is consumed in every case. -/
def Obligations.BwtDecInvertsOrReports : Prop :=
  (∀ p, decodeCommand p 0x00000002#32 = .ok .bwtDec) ∧
  ∀ s : State, s.inst.wf →
    (s.inst.icap < s.inputLength → ∃ t, exec .bwtDec s = .next t ∧ Spoils s t ∧ t.status = { s.status with
      done := true, busy := false, err := true, fb := false, pidxv := false, ecode := .badLength }) ∧
    (s.inputLength ≤ s.inst.icap → s.status.pidxv = false →
      ∃ t, exec .bwtDec s = .next t ∧ Spoils s t ∧ t.status = { s.status with
        done := true, busy := false, err := true, fb := false, pidxv := false, ecode := .missingPrimaryIndex }) ∧
    (s.inputLength ≤ s.inst.icap → s.status.pidxv = true → 0 < s.inputLength → s.inputLength ≤ s.pidx.toNat →
      ∃ t, exec .bwtDec s = .next t ∧ Spoils s t ∧ t.status = { s.status with
        done := true, busy := false, err := true, fb := false, pidxv := false, ecode := .primaryIndexRange }) ∧
    (s.inputLength ≤ s.inst.icap → s.status.pidxv = true → (s.inputLength = 0 ∨ s.pidx.toNat < s.inputLength) →
      ∃ t, exec .bwtDec s = .next t ∧ Delivers s t (bwtDecode s.input s.pidx.toNat) ∧ t.olen = s.ilen ∧
        t.stages = s.stages ∧ t.pidx = s.pidx ∧
        t.status = { s.status with done := true, busy := false, pidxv := false })

/-- 41_mtf.md R113: MTF_ENC. -/
def Obligations.MtfEncWritesPositions : Prop :=
  (∀ p, decodeCommand p 0x00000003#32 = .ok .mtfEnc) ∧
  ∀ s : State, s.inst.wf →
    (s.inst.icap < s.inputLength → ∃ t, exec .mtfEnc s = .next t ∧ Spoils s t ∧
      t.status = { s.status with done := true, busy := false, err := true, fb := false, ecode := .badLength }) ∧
    (s.inputLength ≤ s.inst.icap → ∃ t, exec .mtfEnc s = .next t ∧
      Delivers s t (mtfEncodeFrom Config.mtfIdentity s.input) ∧ t.olen = s.ilen ∧ t.stages = s.stages ∧
      t.pidx = s.pidx ∧ t.status = { s.status with done := true, busy := false })

/-- 41_mtf.md R114: MTF_DEC. -/
def Obligations.MtfDecWritesValues : Prop :=
  (∀ p, decodeCommand p 0x00000004#32 = .ok .mtfDec) ∧
  ∀ s : State, s.inst.wf →
    (s.inst.icap < s.inputLength → ∃ t, exec .mtfDec s = .next t ∧ Spoils s t ∧
      t.status = { s.status with done := true, busy := false, err := true, fb := false, ecode := .badLength }) ∧
    (s.inputLength ≤ s.inst.icap → ∃ t, exec .mtfDec s = .next t ∧
      Delivers s t (mtfDecodeFrom Config.mtfIdentity s.input) ∧ t.olen = s.ilen ∧ t.stages = s.stages ∧
      t.pidx = s.pidx ∧ t.status = { s.status with done := true, busy := false })

/-- 42_rle.md R122: RLE_ENC. -/
def Obligations.RleEncWritesTokensOrReports : Prop :=
  (∀ p, decodeCommand p 0x00000005#32 = .ok .rleEnc) ∧
  ∀ s : State, s.inst.wf →
    (s.inst.icap < s.inputLength → ∃ t, exec .rleEnc s = .next t ∧ Spoils s t ∧
      t.status = { s.status with done := true, busy := false, err := true, fb := false, ecode := .badLength }) ∧
    (s.inputLength ≤ s.inst.icap → s.inst.ocap < (rleEncode s.input).length →
      ∃ t, exec .rleEnc s = .next t ∧ Spoils s t ∧
        t.status = { s.status with done := true, busy := false, err := true, fb := false, ecode := .outputOverflow }) ∧
    (s.inputLength ≤ s.inst.icap → (rleEncode s.input).length ≤ s.inst.ocap →
      ∃ t, exec .rleEnc s = .next t ∧ Delivers s t (rleEncode s.input) ∧ t.stages = s.stages ∧ t.pidx = s.pidx ∧
        t.status = { s.status with done := true, busy := false })

/-- 42_rle.md R124: RLE_DEC. -/
def Obligations.RleDecExpandsOrReports : Prop :=
  (∀ p, decodeCommand p 0x00000006#32 = .ok .rleDec) ∧
  ∀ s : State, s.inst.wf →
    (s.inst.icap < s.inputLength → ∃ t, exec .rleDec s = .next t ∧ Spoils s t ∧
      t.status = { s.status with done := true, busy := false, err := true, fb := false, ecode := .badLength }) ∧
    (s.inputLength ≤ s.inst.icap → s.inst.ocap < (rleDecode s.input).length →
      ∃ t, exec .rleDec s = .next t ∧ Spoils s t ∧
        t.status = { s.status with done := true, busy := false, err := true, fb := false, ecode := .outputOverflow }) ∧
    (s.inputLength ≤ s.inst.icap → (rleDecode s.input).length ≤ s.inst.ocap →
      ∃ t, exec .rleDec s = .next t ∧ Delivers s t (rleDecode s.input) ∧ t.stages = s.stages ∧ t.pidx = s.pidx ∧
        t.status = { s.status with done := true, busy := false })

/-- 42_rle.md R128: PAIR_ENC: the run scanning of R120 with two bytes for each run, IllegalCommand first when the
variant is absent. -/
def Obligations.PairEncWritesPairsOrReports : Prop :=
  (∀ p : Config.Instance, p.pairPresent = true → decodeCommand p 0x00000007#32 = .ok .pairEnc) ∧
  (∀ x, pairEncode x = (runs x).flatMap (fun r => [r.value, BitVec.ofNat 8 r.length])) ∧
  (∀ x, (pairEncode x).length ≤ 2 * x.length) ∧
  ∀ s : State, s.inst.wf →
    (s.inst.pairPresent = false → ∃ t, exec .pairEnc s = .next t ∧ Ends s t ∧ KeepsOutput s t ∧
      t.stages = s.stages ∧ t.pidx = s.pidx ∧ t.mlen = s.mlen ∧ t.poff = s.poff ∧ t.plen = s.plen ∧
      t.status = { s.status with done := true, busy := false, err := true, fb := false, ecode := .illegalCommand }) ∧
    (s.inst.pairPresent = true → s.inst.icap < s.inputLength → ∃ t, exec .pairEnc s = .next t ∧ Spoils s t ∧
      t.status = { s.status with done := true, busy := false, err := true, fb := false, ecode := .badLength }) ∧
    (s.inst.pairPresent = true → s.inputLength ≤ s.inst.icap → s.inst.ocap < (pairEncode s.input).length →
      ∃ t, exec .pairEnc s = .next t ∧ Spoils s t ∧
        t.status = { s.status with done := true, busy := false, err := true, fb := false, ecode := .outputOverflow }) ∧
    (s.inst.pairPresent = true → s.inputLength ≤ s.inst.icap → (pairEncode s.input).length ≤ s.inst.ocap →
      ∃ t, exec .pairEnc s = .next t ∧ Delivers s t (pairEncode s.input) ∧ t.stages = s.stages ∧ t.pidx = s.pidx ∧
        t.status = { s.status with done := true, busy := false })

/-- 42_rle.md R129: PAIR_DEC, its loop and its law, IllegalCommand first when the variant is absent. -/
def Obligations.PairDecExpandsOrReports : Prop :=
  (∀ p : Config.Instance, p.pairPresent = true → decodeCommand p 0x00000008#32 = .ok .pairDec) ∧
  (∀ (v c : Byte) (rest : List Byte), pairDecode (v :: c :: rest) = List.replicate c.toNat v ++ pairDecode rest) ∧
  (∀ v : Byte, pairDecode [v] = [v]) ∧ pairDecode [] = [] ∧ (∀ x, pairDecode (pairEncode x) = x) ∧
  ∀ s : State, s.inst.wf →
    (s.inst.pairPresent = false → ∃ t, exec .pairDec s = .next t ∧ Ends s t ∧ KeepsOutput s t ∧
      t.stages = s.stages ∧ t.pidx = s.pidx ∧ t.mlen = s.mlen ∧ t.poff = s.poff ∧ t.plen = s.plen ∧
      t.status = { s.status with done := true, busy := false, err := true, fb := false, ecode := .illegalCommand }) ∧
    (s.inst.pairPresent = true → s.inst.icap < s.inputLength → ∃ t, exec .pairDec s = .next t ∧ Spoils s t ∧
      t.status = { s.status with done := true, busy := false, err := true, fb := false, ecode := .badLength }) ∧
    (s.inst.pairPresent = true → s.inputLength ≤ s.inst.icap → s.inst.ocap < (pairDecode s.input).length →
      ∃ t, exec .pairDec s = .next t ∧ Spoils s t ∧
        t.status = { s.status with done := true, busy := false, err := true, fb := false, ecode := .outputOverflow }) ∧
    (s.inst.pairPresent = true → s.inputLength ≤ s.inst.icap → (pairDecode s.input).length ≤ s.inst.ocap →
      ∃ t, exec .pairDec s = .next t ∧ Delivers s t (pairDecode s.input) ∧ t.stages = s.stages ∧ t.pidx = s.pidx ∧
        t.status = { s.status with done := true, busy := false })

/-- 43_pipeline.md R142, R141, R145: COMPRESS in both forms. `sel` is the selected set, `z` what its stages make of the
input in pipeline order. -/
def Obligations.CompressWritesPayloadAndMetadata : Prop :=
  (∀ p, decodeCommand p 0x00000009#32 = .ok .compress) ∧
  (∀ (p : Config.Instance) (a b c : Bool),
    decodeCommand p (BitVec.ofNat 32 (0x109 + a.toNat * 2 ^ 9 + b.toNat * 2 ^ 10 + c.toNat * 2 ^ 11)) =
      .ok (.compressSub { bwt := a, mtf := b, rle := c })) ∧
  ∀ (s : State) (i : Instr) (sel : StageSet), s.inst.wf →
    (i = .compress ∧ sel = { bwt := true, mtf := true, rle := true } ∨ i = .compressSub sel) →
    let x := if sel.bwt then (bwtEncode s.input).1 else s.input
    let y := if sel.mtf then mtfEncode x else x
    let z := if sel.rle then rleEncode y else y
    (s.inst.icap < s.inputLength → ∃ t, exec i s = .next t ∧ Spoils s t ∧
      t.status = { s.status with done := true, busy := false, err := true, fb := false, ecode := .badLength }) ∧
    (s.inputLength ≤ s.inst.icap → s.inst.ocap < z.length → ∃ t, exec i s = .next t ∧ Delivers s t s.input ∧
      t.stages = 0#32 ∧ t.pidx = 0#32 ∧ t.status = { s.status with
        done := true, busy := false, fb := true, stgv := true, pidxv := false, ecode := .outputOverflow }) ∧
    (s.inputLength ≤ s.inst.icap → z.length ≤ s.inst.ocap → ∃ t, exec i s = .next t ∧ Delivers s t z ∧
      t.stages = BitVec.ofNat 32 (sel.bwt.toNat + 2 * sel.mtf.toNat + 4 * sel.rle.toNat) ∧
      t.pidx = (if sel.bwt then BitVec.ofNat 32 (bwtEncode s.input).2 else 0#32) ∧
      t.status = { s.status with done := true, busy := false, stgv := true, pidxv := sel.bwt })

/-- 43_pipeline.md R147, R146: DECOMPRESS, its tests in their order; STGV and PIDXV are consumed in every case. `z` is
what the RLE inverse makes of the payload, `y` what the MTF inverse makes of that. -/
def Obligations.DecompressRestoresOrReports : Prop :=
  (∀ p, decodeCommand p 0x0000000A#32 = .ok .decompress) ∧
  ∀ s : State, s.inst.wf →
    let bwt := s.stages.getLsbD 0
    let z := if s.stages.getLsbD 2 then rleDecode s.input else s.input
    let y := if s.stages.getLsbD 1 then mtfDecode z else z
    let p := s.pidx.toNat
    let failed := fun c : ECode => { s.status with
      done := true, busy := false, err := true, fb := false, stgv := false, pidxv := false, ecode := c }
    (s.inst.icap < s.inputLength →
      ∃ t, exec .decompress s = .next t ∧ Spoils s t ∧ t.status = failed .badLength) ∧
    (s.inputLength ≤ s.inst.icap → s.status.stgv = false →
      ∃ t, exec .decompress s = .next t ∧ Spoils s t ∧ t.status = failed .invalidMetadata) ∧
    (s.inputLength ≤ s.inst.icap → s.status.stgv = true → bwt = true → s.status.pidxv = false →
      ∃ t, exec .decompress s = .next t ∧ Spoils s t ∧ t.status = failed .missingPrimaryIndex) ∧
    (s.inputLength ≤ s.inst.icap → s.status.stgv = true → (bwt = true → s.status.pidxv = true) →
      s.inst.ocap < z.length →
      ∃ t, exec .decompress s = .next t ∧ Spoils s t ∧ t.status = failed .outputOverflow) ∧
    (s.inputLength ≤ s.inst.icap → s.status.stgv = true → (bwt = true → s.status.pidxv = true) →
      z.length ≤ s.inst.ocap → bwt = true → 0 < y.length → y.length ≤ p →
      ∃ t, exec .decompress s = .next t ∧ Spoils s t ∧ t.status = failed .primaryIndexRange) ∧
    (s.inputLength ≤ s.inst.icap → s.status.stgv = true → (bwt = true → s.status.pidxv = true) →
      z.length ≤ s.inst.ocap → (bwt = true → y.length = 0 ∨ p < y.length) →
      ∃ t, exec .decompress s = .next t ∧ Delivers s t (if bwt then bwtDecode y p else y) ∧ t.stages = s.stages ∧
        t.pidx = s.pidx ∧ t.status = { s.status with done := true, busy := false, stgv := false, pidxv := false })

/-- 43_pipeline.md R148: the UNK bits of STAGES change nothing DECOMPRESS does but the word it leaves in STAGES. -/
def Obligations.UnknownStagesAreSkipped : Prop :=
  ∀ (s : State) (w : Word), (∀ i, i < 3 → w.getLsbD i = s.stages.getLsbD i) →
    ∃ t, exec .decompress s = .next t ∧ exec .decompress { s with stages := w } = .next { t with stages := w }

/-- 44_frame.md R160: FRAME_EMIT. -/
def Obligations.FrameEmitPrependsTheHeader : Prop :=
  (∀ p, decodeCommand p 0x0000000B#32 = .ok .frameEmit) ∧
  ∀ s : State, s.inst.wf →
    (s.inst.icap < s.inputLength ∨ s.inputLength < s.mlen.toNat →
      ∃ t, exec .frameEmit s = .next t ∧ Spoils s t ∧
        t.status = { s.status with done := true, busy := false, err := true, fb := false, ecode := .badLength }) ∧
    (s.inputLength ≤ s.inst.icap → s.mlen.toNat ≤ s.inputLength → s.inst.ocap < 11 + s.inputLength →
      ∃ t, exec .frameEmit s = .next t ∧ Spoils s t ∧
        t.status = { s.status with done := true, busy := false, err := true, fb := false, ecode := .outputOverflow }) ∧
    (s.inputLength ≤ s.inst.icap → s.mlen.toNat ≤ s.inputLength → 11 + s.inputLength ≤ s.inst.ocap →
      ∃ t, exec .frameEmit s = .next t ∧
        Delivers s t ([0x42#8, 0x57#8, 0x54#8, 0x4A#8, 0x53#8, 0x31#8, 0x00#8] ++
          [s.mlen.extractLsb' 24 8, s.mlen.extractLsb' 16 8, s.mlen.extractLsb' 8 8, s.mlen.extractLsb' 0 8] ++
          s.input) ∧
        t.olen.toNat = 11 + s.inputLength ∧ t.stages = s.stages ∧ t.pidx = s.pidx ∧
        t.status = { s.status with done := true, busy := false })

/-- 44_frame.md R161, R162: FRAME_PARSE, its tests in their order; OBUF and OLEN are not written. -/
def Obligations.FrameParseReportsTheFirstFault : Prop :=
  (∀ p, decodeCommand p 0x0000000C#32 = .ok .frameParse) ∧
  ∀ s : State, s.inst.wf →
    let n := s.inputLength
    let len := (s.ibufByte 7).toNat * 2 ^ 24 + (s.ibufByte 8).toNat * 2 ^ 16 + (s.ibufByte 9).toNat * 2 ^ 8
      + (s.ibufByte 10).toNat
    let magic := s.input.take 7 = [0x42#8, 0x57#8, 0x54#8, 0x4A#8, 0x53#8, 0x31#8, 0x00#8]
    let fails := fun c : ECode => ∃ t, exec .frameParse s = .next t ∧ Ends s t ∧ KeepsOutput s t ∧
      t.poff = 0#32 ∧ t.plen = 0#32 ∧ t.mlen = s.mlen ∧ t.stages = s.stages ∧ t.pidx = s.pidx ∧
      t.status = { s.status with done := true, busy := false, err := true, fb := false, ecode := c }
    (s.inst.icap < n → fails .badLength) ∧
    (n ≤ s.inst.icap → n < 7 → fails .tooShort) ∧
    (n ≤ s.inst.icap → 7 ≤ n → ¬ magic → fails .invalidFormat) ∧
    (n ≤ s.inst.icap → 7 ≤ n → magic → n < 11 → fails .truncatedLength) ∧
    (n ≤ s.inst.icap → 11 ≤ n → magic → n < 11 + len → fails .truncatedBody) ∧
    (n ≤ s.inst.icap → magic → 11 + len ≤ n → ∃ t, exec .frameParse s = .next t ∧ Ends s t ∧ KeepsOutput s t ∧
      t.mlen.toNat = len ∧ t.poff.toNat = 11 + len ∧ t.plen.toNat = n - 11 - len ∧ t.stages = s.stages ∧
      t.pidx = s.pidx ∧ t.status = { s.status with done := true, busy := false })

/-! ## The units of the streams -/

/-- 42_rle.md R123, R129 with 30_encoding.md R71, R72, R74: the effect of the tokens of the two run-length streams, and
that nothing else changes. -/
def Obligations.TokensEmitTheirBytes : Prop :=
  ∀ (s : State) (v c : Byte),
    exec (.rleLit v) s = .next { s with work := { s.work with
      ip := s.work.ip + 1, op := s.work.op + 1, dst := s.work.dst ++ [v] } } ∧
    exec (.rleEsc3 v c) s = .next { s with work := { s.work with
      ip := s.work.ip + 3, op := s.work.op + (c.toNat + 1),
      dst := s.work.dst ++ List.replicate (c.toNat + 1) v } } ∧
    exec (.pairTok v c) s = .next { s with work := { s.work with
      ip := s.work.ip + 2, op := s.work.op + c.toNat, dst := s.work.dst ++ List.replicate c.toNat v } }

/-- 41_mtf.md R112: the effect of one code of the MTF stream on a full table: the value at position k is emitted, entries
0 .. k − 1 move right by one, the value stands at the front, and nothing else changes. -/
def Obligations.MtfCodeEmitsAndMovesToFront : Prop :=
  ∀ (s : State) (k : Byte), s.work.mtf.length = 256 →
    ∃ v m, s.work.mtf[k.toNat]? = some v ∧
      exec (.mtfCode k) s = .next { s with work := { s.work with
        ip := s.work.ip + 1, op := s.work.op + 1, dst := s.work.dst ++ [v], mtf := m } } ∧
      m.length = 256 ∧ m[0]? = some v ∧ (∀ j, j < k.toNat → m[j + 1]? = s.work.mtf[j]?) ∧
      (∀ j, k.toNat < j → m[j]? = s.work.mtf[j]?)

/-- 44_frame.md R161 with 30_encoding.md R77, R78: the effect of a frame's header on the parser, and that nothing else
changes. That the parser holds L until the completion step is the model's (log entry 12). -/
def Obligations.FrameHeaderLatchesTheLength : Prop :=
  ∀ (s : State) (len : Word),
    exec (.frameHdr len) s = .next { s with work := { s.work with ip := s.work.ip + 11, hdr := some len } }

/-! ## The functions of the units -/

/-- 40_bwt.md R90: the comparator. -/
def Obligations.ComparatorFindsTheFirstDifference : Prop :=
  ∀ (b : List Byte) (a c : Nat), a < b.length → c < b.length →
    let x := fun i => b.getD ((a + i) % b.length) 0#8
    let y := fun i => b.getD ((c + i) % b.length) 0#8
    (compareRotations b a c = .eq ↔ ∀ i, i < b.length → x i = y i) ∧
    (compareRotations b a c = .lt ↔ ∃ i, i < b.length ∧ (∀ j, j < i → x j = y j) ∧ x i < y i) ∧
    (compareRotations b a c = .gt ↔ ∃ i, i < b.length ∧ (∀ j, j < i → x j = y j) ∧ y i < x i)

/-- 40_bwt.md R91: OFS is the one permutation of the offsets in the sorted order, ties in ascending offset. -/
def Obligations.RotationOrderIsTheStableOrder : Prop :=
  ∀ (b : List Byte) (l : List Nat),
    l.Perm (List.range b.length) ∧
      l.Pairwise (fun a c => compareRotations b a c = .lt ∨ compareRotations b a c = .eq ∧ a < c) ↔
    l = rotationOrder b

/-- 40_bwt.md R92: the primary index is the rank of offset 0, in 0 .. n − 1, the least rank of a rotation equal to the
input, and 0 for the empty sequence. -/
def Obligations.PrimaryIndexIsTheRankOfOffsetZero : Prop :=
  primaryIndex [] = 0 ∧
  ∀ b : List Byte, 0 < b.length →
    primaryIndex b < b.length ∧ (rotationOrder b)[primaryIndex b]? = some 0 ∧
    ∀ r a, (rotationOrder b)[r]? = some a → compareRotations b a 0 = .eq → primaryIndex b ≤ r

/-- 40_bwt.md R99: the last column, a permutation of the input. -/
def Obligations.LastColumnPrecedesEachRotation : Prop :=
  bwtEncode [] = ([], 0) ∧
  ∀ b : List Byte, (bwtEncode b).1.length = b.length ∧ (bwtEncode b).2 = primaryIndex b ∧
    (∀ i a : Nat, (rotationOrder b)[i]? = some a → (bwtEncode b).1[i]? = some (b.getD ((a + b.length - 1) % b.length) 0#8)) ∧
    (bwtEncode b).1.Perm b

/-- 40_bwt.md R95, R96: the map T, which holds each index at its rank, and the walk, for every l and every p < n: byte j
is L at the cursor advanced j + 1 times. -/
def Obligations.InverseWalkFollowsTheMap : Prop :=
  (∀ l : List Byte, (inverseMap l).Perm (List.range l.length) ∧ ∀ i, i < l.length →
    (inverseMap l)[(List.range l.length).countP (fun j => decide (l.getD j 0#8 < l.getD i 0#8)) +
      (List.range i).countP (fun j => decide (l.getD j 0#8 = l.getD i 0#8))]? = some i) ∧
  (∀ p, bwtDecode [] p = []) ∧
  ∀ (l : List Byte) (p : Nat), p < l.length → (bwtDecode l p).length = l.length ∧
    ∀ j, j < l.length →
      (bwtDecode l p)[j]? = l[(fun c => (inverseMap l).getD c 0)^[j + 1] p]?

/-- 40_bwt.md R98: decoding the last column at any rank gives the rotation that stands there. -/
def Obligations.DecodingAtARankGivesThatRotation : Prop :=
  ∀ (b : List Byte) (q a : Nat), (rotationOrder b)[q]? = some a → bwtDecode (bwtEncode b).1 q = b.rotate a

/-- 40_bwt.md R100: the round trip of the BWT. -/
def Obligations.BwtRoundTrip : Prop :=
  ∀ b : List Byte, bwtDecode (bwtEncode b).1 (bwtEncode b).2 = b

/-- 41_mtf.md R110 to R112, R115: the table starts as the identity and stays a permutation of the byte values, both
directions keep the length and the empty sequence, and each undoes the other. -/
def Obligations.MtfRoundTripsBothWays : Prop :=
  (∀ k : Nat, k < 256 → Config.mtfIdentity[k]? = some (BitVec.ofNat 8 k)) ∧
  (∀ (m : List Byte) (k : Nat), m.Perm Config.mtfIdentity → k < 256 → (moveToFront m k).Perm Config.mtfIdentity) ∧
  (∀ (m : List Byte) (v : Byte), m.Perm Config.mtfIdentity → ∃! k : Nat, m[k]? = some v) ∧
  mtfEncode [] = [] ∧ mtfDecode [] = [] ∧
  (∀ x : List Byte, (mtfEncode x).length = x.length ∧ (mtfDecode x).length = x.length) ∧
  (∀ x : List Byte, mtfDecode (mtfEncode x) = x) ∧ (∀ y : List Byte, mtfEncode (mtfDecode y) = y)

/-- 41_mtf.md R111, R112: the two steps, from any table. -/
def Obligations.MtfStepsEmitPositionAndValue : Prop :=
  (∀ (m : List Byte) (v : Byte) (vs : List Byte) (k : Nat), m.Nodup → m.length = 256 → m[k]? = some v →
    mtfEncodeFrom m (v :: vs) = BitVec.ofNat 8 k :: mtfEncodeFrom (v :: (m.take k ++ m.drop (k + 1))) vs) ∧
  (∀ (m : List Byte) (k : Byte) (ks : List Byte), m.length = 256 →
    ∃ v, m[k.toNat]? = some v ∧
      mtfDecodeFrom m (k :: ks) = v :: mtfDecodeFrom (v :: (m.take k.toNat ++ m.drop (k.toNat + 1))) ks)

/-- 42_rle.md R120: the runs spell the input, each is 1 to 255 long, two neighbours of one value only where the first is
full, and a run of r equal bytes is split greedily. -/
def Obligations.RunsAreMaximalAndGreedy : Prop :=
  ∀ bs : List Byte,
    (runs bs).flatMap (fun r => List.replicate r.length r.value) = bs ∧
    (∀ r ∈ runs bs, 1 ≤ r.length ∧ r.length ≤ 255) ∧
    (runs bs).IsChain (fun a b => a.value = b.value → a.length = 255) ∧
    ∀ (v : Byte) (r : Nat), runs (List.replicate r v) =
      List.replicate (r / 255) { value := v, length := 255 } ++
        (if r % 255 = 0 then [] else [{ value := v, length := r % 255 }])

/-- 42_rle.md R121: the bytes of a run, and the encoder as the concatenation of its tokens. -/
def Obligations.RleEncodeConcatenatesTheTokens : Prop :=
  (∀ (v : Byte) (n : Nat), 1 ≤ n → n ≤ 255 → encodeUnit (rleToken { value := v, length := n }) =
    if n = 1 then (if v = 0xFF#8 then [0xFF#8, 0xFF#8, 0x00#8] else [v]) else [0xFF#8, v, BitVec.ofNat 8 (n - 1)]) ∧
  (∀ bs : List Byte, rleEncode bs = ((runs bs).map (fun r => encodeUnit (rleToken r))).flatten) ∧
  rleEncode [] = []

/-- 42_rle.md R123, R125: the decode loop at any position, and the leniency at the end of the stream. -/
def Obligations.RleDecodeReadsTokenByToken : Prop :=
  rleDecode [] = [] ∧
  (∀ v c : Byte, ∀ rest : List Byte,
    rleDecode (0xFF#8 :: v :: c :: rest) = List.replicate (c.toNat + 1) v ++ rleDecode rest) ∧
  (∀ a : Byte, ∀ rest : List Byte, (a ≠ 0xFF#8 ∨ rest.length < 2) → rleDecode (a :: rest) = a :: rleDecode rest) ∧
  rleDecode [0xFF#8] = [0xFF#8] ∧ ∀ b : Byte, rleDecode [0xFF#8, b] = [0xFF#8, b]

/-- 42_rle.md R126: the round trip of the escape codec and its size bounds. -/
def Obligations.RleRoundTripAndSize : Prop :=
  (∀ x : List Byte, rleDecode (rleEncode x) = x) ∧
  (∀ x : List Byte, (rleEncode x).length ≤ 2 * x.length + 1) ∧
  (∀ y : List Byte, (rleDecode y).length ≤ 256 * (y.length / 3) + y.length % 3) ∧
  (∀ (v : Byte) (r : Nat), 2 ≤ r → r ≤ 255 → (rleEncode (List.replicate r v)).length = 3)

/-- 43_pipeline.md R149: what COMPRESS in either form left in OBUF, OLEN, STAGES, PIDX and the valid bits, loaded back
into IBUF and ILEN, decompresses to the original without an error. -/
def Obligations.CompressThenDecompress : Prop :=
  ∀ (s t u : State) (i : Instr), Inv s → s.seq = .busy → (i = .compress ∨ ∃ sel, i = .compressSub sel) →
    s.inputLength ≤ s.inst.icap → exec i s = .next t → t.olen.toNat ≤ t.inst.icap →
    u.inst = t.inst → u.status.stgv = t.status.stgv → u.status.pidxv = t.status.pidxv → u.status.err = false →
    u.stages = t.stages → u.pidx = t.pidx → u.ilen = t.olen →
    (∀ j, j < t.olen.toNat → u.ibufByte j = t.obufByte j) →
    ∃ r, exec .decompress u = .next r ∧ r.status.err = false ∧ r.olen.toNat = s.inputLength ∧ r.output = s.input

/-- 44_frame.md R165: what FRAME_EMIT left in OBUF and OLEN, loaded back, is parsed into the same metadata block and
payload. -/
def Obligations.FrameEmitThenParse : Prop :=
  ∀ (s t u : State), s.inst.wf → s.mlen.toNat ≤ s.inputLength → 11 + s.inputLength ≤ s.inst.icap →
    exec .frameEmit s = .next t → u.inst = t.inst → u.ilen = t.olen → u.status.err = false →
    (∀ j, j < t.olen.toNat → u.ibufByte j = t.obufByte j) →
    ∃ r, exec .frameParse u = .next r ∧ r.status.err = false ∧ r.mlen = s.mlen ∧
      r.poff.toNat = 11 + s.mlen.toNat ∧ r.plen.toNat = s.inputLength - s.mlen.toNat ∧
      (∀ j, j < s.inputLength → r.ibufByte (11 + j) = s.ibufByte j)

/-- 44_frame.md R163: the body check accepts a blob exactly when all of the declared length is there, for every length up
to 2^32 − 1. -/
def Obligations.BodyCheckNeverWraps : Prop :=
  ∀ (len : Word) (body : List Byte),
    (len.toNat ≤ body.length → parseFrame (frameOf len body) = .ok len) ∧
    (body.length < len.toNat → parseFrame (frameOf len body) = .error .truncatedBody)

/-! ## The host's side -/

/-- 30_encoding.md R63: which bits a stage list sets, and that the list read back from a word of the block gives the word
back. -/
def Obligations.StageListsSetTheirBits : Prop :=
  (∀ names : List StageName,
    ((stageListWord names).getLsbD 0 = true ↔ StageName.bwt ∈ names) ∧
    ((stageListWord names).getLsbD 1 = true ↔ StageName.mtf ∈ names) ∧
    ((stageListWord names).getLsbD 2 = true ↔ StageName.rle ∈ names) ∧
    (∀ k : Fin 5, (stageListWord names).getLsbD (3 + k.val) = true ↔ StageName.unknown (some k) ∈ names) ∧
    (stageListWord names).extractLsb' 8 24 = 0#24) ∧
  (∀ (fb : Bool) (sel : StageSet), stageListWord (stageListOf fb (stageWord sel)) = stageWord sel) ∧
  stageListOf true 0#32 = [.none]

/-- 43_pipeline.md R152: the statistics. Nothing is said of `saved` for an empty original and a non-empty result, which is
a free value (log entry 19). -/
def Obligations.StatisticsFollowTheRatio : Prop :=
  (∀ o c : Nat, 0 < o →
    (compressionStats o c).ratio * (o : Rat) = (c : Rat) ∧
    (compressionStats o c).reduction = (1 - (compressionStats o c).ratio) * 100 ∧
    (compressionStats o c).saved = (o : Int) - (c : Int) ∧
    ((compressionStats o c).effective = true ↔ (compressionStats o c).ratio < 1) ∧
    ((compressionStats o c).effective = true ↔ c < o)) ∧
  (∀ c : Nat, (compressionStats 0 c).ratio = 1 ∧ (compressionStats 0 c).reduction = 0 ∧
    (compressionStats 0 c).effective = false) ∧
  (compressionStats 0 0).saved = 0

/-! ## Invariants -/

/-- The invariant holds at reset, on every instance whose capacities are legal. -/
def Obligations.ResetMeetsTheInvariant : Prop :=
  (∀ p : Config.Instance, p.wf → Inv (State.resetOf p)) ∧ Inv State.reset

/-- Every step keeps the invariant, from every state that meets it. -/
def Obligations.EveryStepKeepsTheInvariant : Prop :=
  ∀ s t : State, Inv s → step s = .next t → Inv t
end

