-- ==== Sys2Proof/Laws/Memory.lean ====
section
/-! SUPPORT. The memory operations: a read after a write, the canonical form kept by every operation, and equal
contents are equal lists. -/

namespace Sys2Proof.Machine

@[simp] theorem get?_nil (i : Nat) : Memory.get? [] i = none := rfl

@[simp] theorem get?_cons (a : Nat) (b : Byte) (m : Memory) (i : Nat) :
    Memory.get? ((a, b) :: m) i = if a = i then some b else Memory.get? m i := rfl

/-- An index below every listed one holds no known value. -/
theorem get?_eq_none_of_lt {m : Memory} {i : Nat} (h : ∀ c ∈ m, i < c.1) : Memory.get? m i = none := by
  induction m with
  | nil => rfl
  | cons c m ih =>
    obtain ⟨a, b⟩ := c
    have hc := h (a, b) (by simp)
    rw [get?_cons, if_neg (by simp only at hc; omega)]
    exact ih fun d hd => h d (by simp [hd])

/-- A read after a write gives the value written. -/
@[simp] theorem get?_set_same (m : Memory) (i : Nat) (v : Byte) : Memory.get? (m.set i v) i = some v := by
  induction m with
  | nil => simp [Memory.set]
  | cons c m ih =>
    obtain ⟨a, b⟩ := c
    simp only [Memory.set]
    split
    · simp
    · split
      · simp
      · have : a ≠ i := by omega
        simp [this, ih]

/-- A write leaves every other index alone. -/
theorem get?_set_other (m : Memory) {i j : Nat} (v : Byte) (h : i ≠ j) :
    Memory.get? (m.set i v) j = Memory.get? m j := by
  induction m with
  | nil => simp [Memory.set, h]
  | cons c m ih =>
    obtain ⟨a, b⟩ := c
    simp only [Memory.set]
    split
    · simp [h]
    · split
      · subst_vars
        simp [h]
      · simp [ih]

/-- A write lists no index but its own and those already listed. -/
theorem mem_set {m : Memory} {i : Nat} {v : Byte} {c : Host.Cell} (h : c ∈ m.set i v) : c = (i, v) ∨ c ∈ m := by
  induction m with
  | nil => simpa [Memory.set] using h
  | cons d m ih =>
    obtain ⟨a, b⟩ := d
    simp only [Memory.set] at h
    split at h
    · simpa using h
    · split at h
      · rcases List.mem_cons.mp h with h | h
        · exact Or.inl h
        · exact Or.inr (by simp [h])
      · rcases List.mem_cons.mp h with h | h
        · exact Or.inr (by simp [h])
        · rcases ih h with h | h
          · exact Or.inl h
          · exact Or.inr (by simp [h])

/-- A write keeps the canonical form. -/
theorem set_wf {m : Memory} (h : Memory.wf m) (i : Nat) (v : Byte) : Memory.wf (m.set i v) := by
  induction m with
  | nil => simp [Memory.wf, Memory.set]
  | cons c m ih =>
    obtain ⟨a, b⟩ := c
    have hm := List.pairwise_cons.mp h
    simp only [Memory.set]
    split
    · rename_i hlt
      refine List.pairwise_cons.mpr ⟨fun c hc => ?_, h⟩
      rcases List.mem_cons.mp hc with hc | hc
      · simpa [hc] using hlt
      · have := hm.1 c hc
        simp only at this ⊢
        omega
    · split
      · rename_i heq
        subst heq
        exact List.pairwise_cons.mpr ⟨hm.1, hm.2⟩
      · refine List.pairwise_cons.mpr ⟨fun c hc => ?_, ih hm.2⟩
        rcases mem_set hc with hc | hc
        · subst hc
          simp only
          omega
        · exact hm.1 c hc

/-- A sequence's listed indices start at its own. -/
theorem le_of_mem_ofBytes {k : Nat} {bs : List Byte} {c : Host.Cell} (h : c ∈ Memory.ofBytes k bs) : k ≤ c.1 := by
  induction bs generalizing k with
  | nil => simp [Memory.ofBytes] at h
  | cons b bs ih =>
    rcases List.mem_cons.mp h with h | h
    · simp [h]
    · have := ih h
      omega

/-- A sequence laid out in a buffer is in canonical form. -/
theorem ofBytes_wf (k : Nat) (bs : List Byte) : Memory.wf (Memory.ofBytes k bs) := by
  induction bs generalizing k with
  | nil => exact List.Pairwise.nil
  | cons b bs ih =>
    refine List.pairwise_cons.mpr ⟨fun c hc => ?_, ih (k + 1)⟩
    have := le_of_mem_ofBytes hc
    simp only
    omega

/-- Reading a sequence laid out from index `k` on. -/
theorem get?_ofBytes_from (k : Nat) (bs : List Byte) (i : Nat) :
    Memory.get? (Memory.ofBytes k bs) (k + i) = bs[i]? := by
  induction bs generalizing k i with
  | nil => rfl
  | cons b bs ih =>
    cases i with
    | zero => simp [Memory.ofBytes]
    | succ i =>
      have h := ih (k + 1) i
      simp only [Memory.ofBytes, get?_cons]
      rw [if_neg (by omega), show k + (i + 1) = k + 1 + i by omega, h]
      simp

@[simp] theorem get?_ofBytes (bs : List Byte) (i : Nat) : Memory.get? (Memory.ofBytes 0 bs) i = bs[i]? := by
  simpa using get?_ofBytes_from 0 bs i

/-- Two memories in canonical form with equal contents are equal. -/
theorem wf_ext {m m' : Memory} (h : Memory.wf m) (h' : Memory.wf m')
    (hget : ∀ i, Memory.get? m i = Memory.get? m' i) : m = m' := by
  induction m generalizing m' with
  | nil =>
    cases m' with
    | nil => rfl
    | cons c m' =>
      obtain ⟨a, b⟩ := c
      simpa using hget a
  | cons c m ih =>
    cases m' with
    | nil =>
      obtain ⟨a, b⟩ := c
      simpa using hget a
    | cons c' m' =>
      obtain ⟨a, b⟩ := c
      obtain ⟨a', b'⟩ := c'
      have hm := List.pairwise_cons.mp h
      have hm' := List.pairwise_cons.mp h'
      have haa : a = a' := by
        rcases Nat.lt_trichotomy a a' with hlt | heq | hgt
        · have h1 := hget a
          have h2 : Memory.get? m' a = none :=
            get?_eq_none_of_lt fun d hd => Nat.lt_trans hlt (hm'.1 d hd)
          rw [get?_cons, get?_cons, if_pos rfl, if_neg (by omega), h2] at h1
          cases h1
        · exact heq
        · have h1 := hget a'
          have h2 : Memory.get? m a' = none :=
            get?_eq_none_of_lt fun d hd => Nat.lt_trans hgt (hm.1 d hd)
          rw [get?_cons, get?_cons, if_pos rfl, if_neg (by omega), h2] at h1
          cases h1
      subst haa
      have hbb : b = b' := by simpa using hget a
      subst hbb
      congr 1
      refine ih hm.2 hm'.2 fun i => ?_
      by_cases hi : a = i
      · subst hi
        rw [get?_eq_none_of_lt fun d hd => hm.1 d hd, get?_eq_none_of_lt fun d hd => hm'.1 d hd]
      · simpa [hi] using hget i

end Sys2Proof.Machine
end

