-- ==== Sys2Proof/Laws/State.lean ====
section
/-! SUPPORT. One lemma for each field and each update of State, so that no later proof unfolds a record update. -/

namespace Sys2Proof.Machine

/-! Fields after `OUT <- bs`. -/

@[simp] theorem out_inst (bs : List Byte) (s : State) : (State.out bs s).inst = s.inst := rfl
@[simp] theorem out_cmd (bs : List Byte) (s : State) : (State.out bs s).cmd = s.cmd := rfl
@[simp] theorem out_status (bs : List Byte) (s : State) : (State.out bs s).status = s.status := rfl
@[simp] theorem out_stages (bs : List Byte) (s : State) : (State.out bs s).stages = s.stages := rfl
@[simp] theorem out_pidx (bs : List Byte) (s : State) : (State.out bs s).pidx = s.pidx := rfl
@[simp] theorem out_ilen (bs : List Byte) (s : State) : (State.out bs s).ilen = s.ilen := rfl
@[simp] theorem out_olen (bs : List Byte) (s : State) : (State.out bs s).olen = BitVec.ofNat 32 bs.length := rfl
@[simp] theorem out_mlen (bs : List Byte) (s : State) : (State.out bs s).mlen = s.mlen := rfl
@[simp] theorem out_poff (bs : List Byte) (s : State) : (State.out bs s).poff = s.poff := rfl
@[simp] theorem out_plen (bs : List Byte) (s : State) : (State.out bs s).plen = s.plen := rfl
@[simp] theorem out_seq (bs : List Byte) (s : State) : (State.out bs s).seq = s.seq := rfl
@[simp] theorem out_ibuf (bs : List Byte) (s : State) : (State.out bs s).ibuf = s.ibuf := rfl
@[simp] theorem out_obuf (bs : List Byte) (s : State) : (State.out bs s).obuf = Memory.ofBytes 0 bs := rfl
@[simp] theorem out_work (bs : List Byte) (s : State) : (State.out bs s).work = s.work := rfl
@[simp] theorem out_ibufDraw (bs : List Byte) (s : State) : (State.out bs s).ibufDraw = s.ibufDraw := rfl
@[simp] theorem out_obufDraw (bs : List Byte) (s : State) : (State.out bs s).obufDraw = s.draws := rfl
@[simp] theorem out_draws (bs : List Byte) (s : State) : (State.out bs s).draws = s.draws + 1 := rfl
@[simp] theorem out_busyLeft (bs : List Byte) (s : State) : (State.out bs s).busyLeft = s.busyLeft := rfl
@[simp] theorem out_inbox (bs : List Byte) (s : State) : (State.out bs s).inbox = s.inbox := rfl
@[simp] theorem out_outbox (bs : List Byte) (s : State) : (State.out bs s).outbox = s.outbox := rfl

/-! Fields after writing PIDX. -/

@[simp] theorem setPidx_inst (p : Nat) (s : State) : (State.setPidx p s).inst = s.inst := rfl
@[simp] theorem setPidx_cmd (p : Nat) (s : State) : (State.setPidx p s).cmd = s.cmd := rfl
@[simp] theorem setPidx_status (p : Nat) (s : State) : (State.setPidx p s).status = s.status := rfl
@[simp] theorem setPidx_stages (p : Nat) (s : State) : (State.setPidx p s).stages = s.stages := rfl
@[simp] theorem setPidx_pidx (p : Nat) (s : State) : (State.setPidx p s).pidx = BitVec.ofNat 32 p := rfl
@[simp] theorem setPidx_ilen (p : Nat) (s : State) : (State.setPidx p s).ilen = s.ilen := rfl
@[simp] theorem setPidx_olen (p : Nat) (s : State) : (State.setPidx p s).olen = s.olen := rfl
@[simp] theorem setPidx_mlen (p : Nat) (s : State) : (State.setPidx p s).mlen = s.mlen := rfl
@[simp] theorem setPidx_poff (p : Nat) (s : State) : (State.setPidx p s).poff = s.poff := rfl
@[simp] theorem setPidx_plen (p : Nat) (s : State) : (State.setPidx p s).plen = s.plen := rfl
@[simp] theorem setPidx_seq (p : Nat) (s : State) : (State.setPidx p s).seq = s.seq := rfl
@[simp] theorem setPidx_ibuf (p : Nat) (s : State) : (State.setPidx p s).ibuf = s.ibuf := rfl
@[simp] theorem setPidx_obuf (p : Nat) (s : State) : (State.setPidx p s).obuf = s.obuf := rfl
@[simp] theorem setPidx_work (p : Nat) (s : State) : (State.setPidx p s).work = s.work := rfl
@[simp] theorem setPidx_ibufDraw (p : Nat) (s : State) : (State.setPidx p s).ibufDraw = s.ibufDraw := rfl
@[simp] theorem setPidx_obufDraw (p : Nat) (s : State) : (State.setPidx p s).obufDraw = s.obufDraw := rfl
@[simp] theorem setPidx_draws (p : Nat) (s : State) : (State.setPidx p s).draws = s.draws := rfl
@[simp] theorem setPidx_busyLeft (p : Nat) (s : State) : (State.setPidx p s).busyLeft = s.busyLeft := rfl
@[simp] theorem setPidx_inbox (p : Nat) (s : State) : (State.setPidx p s).inbox = s.inbox := rfl
@[simp] theorem setPidx_outbox (p : Nat) (s : State) : (State.setPidx p s).outbox = s.outbox := rfl

/-! Fields after writing PIDXV. -/

@[simp] theorem setPidxv_inst (b : Bool) (s : State) : (State.setPidxv b s).inst = s.inst := rfl
@[simp] theorem setPidxv_cmd (b : Bool) (s : State) : (State.setPidxv b s).cmd = s.cmd := rfl
@[simp] theorem setPidxv_status (b : Bool) (s : State) : (State.setPidxv b s).status = { s.status with pidxv := b } := rfl
@[simp] theorem setPidxv_stages (b : Bool) (s : State) : (State.setPidxv b s).stages = s.stages := rfl
@[simp] theorem setPidxv_pidx (b : Bool) (s : State) : (State.setPidxv b s).pidx = s.pidx := rfl
@[simp] theorem setPidxv_ilen (b : Bool) (s : State) : (State.setPidxv b s).ilen = s.ilen := rfl
@[simp] theorem setPidxv_olen (b : Bool) (s : State) : (State.setPidxv b s).olen = s.olen := rfl
@[simp] theorem setPidxv_mlen (b : Bool) (s : State) : (State.setPidxv b s).mlen = s.mlen := rfl
@[simp] theorem setPidxv_poff (b : Bool) (s : State) : (State.setPidxv b s).poff = s.poff := rfl
@[simp] theorem setPidxv_plen (b : Bool) (s : State) : (State.setPidxv b s).plen = s.plen := rfl
@[simp] theorem setPidxv_seq (b : Bool) (s : State) : (State.setPidxv b s).seq = s.seq := rfl
@[simp] theorem setPidxv_ibuf (b : Bool) (s : State) : (State.setPidxv b s).ibuf = s.ibuf := rfl
@[simp] theorem setPidxv_obuf (b : Bool) (s : State) : (State.setPidxv b s).obuf = s.obuf := rfl
@[simp] theorem setPidxv_work (b : Bool) (s : State) : (State.setPidxv b s).work = s.work := rfl
@[simp] theorem setPidxv_ibufDraw (b : Bool) (s : State) : (State.setPidxv b s).ibufDraw = s.ibufDraw := rfl
@[simp] theorem setPidxv_obufDraw (b : Bool) (s : State) : (State.setPidxv b s).obufDraw = s.obufDraw := rfl
@[simp] theorem setPidxv_draws (b : Bool) (s : State) : (State.setPidxv b s).draws = s.draws := rfl
@[simp] theorem setPidxv_busyLeft (b : Bool) (s : State) : (State.setPidxv b s).busyLeft = s.busyLeft := rfl
@[simp] theorem setPidxv_inbox (b : Bool) (s : State) : (State.setPidxv b s).inbox = s.inbox := rfl
@[simp] theorem setPidxv_outbox (b : Bool) (s : State) : (State.setPidxv b s).outbox = s.outbox := rfl

/-! Fields after writing STGV. -/

@[simp] theorem setStgv_inst (b : Bool) (s : State) : (State.setStgv b s).inst = s.inst := rfl
@[simp] theorem setStgv_cmd (b : Bool) (s : State) : (State.setStgv b s).cmd = s.cmd := rfl
@[simp] theorem setStgv_status (b : Bool) (s : State) : (State.setStgv b s).status = { s.status with stgv := b } := rfl
@[simp] theorem setStgv_stages (b : Bool) (s : State) : (State.setStgv b s).stages = s.stages := rfl
@[simp] theorem setStgv_pidx (b : Bool) (s : State) : (State.setStgv b s).pidx = s.pidx := rfl
@[simp] theorem setStgv_ilen (b : Bool) (s : State) : (State.setStgv b s).ilen = s.ilen := rfl
@[simp] theorem setStgv_olen (b : Bool) (s : State) : (State.setStgv b s).olen = s.olen := rfl
@[simp] theorem setStgv_mlen (b : Bool) (s : State) : (State.setStgv b s).mlen = s.mlen := rfl
@[simp] theorem setStgv_poff (b : Bool) (s : State) : (State.setStgv b s).poff = s.poff := rfl
@[simp] theorem setStgv_plen (b : Bool) (s : State) : (State.setStgv b s).plen = s.plen := rfl
@[simp] theorem setStgv_seq (b : Bool) (s : State) : (State.setStgv b s).seq = s.seq := rfl
@[simp] theorem setStgv_ibuf (b : Bool) (s : State) : (State.setStgv b s).ibuf = s.ibuf := rfl
@[simp] theorem setStgv_obuf (b : Bool) (s : State) : (State.setStgv b s).obuf = s.obuf := rfl
@[simp] theorem setStgv_work (b : Bool) (s : State) : (State.setStgv b s).work = s.work := rfl
@[simp] theorem setStgv_ibufDraw (b : Bool) (s : State) : (State.setStgv b s).ibufDraw = s.ibufDraw := rfl
@[simp] theorem setStgv_obufDraw (b : Bool) (s : State) : (State.setStgv b s).obufDraw = s.obufDraw := rfl
@[simp] theorem setStgv_draws (b : Bool) (s : State) : (State.setStgv b s).draws = s.draws := rfl
@[simp] theorem setStgv_busyLeft (b : Bool) (s : State) : (State.setStgv b s).busyLeft = s.busyLeft := rfl
@[simp] theorem setStgv_inbox (b : Bool) (s : State) : (State.setStgv b s).inbox = s.inbox := rfl
@[simp] theorem setStgv_outbox (b : Bool) (s : State) : (State.setStgv b s).outbox = s.outbox := rfl

/-! Fields after returning to IDLE. -/

@[simp] theorem retire_inst (s : State) : (s.retire).inst = s.inst := rfl
@[simp] theorem retire_cmd (s : State) : (s.retire).cmd = s.cmd := rfl
@[simp] theorem retire_status (s : State) : (s.retire).status = s.status := rfl
@[simp] theorem retire_stages (s : State) : (s.retire).stages = s.stages := rfl
@[simp] theorem retire_pidx (s : State) : (s.retire).pidx = s.pidx := rfl
@[simp] theorem retire_ilen (s : State) : (s.retire).ilen = s.ilen := rfl
@[simp] theorem retire_olen (s : State) : (s.retire).olen = s.olen := rfl
@[simp] theorem retire_mlen (s : State) : (s.retire).mlen = s.mlen := rfl
@[simp] theorem retire_poff (s : State) : (s.retire).poff = s.poff := rfl
@[simp] theorem retire_plen (s : State) : (s.retire).plen = s.plen := rfl
@[simp] theorem retire_seq (s : State) : (s.retire).seq = .idle := rfl
@[simp] theorem retire_ibuf (s : State) : (s.retire).ibuf = s.ibuf := rfl
@[simp] theorem retire_obuf (s : State) : (s.retire).obuf = s.obuf := rfl
@[simp] theorem retire_work (s : State) : (s.retire).work = Work.clear := rfl
@[simp] theorem retire_ibufDraw (s : State) : (s.retire).ibufDraw = s.ibufDraw := rfl
@[simp] theorem retire_obufDraw (s : State) : (s.retire).obufDraw = s.obufDraw := rfl
@[simp] theorem retire_draws (s : State) : (s.retire).draws = s.draws := rfl
@[simp] theorem retire_busyLeft (s : State) : (s.retire).busyLeft = 0 := rfl
@[simp] theorem retire_inbox (s : State) : (s.retire).inbox = s.inbox := rfl
@[simp] theorem retire_outbox (s : State) : (s.retire).outbox = s.outbox := rfl

/-! Fields after a completion without an error. -/

@[simp] theorem complete_inst (s : State) : (s.complete).inst = s.inst := rfl
@[simp] theorem complete_cmd (s : State) : (s.complete).cmd = s.cmd := rfl
@[simp] theorem complete_status (s : State) : (s.complete).status = s.status.complete := rfl
@[simp] theorem complete_stages (s : State) : (s.complete).stages = s.stages := rfl
@[simp] theorem complete_pidx (s : State) : (s.complete).pidx = s.pidx := rfl
@[simp] theorem complete_ilen (s : State) : (s.complete).ilen = s.ilen := rfl
@[simp] theorem complete_olen (s : State) : (s.complete).olen = s.olen := rfl
@[simp] theorem complete_mlen (s : State) : (s.complete).mlen = s.mlen := rfl
@[simp] theorem complete_poff (s : State) : (s.complete).poff = s.poff := rfl
@[simp] theorem complete_plen (s : State) : (s.complete).plen = s.plen := rfl
@[simp] theorem complete_seq (s : State) : (s.complete).seq = .idle := rfl
@[simp] theorem complete_ibuf (s : State) : (s.complete).ibuf = s.ibuf := rfl
@[simp] theorem complete_obuf (s : State) : (s.complete).obuf = s.obuf := rfl
@[simp] theorem complete_work (s : State) : (s.complete).work = Work.clear := rfl
@[simp] theorem complete_ibufDraw (s : State) : (s.complete).ibufDraw = s.ibufDraw := rfl
@[simp] theorem complete_obufDraw (s : State) : (s.complete).obufDraw = s.obufDraw := rfl
@[simp] theorem complete_draws (s : State) : (s.complete).draws = s.draws := rfl
@[simp] theorem complete_busyLeft (s : State) : (s.complete).busyLeft = 0 := rfl
@[simp] theorem complete_inbox (s : State) : (s.complete).inbox = s.inbox := rfl
@[simp] theorem complete_outbox (s : State) : (s.complete).outbox = s.outbox := rfl

/-! Fields after the results of FRAME_PARSE. -/

@[simp] theorem setFrame_inst (len : Word) (s : State) : (State.setFrame len s).inst = s.inst := rfl
@[simp] theorem setFrame_cmd (len : Word) (s : State) : (State.setFrame len s).cmd = s.cmd := rfl
@[simp] theorem setFrame_status (len : Word) (s : State) : (State.setFrame len s).status = s.status := rfl
@[simp] theorem setFrame_stages (len : Word) (s : State) : (State.setFrame len s).stages = s.stages := rfl
@[simp] theorem setFrame_pidx (len : Word) (s : State) : (State.setFrame len s).pidx = s.pidx := rfl
@[simp] theorem setFrame_ilen (len : Word) (s : State) : (State.setFrame len s).ilen = s.ilen := rfl
@[simp] theorem setFrame_olen (len : Word) (s : State) : (State.setFrame len s).olen = s.olen := rfl
@[simp] theorem setFrame_mlen (len : Word) (s : State) : (State.setFrame len s).mlen = len := rfl
@[simp] theorem setFrame_poff (len : Word) (s : State) : (State.setFrame len s).poff = BitVec.ofNat 32 (Config.headerSize + len.toNat) := rfl
@[simp] theorem setFrame_plen (len : Word) (s : State) : (State.setFrame len s).plen = BitVec.ofNat 32 (s.inputLength - Config.headerSize - len.toNat) := rfl
@[simp] theorem setFrame_seq (len : Word) (s : State) : (State.setFrame len s).seq = s.seq := rfl
@[simp] theorem setFrame_ibuf (len : Word) (s : State) : (State.setFrame len s).ibuf = s.ibuf := rfl
@[simp] theorem setFrame_obuf (len : Word) (s : State) : (State.setFrame len s).obuf = s.obuf := rfl
@[simp] theorem setFrame_work (len : Word) (s : State) : (State.setFrame len s).work = s.work := rfl
@[simp] theorem setFrame_ibufDraw (len : Word) (s : State) : (State.setFrame len s).ibufDraw = s.ibufDraw := rfl
@[simp] theorem setFrame_obufDraw (len : Word) (s : State) : (State.setFrame len s).obufDraw = s.obufDraw := rfl
@[simp] theorem setFrame_draws (len : Word) (s : State) : (State.setFrame len s).draws = s.draws := rfl
@[simp] theorem setFrame_busyLeft (len : Word) (s : State) : (State.setFrame len s).busyLeft = s.busyLeft := rfl
@[simp] theorem setFrame_inbox (len : Word) (s : State) : (State.setFrame len s).inbox = s.inbox := rfl
@[simp] theorem setFrame_outbox (len : Word) (s : State) : (State.setFrame len s).outbox = s.outbox := rfl

/-! Fields after a reply to the host. -/

@[simp] theorem reply_inst (r : Reply) (s : State) : (State.reply r s).inst = s.inst := rfl
@[simp] theorem reply_cmd (r : Reply) (s : State) : (State.reply r s).cmd = s.cmd := rfl
@[simp] theorem reply_status (r : Reply) (s : State) : (State.reply r s).status = s.status := rfl
@[simp] theorem reply_stages (r : Reply) (s : State) : (State.reply r s).stages = s.stages := rfl
@[simp] theorem reply_pidx (r : Reply) (s : State) : (State.reply r s).pidx = s.pidx := rfl
@[simp] theorem reply_ilen (r : Reply) (s : State) : (State.reply r s).ilen = s.ilen := rfl
@[simp] theorem reply_olen (r : Reply) (s : State) : (State.reply r s).olen = s.olen := rfl
@[simp] theorem reply_mlen (r : Reply) (s : State) : (State.reply r s).mlen = s.mlen := rfl
@[simp] theorem reply_poff (r : Reply) (s : State) : (State.reply r s).poff = s.poff := rfl
@[simp] theorem reply_plen (r : Reply) (s : State) : (State.reply r s).plen = s.plen := rfl
@[simp] theorem reply_seq (r : Reply) (s : State) : (State.reply r s).seq = s.seq := rfl
@[simp] theorem reply_ibuf (r : Reply) (s : State) : (State.reply r s).ibuf = s.ibuf := rfl
@[simp] theorem reply_obuf (r : Reply) (s : State) : (State.reply r s).obuf = s.obuf := rfl
@[simp] theorem reply_work (r : Reply) (s : State) : (State.reply r s).work = s.work := rfl
@[simp] theorem reply_ibufDraw (r : Reply) (s : State) : (State.reply r s).ibufDraw = s.ibufDraw := rfl
@[simp] theorem reply_obufDraw (r : Reply) (s : State) : (State.reply r s).obufDraw = s.obufDraw := rfl
@[simp] theorem reply_draws (r : Reply) (s : State) : (State.reply r s).draws = s.draws := rfl
@[simp] theorem reply_busyLeft (r : Reply) (s : State) : (State.reply r s).busyLeft = s.busyLeft := rfl
@[simp] theorem reply_inbox (r : Reply) (s : State) : (State.reply r s).inbox = s.inbox := rfl
@[simp] theorem reply_outbox (r : Reply) (s : State) : (State.reply r s).outbox = s.outbox ++ [r] := rfl

/-! Fields after the start step. -/

@[simp] theorem startCommand_inst (w : Word) (s : State) : (State.startCommand w s).inst = s.inst := rfl
@[simp] theorem startCommand_cmd (w : Word) (s : State) : (State.startCommand w s).cmd = w := rfl
@[simp] theorem startCommand_status (w : Word) (s : State) : (State.startCommand w s).status = s.status.start := rfl
@[simp] theorem startCommand_stages (w : Word) (s : State) : (State.startCommand w s).stages = s.stages := rfl
@[simp] theorem startCommand_pidx (w : Word) (s : State) : (State.startCommand w s).pidx = s.pidx := rfl
@[simp] theorem startCommand_ilen (w : Word) (s : State) : (State.startCommand w s).ilen = s.ilen := rfl
@[simp] theorem startCommand_olen (w : Word) (s : State) : (State.startCommand w s).olen = s.olen := rfl
@[simp] theorem startCommand_mlen (w : Word) (s : State) : (State.startCommand w s).mlen = s.mlen := rfl
@[simp] theorem startCommand_poff (w : Word) (s : State) : (State.startCommand w s).poff = s.poff := rfl
@[simp] theorem startCommand_plen (w : Word) (s : State) : (State.startCommand w s).plen = s.plen := rfl
@[simp] theorem startCommand_seq (w : Word) (s : State) : (State.startCommand w s).seq = .busy := rfl
@[simp] theorem startCommand_ibuf (w : Word) (s : State) : (State.startCommand w s).ibuf = s.ibuf := rfl
@[simp] theorem startCommand_obuf (w : Word) (s : State) : (State.startCommand w s).obuf = s.obuf := rfl
@[simp] theorem startCommand_work (w : Word) (s : State) : (State.startCommand w s).work = s.startWork w := rfl
@[simp] theorem startCommand_ibufDraw (w : Word) (s : State) : (State.startCommand w s).ibufDraw = s.ibufDraw := rfl
@[simp] theorem startCommand_obufDraw (w : Word) (s : State) : (State.startCommand w s).obufDraw = s.obufDraw := rfl
@[simp] theorem startCommand_draws (w : Word) (s : State) : (State.startCommand w s).draws = s.draws + 1 := rfl
@[simp] theorem startCommand_busyLeft (w : Word) (s : State) : (State.startCommand w s).busyLeft = Config.busyTime s.draws := rfl
@[simp] theorem startCommand_inbox (w : Word) (s : State) : (State.startCommand w s).inbox = s.inbox := rfl
@[simp] theorem startCommand_outbox (w : Word) (s : State) : (State.startCommand w s).outbox = s.outbox := rfl

/-! Fields of the working state after a unit has read and written. -/

@[simp] theorem emit_todo (n : Nat) (bs : List Byte) (w : Work) : (Work.emit n bs w).todo = w.todo := rfl
@[simp] theorem emit_src (n : Nat) (bs : List Byte) (w : Work) : (Work.emit n bs w).src = w.src := rfl
@[simp] theorem emit_dst (n : Nat) (bs : List Byte) (w : Work) : (Work.emit n bs w).dst = w.dst ++ bs := rfl
@[simp] theorem emit_ip (n : Nat) (bs : List Byte) (w : Work) : (Work.emit n bs w).ip = w.ip + n := rfl
@[simp] theorem emit_op (n : Nat) (bs : List Byte) (w : Work) : (Work.emit n bs w).op = w.op + bs.length := rfl
@[simp] theorem emit_ofs (n : Nat) (bs : List Byte) (w : Work) : (Work.emit n bs w).ofs = w.ofs := rfl
@[simp] theorem emit_tmap (n : Nat) (bs : List Byte) (w : Work) : (Work.emit n bs w).tmap = w.tmap := rfl
@[simp] theorem emit_cursor (n : Nat) (bs : List Byte) (w : Work) : (Work.emit n bs w).cursor = w.cursor := rfl
@[simp] theorem emit_mtf (n : Nat) (bs : List Byte) (w : Work) : (Work.emit n bs w).mtf = w.mtf := rfl
@[simp] theorem emit_run (n : Nat) (bs : List Byte) (w : Work) : (Work.emit n bs w).run = w.run := rfl
@[simp] theorem emit_hdr (n : Nat) (bs : List Byte) (w : Work) : (Work.emit n bs w).hdr = w.hdr := rfl

/-! Fields after placing the spaces elsewhere in the host's address map. -/

@[simp] theorem place_inst (q : Config.Placement) (s : State) :
    (State.place q s).inst = { s.inst with placement := q } := rfl
@[simp] theorem place_cmd (q : Config.Placement) (s : State) : (State.place q s).cmd = s.cmd := rfl
@[simp] theorem place_status (q : Config.Placement) (s : State) : (State.place q s).status = s.status := rfl
@[simp] theorem place_stages (q : Config.Placement) (s : State) : (State.place q s).stages = s.stages := rfl
@[simp] theorem place_pidx (q : Config.Placement) (s : State) : (State.place q s).pidx = s.pidx := rfl
@[simp] theorem place_ilen (q : Config.Placement) (s : State) : (State.place q s).ilen = s.ilen := rfl
@[simp] theorem place_olen (q : Config.Placement) (s : State) : (State.place q s).olen = s.olen := rfl
@[simp] theorem place_mlen (q : Config.Placement) (s : State) : (State.place q s).mlen = s.mlen := rfl
@[simp] theorem place_poff (q : Config.Placement) (s : State) : (State.place q s).poff = s.poff := rfl
@[simp] theorem place_plen (q : Config.Placement) (s : State) : (State.place q s).plen = s.plen := rfl
@[simp] theorem place_seq (q : Config.Placement) (s : State) : (State.place q s).seq = s.seq := rfl
@[simp] theorem place_ibuf (q : Config.Placement) (s : State) : (State.place q s).ibuf = s.ibuf := rfl
@[simp] theorem place_obuf (q : Config.Placement) (s : State) : (State.place q s).obuf = s.obuf := rfl
@[simp] theorem place_work (q : Config.Placement) (s : State) : (State.place q s).work = s.work := rfl
@[simp] theorem place_ibufDraw (q : Config.Placement) (s : State) : (State.place q s).ibufDraw = s.ibufDraw := rfl
@[simp] theorem place_obufDraw (q : Config.Placement) (s : State) : (State.place q s).obufDraw = s.obufDraw := rfl
@[simp] theorem place_draws (q : Config.Placement) (s : State) : (State.place q s).draws = s.draws := rfl
@[simp] theorem place_busyLeft (q : Config.Placement) (s : State) : (State.place q s).busyLeft = s.busyLeft := rfl
@[simp] theorem place_inbox (q : Config.Placement) (s : State) : (State.place q s).inbox = s.inbox := rfl
@[simp] theorem place_outbox (q : Config.Placement) (s : State) : (State.place q s).outbox = s.outbox := rfl

end Sys2Proof.Machine
end

