-- ==== Sys2Proof/Laws/Ops.lean ====
section
/-! SUPPORT. What the shared operations can do, said once: reading the operands, `OUT <- bs`, the error completion, and
the reset step. -/

namespace Sys2Proof.Machine

@[simp] theorem input_length (s : State) : s.input.length = s.inputLength := by simp [State.input]

/-- Byte `i` of `IN` is byte `i` of IBUF. -/
theorem input_getElem (s : State) {i : Nat} (h : i < s.input.length) : s.input[i] = s.ibufByte i := by
  simp [State.input]

theorem inputTooLong_iff (s : State) : s.inputTooLong = true ↔ s.inst.icap < s.inputLength := by
  simp [State.inputTooLong]

theorem overflows_iff (s : State) (bs : List Byte) : s.overflows bs = true ↔ s.inst.ocap < bs.length := by
  simp [State.overflows]

/-- The bytes of OBUF after `OUT <- bs`: the sequence, and a draw of this step beyond it. -/
theorem out_obufByte (bs : List Byte) (s : State) (i : Nat) :
    (State.out bs s).obufByte i = (bs[i]?).getD (Config.freeByte s.draws i) := by
  simp [State.obufByte]

/-- The output sequence a state shows depends on OLEN and OBUF alone. -/
theorem output_congr {s t : State} (ho : t.olen = s.olen) (hb : ∀ i, t.obufByte i = s.obufByte i) :
    t.output = s.output := by
  simp [State.output, ho, hb]

/-- A state whose OLEN is the length of `bs` and whose OBUF starts with `bs` shows `bs`. -/
theorem output_eq_of {t : State} {bs : List Byte} (ho : t.olen.toNat = bs.length)
    (hb : ∀ i (h : i < bs.length), t.obufByte i = bs[i]) : t.output = bs := by
  apply List.ext_getElem
  · simp [State.output, ho]
  · intro i h1 h2
    simp [State.output, hb i h2]

/-- `OUT <- bs` shows `bs`, when its length fits OLEN. -/
theorem out_output {bs : List Byte} (s : State) (h : bs.length < 2 ^ 32) : (State.out bs s).output = bs := by
  refine output_eq_of ?_ fun i hi => ?_
  · simpa using h
  · simp [out_obufByte, hi]

/-- An error completion returns SEQ to IDLE, sets the STATUS of R181, and keeps what no command writes. -/
theorem raise_spec (k : ErrorLine) (c : ECode) (s : State) :
    (s.raise k c).inst = s.inst ∧ (s.raise k c).cmd = s.cmd ∧ (s.raise k c).status = (s.status.fail c).consume k ∧
    (s.raise k c).stages = s.stages ∧ (s.raise k c).pidx = s.pidx ∧ (s.raise k c).ilen = s.ilen ∧
    (s.raise k c).mlen = s.mlen ∧ (s.raise k c).seq = .idle ∧ (s.raise k c).work = Work.clear ∧
    (s.raise k c).busyLeft = 0 ∧ (s.raise k c).ibuf = s.ibuf ∧ (s.raise k c).ibufDraw = s.ibufDraw ∧
    (s.raise k c).inbox = s.inbox ∧ (s.raise k c).outbox = s.outbox := by
  simp only [State.raise, State.spoil]
  split
  · simp
  · split <;> simp

/-- The result registers and OBUF after an error completion of a command other than FRAME_PARSE. -/
theorem raise_spoils {k : ErrorLine} {c : ECode} (s : State) (hk : k ≠ .frameParse) (hc : c ≠ .illegalCommand) :
    (s.raise k c).olen = 0#32 ∧ (s.raise k c).obuf = [] ∧ (s.raise k c).obufDraw = s.draws ∧
    (s.raise k c).draws = s.draws + 1 ∧ (s.raise k c).poff = s.poff ∧ (s.raise k c).plen = s.plen := by
  simp [State.raise, State.spoil, hk, hc]

/-- The result registers and OBUF after an error completion of FRAME_PARSE. -/
theorem raise_frameParse (c : ECode) (s : State) :
    (s.raise .frameParse c).poff = 0#32 ∧ (s.raise .frameParse c).plen = 0#32 ∧
    (s.raise .frameParse c).olen = s.olen ∧ (s.raise .frameParse c).obuf = s.obuf ∧
    (s.raise .frameParse c).obufDraw = s.obufDraw ∧ (s.raise .frameParse c).draws = s.draws := by
  simp [State.raise, State.spoil]

/-- An illegal command leaves every result register and OBUF as they were. -/
theorem raise_illegal (s : State) :
    (s.raise .other .illegalCommand).poff = s.poff ∧ (s.raise .other .illegalCommand).plen = s.plen ∧
    (s.raise .other .illegalCommand).olen = s.olen ∧ (s.raise .other .illegalCommand).obuf = s.obuf ∧
    (s.raise .other .illegalCommand).obufDraw = s.obufDraw ∧ (s.raise .other .illegalCommand).draws = s.draws := by
  simp [State.raise, State.spoil]

/-- The reset step keeps the memories' canonical form: nothing is listed. -/
theorem applyReset_wf (s : State) : Memory.wf s.applyReset.ibuf ∧ Memory.wf s.applyReset.obuf :=
  ⟨List.Pairwise.nil, List.Pairwise.nil⟩

/-- The memories of the state after reset are in canonical form. -/
theorem reset_wf : Memory.wf State.reset.ibuf ∧ Memory.wf State.reset.obuf :=
  ⟨List.Pairwise.nil, List.Pairwise.nil⟩

end Sys2Proof.Machine
end

