-- ==== Sys2Proof/Laws/Units.lean ====
section
/-! SUPPORT. The small laws of the units' functions: lengths, the sorted lists as permutations of the offsets, and the
empty sequence. -/

namespace Sys2Proof.Machine

theorem rotationOrder_perm (b : List Byte) : (rotationOrder b).Perm (List.range b.length) :=
  List.perm_insertionSort _ _

@[simp] theorem rotationOrder_length (b : List Byte) : (rotationOrder b).length = b.length := by
  simp [rotationOrder]

@[simp] theorem lastColumn_length (b : List Byte) : (lastColumn b).length = b.length := by simp [lastColumn]

@[simp] theorem bwtEncode_length (b : List Byte) : (bwtEncode b).1.length = b.length := by simp [bwtEncode]

theorem inverseMap_perm (l : List Byte) : (inverseMap l).Perm (List.range l.length) :=
  List.perm_insertionSort _ _

@[simp] theorem inverseMap_length (l : List Byte) : (inverseMap l).length = l.length := by simp [inverseMap]

@[simp] theorem inverseWalk_length (l : List Byte) (t : List Nat) (k c : Nat) : (inverseWalk l t k c).length = k := by
  induction k generalizing c with
  | zero => rfl
  | succ k ih => simp [inverseWalk, ih]

@[simp] theorem bwtDecode_length (l : List Byte) (p : Nat) : (bwtDecode l p).length = l.length := by simp [bwtDecode]

/-- Every entry of T is an index of the sequence. -/
theorem inverseMap_lt {l : List Byte} {c : Nat} (h : c < l.length) : (inverseMap l).getD c 0 < l.length := by
  have hc : c < (inverseMap l).length := by simpa using h
  have hm : (inverseMap l)[c] ∈ List.range l.length := (inverseMap_perm l).mem_iff.mp (List.getElem_mem hc)
  simpa [List.getD_eq_getElem?_getD, List.getElem?_eq_getElem hc] using hm

@[simp] theorem mtfEncodeFrom_length (m bs : List Byte) : (mtfEncodeFrom m bs).length = bs.length := by
  induction bs generalizing m with
  | nil => rfl
  | cons b bs ih => simp [mtfEncodeFrom, ih]

@[simp] theorem mtfDecodeFrom_length (m bs : List Byte) : (mtfDecodeFrom m bs).length = bs.length := by
  induction bs generalizing m with
  | nil => rfl
  | cons b bs ih => simp [mtfDecodeFrom, ih]

@[simp] theorem mtfEncode_length (bs : List Byte) : (mtfEncode bs).length = bs.length := by simp [mtfEncode]

@[simp] theorem mtfDecode_length (bs : List Byte) : (mtfDecode bs).length = bs.length := by simp [mtfDecode]

@[simp] theorem mtfIdentity_length : Config.mtfIdentity.length = 256 := by simp [Config.mtfIdentity]

theorem mtfIdentity_nodup : Config.mtfIdentity.Nodup := by
  refine List.Nodup.map_on (fun a ha b hb h => ?_) List.nodup_range
  have h' := congrArg BitVec.toNat h
  simp only [BitVec.toNat_ofNat] at h'
  rw [List.mem_range] at ha hb
  omega

/-- Moving an entry of the table to the front permutes the table. -/
theorem moveToFront_perm {m : List Byte} {k : Nat} (h : k < m.length) : (moveToFront m k).Perm m := by
  have hk : m.getD k 0#8 = m[k] := by simp [List.getD_eq_getElem?_getD, List.getElem?_eq_getElem h]
  rw [moveToFront, hk]
  exact List.getElem_cons_eraseIdx_perm h

@[simp] theorem runs_nil : runs [] = [] := rfl

@[simp] theorem rleDecode_nil : rleDecode [] = [] := by simp [rleDecode]

@[simp] theorem pairDecode_nil : pairDecode [] = [] := by simp [pairDecode]

/-- Scanning always closes at least one run, whose value is the scanned one and whose length is at least its own. -/
theorem scanRuns_head (v : Byte) (n : Nat) (bs : List Byte) :
    ∃ k rs, scanRuns v n bs = { value := v, length := n + k } :: rs := by
  induction bs generalizing n with
  | nil => exact ⟨0, [], rfl⟩
  | cons b bs ih =>
    simp only [scanRuns]
    split
    · obtain ⟨k, rs, h⟩ := ih (n + 1)
      exact ⟨k + 1, rs, by rw [h]; congr 2; omega⟩
    · exact ⟨0, _, rfl⟩

/-- Scanning closes its first run after `k` more bytes of its value and goes on with the rest. -/
theorem scanRuns_eq (v : Byte) (n : Nat) (bs : List Byte) :
    ∃ k, k ≤ bs.length ∧ bs.take k = List.replicate k v ∧
      scanRuns v n bs = { value := v, length := n + k } :: runs (bs.drop k) := by
  induction bs generalizing n with
  | nil => exact ⟨0, Nat.le_refl _, rfl, rfl⟩
  | cons b bs ih =>
    simp only [scanRuns]
    split
    · next h =>
      obtain ⟨k, hk, ht, hs⟩ := ih (n + 1)
      refine ⟨k + 1, Nat.succ_le_succ hk, by simp [ht, h.1, List.replicate_succ], ?_⟩
      rw [hs, List.drop_succ_cons, Nat.add_assoc, Nat.add_comm 1 k]
    · exact ⟨0, Nat.zero_le _, rfl, rfl⟩

/-- The first run of a sequence is at its start, and the others are the runs of the rest. -/
theorem runs_cons (b : Byte) (bs : List Byte) :
    ∃ r, r.value = b ∧ 1 ≤ r.length ∧ r.length ≤ bs.length + 1 ∧
      (b :: bs).take r.length = List.replicate r.length b ∧ runs (b :: bs) = r :: runs ((b :: bs).drop r.length) := by
  obtain ⟨k, hk, ht, hs⟩ := scanRuns_eq b 1 bs
  refine ⟨{ value := b, length := k + 1 }, rfl, Nat.succ_le_succ (Nat.zero_le k), Nat.succ_le_succ hk, ?_, ?_⟩
  · simp [ht, List.replicate_succ]
  · rw [runs, hs, List.drop_succ_cons, Nat.add_comm 1 k]

end Sys2Proof.Machine
end

