-- ==== Sys2Proof/Laws/Completion.lean ====
section
/-! SUPPORT. The two ends of a command in the terms statements use: a completion that has written `bs` delivers it, and an
error completion spoils the output or keeps it. -/

namespace Sys2Proof.Machine

/-- An error completion ends the command. -/
theorem raise_ends (k : ErrorLine) (c : ECode) (s : State) : Ends s (s.raise k c) := by
  obtain ⟨h1, h2, -, -, -, h6, -, h8, h9, -, h11, h12, h13, h14⟩ := raise_spec k c s
  exact ⟨⟨h1, h2, h6, fun i => by simp [State.ibufByte, h11, h12], h13, h14⟩, h8, h9⟩

/-- An error completion of a command that writes OBUF spoils the output. -/
theorem raise_spoils_output {k : ErrorLine} {c : ECode} (s : State) (hk : k ≠ .frameParse) (hc : c ≠ .illegalCommand) :
    Spoils s (s.raise k c) := by
  obtain ⟨-, -, -, h4, h5, -, h7, -⟩ := raise_spec k c s
  obtain ⟨g1, g2, g3, -, g5, g6⟩ := raise_spoils s hk hc
  exact ⟨raise_ends k c s, g1, fun i => by simp [State.obufByte, g2, g3], h4, h5, h7, g5, g6⟩

/-- An error completion of FRAME_PARSE keeps the output. -/
theorem raise_frameParse_keepsOutput (c : ECode) (s : State) : KeepsOutput s (s.raise .frameParse c) := by
  obtain ⟨-, -, g3, g4, g5, -⟩ := raise_frameParse c s
  exact ⟨g3, fun i => by simp [State.obufByte, g4, g5]⟩

/-- An illegal command keeps the output. -/
theorem raise_illegal_keepsOutput (s : State) : KeepsOutput s (s.raise .other .illegalCommand) := by
  obtain ⟨-, -, g3, g4, g5, -⟩ := raise_illegal s
  exact ⟨g3, fun i => by simp [State.obufByte, g4, g5]⟩

/-- A state that has the buffers and registers of `OUT <- bs` and has retired delivers `bs`. -/
theorem delivers_of {s t : State} {bs : List Byte} (hl : bs.length < 2 ^ 32)
    (hi : t.inst = s.inst) (hc : t.cmd = s.cmd) (hil : t.ilen = s.ilen) (hib : t.ibuf = s.ibuf)
    (hid : t.ibufDraw = s.ibufDraw) (hin : t.inbox = s.inbox) (hou : t.outbox = s.outbox) (hsq : t.seq = .idle)
    (hw : t.work = Work.clear) (hol : t.olen = BitVec.ofNat 32 bs.length) (hob : t.obuf = Memory.ofBytes 0 bs)
    (hod : t.obufDraw = s.draws) (hm : t.mlen = s.mlen) (hpo : t.poff = s.poff) (hpl : t.plen = s.plen) :
    Delivers s t bs := by
  have holen : t.olen.toNat = bs.length := by simpa [hol] using hl
  have hbyte : ∀ i, t.obufByte i = (bs[i]?).getD (Config.freeByte s.draws i) := fun i => by
    simp [State.obufByte, hob, hod]
  refine ⟨⟨⟨hi, hc, hil, fun i => by simp [State.ibufByte, hib, hid], hin, hou⟩, hsq, hw⟩, holen,
    output_eq_of holen fun i h => by simp [hbyte, h], fun i h => ?_, hm, hpo, hpl⟩
  rw [hbyte, List.getElem?_eq_none h, Option.getD_none]

/-- The input of a command that passes its first test fits OLEN. -/
theorem input_lt_of {s : State} (hw : s.inst.wf) {n : Nat} (h : n ≤ s.inst.ocap) : n < 2 ^ 32 := by
  have := hw.2.2
  omega

end Sys2Proof.Machine
end

