-- ==== Sys2Proof/Laws/PerInstr.lean ====
section
/-! SUPPORT. One fact for each instruction as syntax: how long its encoding is, and whether it is a command word or the
bytes of a stream's unit, as the opcode table gives them. -/

namespace Sys2Proof

/-- How many bits the opcode table gives the row of an instruction. -/
def Instr.tableBits : Instr → Nat
  | .bwtEnc => 32
  | .bwtDec => 32
  | .mtfEnc => 32
  | .mtfDec => 32
  | .rleEnc => 32
  | .rleDec => 32
  | .pairEnc => 32
  | .pairDec => 32
  | .compress => 32
  | .compressSub _ => 32
  | .decompress => 32
  | .frameEmit => 32
  | .frameParse => 32
  | .rleLit _ => 8
  | .rleEsc3 _ _ => 24
  | .pairTok _ _ => 16
  | .mtfCode _ => 8
  | .frameHdr _ => 88

/-- How many bits an encoding has. -/
def Encoding.bits : Encoding → Nat
  | .word _ => 32
  | .bytes bs => 8 * bs.length

end Sys2Proof

namespace Sys2Proof.Laws.EncodedWidth

/-- The encoding of the instruction has the width of its row, and is a command word exactly when it belongs to no
stream. -/
def Statement (i : Instr) : Prop :=
  (encode i).bits = i.tableBits ∧ (i.stream = none ↔ ∃ w, encode i = .word w)

theorem of_word {i : Instr} (w : Word) (hb : i.tableBits = 32) (hs : i.stream = none) (he : encode i = .word w) :
    Statement i := by
  refine ⟨?_, fun _ => ⟨w, he⟩, fun _ => hs⟩
  rw [he, hb]
  rfl

theorem of_bytes {i : Instr} (bs : List Byte) (st : Stream) (hb : i.tableBits = 8 * bs.length) (hs : i.stream = some st)
    (he : encode i = .bytes bs) : Statement i := by
  refine ⟨?_, fun h => ?_, fun ⟨w, h⟩ => ?_⟩
  · rw [he, hb]
    rfl
  · simp [hs] at h
  · simp [he] at h

theorem bwtEnc : Statement .bwtEnc := of_word _ rfl rfl rfl
theorem bwtDec : Statement .bwtDec := of_word _ rfl rfl rfl
theorem mtfEnc : Statement .mtfEnc := of_word _ rfl rfl rfl
theorem mtfDec : Statement .mtfDec := of_word _ rfl rfl rfl
theorem rleEnc : Statement .rleEnc := of_word _ rfl rfl rfl
theorem rleDec : Statement .rleDec := of_word _ rfl rfl rfl
theorem pairEnc : Statement .pairEnc := of_word _ rfl rfl rfl
theorem pairDec : Statement .pairDec := of_word _ rfl rfl rfl
theorem compress : Statement .compress := of_word _ rfl rfl rfl
theorem compressSub (sel : StageSet) : Statement (.compressSub sel) := of_word _ rfl rfl rfl
theorem decompress : Statement .decompress := of_word _ rfl rfl rfl
theorem frameEmit : Statement .frameEmit := of_word _ rfl rfl rfl
theorem frameParse : Statement .frameParse := of_word _ rfl rfl rfl
theorem rleLit (v : Byte) : Statement (.rleLit v) := of_bytes _ _ rfl rfl rfl
theorem rleEsc3 (v c : Byte) : Statement (.rleEsc3 v c) := of_bytes _ _ rfl rfl rfl
theorem pairTok (v c : Byte) : Statement (.pairTok v c) := of_bytes _ _ rfl rfl rfl
theorem mtfCode (k : Byte) : Statement (.mtfCode k) := of_bytes _ _ rfl rfl rfl
theorem frameHdr (len : Word) : Statement (.frameHdr len) := of_bytes _ _ rfl rfl rfl

end Sys2Proof.Laws.EncodedWidth
end

