-- ==== Sys2Proof/Laws/Placement.lean ====
section
/-! SUPPORT. No step depends on where the three spaces appear in the host's address map (20_memory.md R48): moving them
commutes with every operation, every instruction and every access, and so with the step. -/

namespace Sys2Proof.Machine

/-- The outcome of the same step of the block placed elsewhere. -/
def placeOutcome (q : Config.Placement) : Host.Outcome State Fault Refusal → Host.Outcome State Fault Refusal
  | .next t => .next (t.place q)
  | .fault r => .fault r
  | .refused r => .refused r

@[simp] theorem placeOutcome_next (q : Config.Placement) (t : State) :
    placeOutcome q (.next t) = .next (t.place q) := rfl

theorem placeOutcome_ite (q : Config.Placement) (c : Prop) [Decidable c] (a b : Host.Outcome State Fault Refusal) :
    placeOutcome q (if c then a else b) = if c then placeOutcome q a else placeOutcome q b := by
  split <;> rfl

theorem raise_place (q : Config.Placement) (k : ErrorLine) (c : ECode) (s : State) :
    (s.place q).raise k c = (s.raise k c).place q := by
  simp only [State.raise, State.spoil]
  split
  · rfl
  · split <;> rfl

theorem runCompress_place (q : Config.Placement) (sel : StageSet) (s : State) :
    (s.place q).runCompress sel = (s.runCompress sel).place q := by
  show (if s.inputTooLong then (s.place q).raise .other .badLength
    else if s.overflows (compressBytes sel s.input) then (((s.fallback.setStgv true).complete).place q)
    else (((s.compressed sel).setStgv true).complete).place q) = (s.runCompress sel).place q
  rw [State.runCompress]
  split
  · exact raise_place q ..
  · split <;> rfl

/-- What an instruction does does not depend on the placement. -/
theorem exec_place (q : Config.Placement) (i : Instr) (s : State) : exec i (s.place q) = placeOutcome q (exec i s) := by
  cases i with
  | bwtEnc => simp only [exec, execBwtEnc, placeOutcome_ite, placeOutcome_next, ← raise_place]; rfl
  | bwtDec => simp only [exec, execBwtDec, placeOutcome_ite, placeOutcome_next, ← raise_place]; rfl
  | mtfEnc => simp only [exec, execMtfEnc, placeOutcome_ite, placeOutcome_next, ← raise_place]; rfl
  | mtfDec => simp only [exec, execMtfDec, placeOutcome_ite, placeOutcome_next, ← raise_place]; rfl
  | rleEnc => simp only [exec, execRleEnc, placeOutcome_ite, placeOutcome_next, ← raise_place]; rfl
  | rleDec => simp only [exec, execRleDec, placeOutcome_ite, placeOutcome_next, ← raise_place]; rfl
  | pairEnc => simp only [exec, execPairEnc, placeOutcome_ite, placeOutcome_next, ← raise_place]; rfl
  | pairDec => simp only [exec, execPairDec, placeOutcome_ite, placeOutcome_next, ← raise_place]; rfl
  | compress => exact congrArg Host.Outcome.next (runCompress_place q _ s)
  | compressSub sel => exact congrArg Host.Outcome.next (runCompress_place q sel s)
  | decompress =>
    simp only [exec, execDecompress, placeOutcome_ite, placeOutcome_next, raise_place]
    have hb : decompressBytes (s.place q).stageSet (s.place q).pidx.toNat (s.place q).inst.ocap (s.place q).input =
      decompressBytes s.stageSet s.pidx.toNat s.inst.ocap s.input := rfl
    rw [hb]
    cases decompressBytes s.stageSet s.pidx.toNat s.inst.ocap s.input <;> rfl
  | frameEmit => simp only [exec, execFrameEmit, placeOutcome_ite, placeOutcome_next, ← raise_place]; rfl
  | frameParse =>
    simp only [exec, execFrameParse, placeOutcome_ite, placeOutcome_next, raise_place]
    have hp : parseFrame (s.place q).input = parseFrame s.input := rfl
    rw [hp]
    cases parseFrame s.input <;> rfl
  | rleLit v => rfl
  | rleEsc3 v c => rfl
  | pairTok v c => rfl
  | mtfCode k => rfl
  | frameHdr len => rfl

theorem readReg_place (q : Config.Placement) (offset : Nat) (s : State) :
    (s.place q).readReg offset = (s.readReg offset).place q := by
  unfold State.readReg
  rw [place_seq]
  cases s.seq with
  | idle => rfl
  | busy =>
    dsimp only
    split <;> rfl

theorem readByte_place (q : Config.Placement) (index : Nat) (b : Byte) (s : State) :
    (s.place q).readByte index b = (s.readByte index b).place q := by
  unfold State.readByte
  rw [place_seq]
  cases s.seq <;> rfl

theorem whenIdle_place (q : Config.Placement) (s t : State) :
    (s.place q).whenIdle (t.place q) = (s.whenIdle t).place q := by
  unfold State.whenIdle
  rw [place_seq]
  cases s.seq <;> rfl

theorem writeReg_place (q : Config.Placement) (offset : Nat) (v : Word) (s : State) :
    (s.place q).writeReg offset v = (s.writeReg offset v).place q := by
  unfold State.writeReg
  split <;> rfl

/-- What an access does does not depend on the placement. -/
theorem access_place (q : Config.Placement) (a : Access) (s : State) :
    State.access a (s.place q) = placeOutcome q (State.access a s) := by
  cases a with
  | regRead offset width =>
    simp only [State.access, readReg_place]
    split <;> rfl
  | regWrite offset width v =>
    simp only [State.access, writeReg_place, whenIdle_place]
    split <;> rfl
  | ibufRead index width =>
    simp only [State.access, placeOutcome_ite, placeOutcome_next, ← readByte_place]
    rfl
  | ibufWrite index width b =>
    simp only [State.access, placeOutcome_ite, placeOutcome_next, ← whenIdle_place]
    rfl
  | obufRead index width =>
    simp only [State.access, placeOutcome_ite, placeOutcome_next, ← readByte_place]
    rfl
  | obufWrite index width b =>
    simp only [State.access, placeOutcome_ite, placeOutcome_next]
    rfl
  | rst => rfl

theorem hostTurn_place (q : Config.Placement) (s : State) :
    (s.place q).hostTurn = placeOutcome q s.hostTurn := by
  unfold State.hostTurn
  rw [place_inbox]
  cases s.inbox with
  | nil => rfl
  | cons a rest => exact access_place q a { s with inbox := rest }

theorem fetch_place (q : Config.Placement) (s : State) : (s.place q).fetch = s.fetch := rfl

theorem hiddenStep_place (q : Config.Placement) (s : State) : (s.place q).hiddenStep = s.hiddenStep.place q := by
  unfold State.hiddenStep
  rw [place_work]
  cases s.work.todo with
  | nil => rfl
  | cons u rest =>
    dsimp only
    split
    · show (if u = .rleDec ∧ s.overflows s.work.dst = true then _ else _) = _
      split <;> rfl
    · rfl

theorem sequencerTurn_place (q : Config.Placement) (s : State) :
    (s.place q).sequencerTurn = placeOutcome q s.sequencerTurn := by
  unfold State.sequencerTurn
  rw [fetch_place]
  cases s.fetch with
  | instr i => exact exec_place q i s
  | illegal => exact congrArg Host.Outcome.next (raise_place q ..)
  | hidden => exact congrArg Host.Outcome.next (hiddenStep_place q s)

/-- R48: no step depends on the placement; only the constant itself differs after it. -/
theorem step_place (q : Config.Placement) (s : State) : step (s.place q) = placeOutcome q (step s) := by
  unfold step State.turn
  rw [place_seq, place_busyLeft]
  cases s.seq with
  | idle => exact hostTurn_place q s
  | busy =>
    dsimp only
    cases s.busyLeft with
    | zero => exact sequencerTurn_place q s
    | succ k => exact hostTurn_place q { s with seq := .busy, busyLeft := k }

end Sys2Proof.Machine
end

