-- ==== Sys2Proof/Laws/Step.lean ====
section
/-! SUPPORT. What one step can do, said once: the host's oldest access, the meaning of the fetched instruction, the
illegal command, or a hidden step; later proofs cite this and never unfold the step. -/

namespace Sys2Proof.Machine

/-- A step that gives a next state is one of five things. -/
theorem step_cases {s t : State} (h : step s = .next t) :
    (s.seq = .idle ∧ s.hostTurn = .next t) ∨
    (∃ k, s.seq = .busy ∧ s.busyLeft = k + 1 ∧ State.hostTurn { s with busyLeft := k } = .next t) ∨
    (∃ i, s.seq = .busy ∧ s.busyLeft = 0 ∧ s.fetch = .instr i ∧ exec i s = .next t) ∨
    (s.seq = .busy ∧ s.busyLeft = 0 ∧ s.fetch = .illegal ∧ t = s.raise .other .illegalCommand) ∨
    (s.seq = .busy ∧ s.busyLeft = 0 ∧ s.fetch = .hidden ∧ t = s.hiddenStep) := by
  rw [step, State.turn] at h
  split at h
  · exact .inl ⟨‹_›, h⟩
  · next hs =>
    split at h
    · next hb =>
      rw [State.sequencerTurn] at h
      split at h
      · exact .inr (.inr (.inl ⟨_, hs, hb, ‹_›, h⟩))
      · cases h
        exact .inr (.inr (.inr (.inl ⟨hs, hb, ‹_›, rfl⟩)))
      · cases h
        exact .inr (.inr (.inr (.inr ⟨hs, hb, ‹_›, rfl⟩)))
    · exact .inr (.inl ⟨_, hs, ‹_›, h⟩)

/-- A hidden step changes the working state alone. -/
theorem hiddenStep_eq (s : State) : s.hiddenStep = { s with work := s.hiddenStep.work } := by
  unfold State.hiddenStep
  split
  · rfl
  · split
    · split <;> rfl
    · rfl

/-- Steps compose: `k` steps that give a next state, then `m` more. -/
theorem run_add {k : Nat} (m : Nat) {s t : State} (h : Sys2Proof.core.run k s = .next t) :
    Sys2Proof.core.run (k + m) s = Sys2Proof.core.run m t := by
  induction k generalizing s with
  | zero =>
    cases h
    rw [Nat.zero_add]
  | succ k ih =>
    rw [Nat.add_right_comm]
    simp only [Host.Core.run] at h ⊢
    split at h
    · exact ih h
    · cases h
    · cases h

/-- One step, then `k` more. -/
theorem run_succ {s t : State} (k : Nat) (h : step s = .next t) :
    Sys2Proof.core.run (k + 1) s = Sys2Proof.core.run k t := by
  have h' : Sys2Proof.core.step s = .next t := h
  simp only [Host.Core.run, h']

end Sys2Proof.Machine
end

