-- ==== Sys2Proof/Tests/Slice0.lean ====
section
/-! SUPPORT. Tests against spec/95_test_vectors.md and the encodings of 30_encoding.md, the smoke tests of WellFormed, and
for every statement that has hypotheses a state and operands that meet them (`meets_<statement>`). -/

namespace Sys2Proof.Tests

open Sys2Proof.Machine

/-! ## Helpers -/

/-- An instance with both buffers of this capacity. -/
def cap (n : Nat) : Config.Instance :=
  { icap := n, ocap := n, pairPresent := true, placement := { base := 0x4000, ibufBase := 0x5000, obufBase := 0x6000 } }

/-- An idle state of an instance, with these bytes in IBUF and their number in ILEN. -/
def loaded (p : Config.Instance) (bs : List Byte) : State :=
  { State.resetOf p with ibuf := Memory.ofBytes 0 bs, ilen := BitVec.ofNat 32 bs.length }

/-- The same with a command running whose word is `w`, and no host turn before the sequencer's. -/
def running (p : Config.Instance) (w : Word) (bs : List Byte) : State :=
  { loaded p bs with cmd := w, seq := .busy, status := Status.reset.start }

/-- The state with this primary index, present. -/
def withPidx (p : Word) (s : State) : State := { s with pidx := p, status := { s.status with pidxv := true } }

/-- The state with this stage word, present. -/
def withStages (w : Word) (s : State) : State := { s with stages := w, status := { s.status with stgv := true } }

/-- A state whose running stage reads these bytes from their start. -/
def staged (u : Stage) (bs : List Byte) : State :=
  { running (cap 16) 0#32 [] with work := { Work.clear with todo := [u], src := bs } }

/-- The outcome is a next state with this STATUS word and this output sequence. -/
def shows (o : Host.Outcome State Fault Refusal) (status : Word) (out : List Byte) : Bool :=
  match o with
  | .next t => t.status.word == status && t.output == out
  | .fault _ => false
  | .refused _ => false

/-- The outcome is a next state with these values of STATUS and another register. -/
def leaves (o : Host.Outcome State Fault Refusal) (status : Word) (reg : State → Word) (v : Word) : Bool :=
  match o with
  | .next t => t.status.word == status && reg t == v
  | .fault _ => false
  | .refused _ => false

/-- The outcome is a next state whose running stage has written `out` and stands at `ip`. -/
def stands (o : Host.Outcome State Fault Refusal) (ip : Nat) (out : List Byte) : Bool :=
  match o with
  | .next t => t.work.ip == ip && t.work.dst == out
  | .fault _ => false
  | .refused _ => false

def banana : List Byte := [0x62#8, 0x61#8, 0x6E#8, 0x61#8, 0x6E#8, 0x61#8]

def bananaL : List Byte := [0x6E#8, 0x6E#8, 0x62#8, 0x61#8, 0x61#8, 0x61#8]

def bananaZ : List Byte := [0x6E#8, 0x00#8, 0xFF#8, 0x63#8, 0x01#8, 0xFF#8, 0x00#8, 0x01#8]

/-- The frame of program P2. -/
def frame : List Byte :=
  [0x42#8, 0x57#8, 0x54#8, 0x4A#8, 0x53#8, 0x31#8, 0x00#8, 0x00#8, 0x00#8, 0x00#8, 0x02#8] ++
  [0x7B#8, 0x7D#8, 0x01#8, 0x02#8, 0x03#8]

/-! ## WellFormed: each check refuses an ill-formed term -/

def noPair : Config.Instance := { cap 16 with pairPresent := false }

theorem test_wf_refuses_pairEnc : Instr.wf noPair .pairEnc = false := by decide
theorem test_wf_refuses_pairDec : Instr.wf noPair .pairDec = false := by decide
theorem test_wf_refuses_pairTok : Instr.wf noPair (.pairTok 0x41#8 0x01#8) = false := by decide
theorem test_wf_refuses_escape_literal : Instr.mayPrecede [0x41#8, 0x02#8] (.rleLit 0xFF#8) = false := by decide
theorem test_wf_allows_last_escape_literal : Instr.mayPrecede [0x41#8] (.rleLit 0xFF#8) = true := by decide
theorem test_wf_refuses_instance : ¬ (Config.Instance.wf { cap 16 with icap := 17 }) := by decide

/-! ## Decoding: words written out from 30_encoding.md R60, R61, R71 to R78 (95_test_vectors.md 2.11) -/

theorem test_decode_bwtEnc : decodeCommand (cap 16) 0x00000001#32 = .ok .bwtEnc := by decide
theorem test_decode_bwtDec : decodeCommand (cap 16) 0x00000002#32 = .ok .bwtDec := by decide
theorem test_decode_mtfEnc : decodeCommand (cap 16) 0x00000003#32 = .ok .mtfEnc := by decide
theorem test_decode_mtfDec : decodeCommand (cap 16) 0x00000004#32 = .ok .mtfDec := by decide
theorem test_decode_rleEnc : decodeCommand (cap 16) 0x00000005#32 = .ok .rleEnc := by decide
theorem test_decode_rleDec : decodeCommand (cap 16) 0x00000006#32 = .ok .rleDec := by decide
theorem test_decode_pairEnc : decodeCommand (cap 16) 0x00000007#32 = .ok .pairEnc := by decide
theorem test_decode_pairDec : decodeCommand (cap 16) 0x00000008#32 = .ok .pairDec := by decide
theorem test_decode_compress : decodeCommand (cap 16) 0x00000009#32 = .ok .compress := by decide
theorem test_decode_compressSub : decodeCommand (cap 16) 0x00000D09#32 =
    .ok (.compressSub { bwt := false, mtf := true, rle := true }) := by decide
theorem test_decode_decompress : decodeCommand (cap 16) 0x0000000A#32 = .ok .decompress := by decide
theorem test_decode_frameEmit : decodeCommand (cap 16) 0x0000000B#32 = .ok .frameEmit := by decide
theorem test_decode_frameParse : decodeCommand (cap 16) 0x0000000C#32 = .ok .frameParse := by decide
theorem test_decode_rleLit : decodeStream (cap 16) .rle [0x41#8, 0xFF#8] = .ok (.rleLit 0x41#8, [0xFF#8]) := by decide
theorem test_decode_rleEsc3 : decodeStream (cap 16) .rle [0b11111111#8, 0b01000001#8, 0b00000010#8, 0x42#8] =
    .ok (.rleEsc3 0x41#8 0x02#8, [0x42#8]) := by decide
theorem test_decode_pairTok : decodeStream (cap 16) .pair [0b01000001#8, 0b00000011#8] =
    .ok (.pairTok 0x41#8 0x03#8, []) := by decide
theorem test_decode_mtfCode : decodeStream (cap 16) .mtf [0b01100011#8] = .ok (.mtfCode 0x63#8, []) := by decide
theorem test_decode_frameHdr : decodeStream (cap 16) .frame (frame.take 11) = .ok (.frameHdr 2#32, []) := by decide

/-- The illegal words of 95_test_vectors.md 2.11. -/
theorem test_decode_illegal :
    ([0x00000000#32, 0x0000000D#32, 0x000000FF#32, 0x00000209#32, 0x00000E09#32, 0x00000101#32, 0x0000010A#32,
      0x0000080C#32, 0x00001001#32, 0x00001009#32, 0x80000009#32].all
        fun w => (decodeCommand (cap 16) w).toOption.isNone) = true ∧
    ([0x00000007#32, 0x00000008#32].all fun w => (decodeCommand noPair w).toOption.isNone) = true := by decide

/-- The table's numbering (log entry 10): the first byte of a stream's row is the most significant. -/
theorem test_decodeTableWord :
    decodeTableWord 32 0x00000F09 = some (.compressSub { bwt := true, mtf := true, rle := true }) ∧
    decodeTableWord 8 0x41 = some (.rleLit 0x41#8) ∧ decodeTableWord 24 0xFF4102 = some (.rleEsc3 0x41#8 0x02#8) ∧
    decodeTableWord 16 0x4103 = some (.pairTok 0x41#8 0x03#8) ∧
    decodeTableWord 88 0x4257544A5331000000001A = some (.frameHdr 26#32) := by decide

/-- A word placed by `withFetchWord` after reset is the instruction the next step runs. -/
theorem test_withFetchWord_command : shows (step (State.reset.withFetchWord 32 0x00000001)) 0x00000022#32 [] = true := by
  decide
theorem test_withFetchWord_token : stands (step (State.reset.withFetchWord 24 0xFF4102)) 3 [0x41#8, 0x41#8, 0x41#8]
    = true := by decide

/-! ## Instructions: spec/95_test_vectors.md sections 1 and 2, at most two tests for each -/

/-- 2.1, "banana". -/
theorem test_bwtEnc_banana : leaves (exec .bwtEnc (running (cap 16) 1#32 banana)) 0x22#32 (·.pidx) 3#32 = true ∧
    shows (exec .bwtEnc (running (cap 16) 1#32 banana)) 0x22#32 bananaL = true := by decide
/-- 2.1, 80 7F: an unsigned comparison. -/
theorem test_bwtEnc_unsigned : bwtEncode [0x80#8, 0x7F#8] = ([0x80#8, 0x7F#8], 1) := by decide
/-- 2.2, the round trip. -/
theorem test_bwtDec_banana : shows (exec .bwtDec (withPidx 3#32 (running (cap 16) 2#32 bananaL))) 0x02#32 banana
    = true := by decide
/-- 2.2, the index 6 of six bytes. -/
theorem test_bwtDec_range : leaves (exec .bwtDec (withPidx 6#32 (running (cap 16) 2#32 bananaL))) 0x2206#32 (·.olen) 0#32
    = true := by decide
set_option maxRecDepth 8192 in
/-- 2.3, FF FF 00. -/
theorem test_mtfEnc : shows (exec .mtfEnc (running (cap 16) 3#32 [0xFF#8, 0xFF#8, 0x00#8])) 0x02#32
    [0xFF#8, 0x00#8, 0x01#8] = true := by decide
/-- 2.3, FF FF FF. -/
theorem test_mtfDec : shows (exec .mtfDec (running (cap 16) 4#32 [0xFF#8, 0xFF#8, 0xFF#8])) 0x02#32
    [0xFF#8, 0xFE#8, 0xFD#8] = true := by decide
/-- 1.1, the source's third example. -/
theorem test_rleEnc : shows (exec .rleEnc (running (cap 16) 5#32 [0x41#8, 0x42#8, 0x42#8, 0x43#8])) 0x02#32
    [0x41#8, 0xFF#8, 0x42#8, 0x01#8, 0x43#8] = true := by decide
/-- 2.4, 41 FF 42 FF with OCAP = 4. -/
theorem test_rleEnc_overflow : leaves (exec .rleEnc (running (cap 4) 5#32 [0x41#8, 0xFF#8, 0x42#8, 0xFF#8])) 0x306#32
    (·.olen) 0#32 = true := by decide
/-- 2.5, 41 FF 42: the escape has one byte after it. -/
theorem test_rleDec_leniency : shows (exec .rleDec (running (cap 16) 6#32 [0x41#8, 0xFF#8, 0x42#8])) 0x02#32
    [0x41#8, 0xFF#8, 0x42#8] = true := by decide
set_option maxRecDepth 8192 in
/-- 2.5, FF 41 FF with OCAP = 16. -/
theorem test_rleDec_overflow : leaves (exec .rleDec (running (cap 16) 6#32 [0xFF#8, 0x41#8, 0xFF#8])) 0x306#32 (·.olen)
    0#32 = true := by decide
/-- 2.6. -/
theorem test_pairEnc : shows (exec .pairEnc (running (cap 16) 7#32 [0x41#8, 0x42#8, 0x42#8, 0x43#8])) 0x02#32
    [0x41#8, 0x01#8, 0x42#8, 0x02#8, 0x43#8, 0x01#8] = true := by decide
/-- 2.6, PAIR_PRESENT false. -/
theorem test_pairEnc_absent : leaves (exec .pairEnc (running noPair 7#32 [0x41#8])) 0x106#32 (·.ilen) 1#32 = true := by
  decide
/-- 2.6, a zero count and an unpaired last byte. -/
theorem test_pairDec : shows (exec .pairDec (running (cap 16) 8#32 [0x41#8, 0x00#8, 0x42#8, 0x01#8, 0x43#8])) 0x02#32
    [0x42#8, 0x43#8] = true := by decide
set_option maxRecDepth 8192 in
/-- 2.7, the default selection. -/
theorem test_compress_banana : leaves (exec .compress (running (cap 16) 9#32 banana)) 0x32#32 (·.pidx) 3#32 = true ∧
    shows (exec .compress (running (cap 16) 9#32 banana)) 0x32#32 bananaZ = true := by decide
set_option maxRecDepth 8192 in
/-- 2.7, mtf and rle. -/
theorem test_compressSub_mtf_rle :
    shows (exec (.compressSub { bwt := false, mtf := true, rle := true }) (running (cap 16) 0xD09#32 banana)) 0x12#32
      [0xFF#8, 0x62#8, 0x01#8, 0x6E#8, 0xFF#8, 0x01#8, 0x02#8] = true := by decide
/-- 2.7, the fallback. -/
theorem test_compressSub_fallback :
    shows (exec (.compressSub { bwt := false, mtf := false, rle := true })
      (running (cap 4) 0x909#32 [0x41#8, 0xFF#8, 0x42#8, 0xFF#8])) 0x31A#32 [0x41#8, 0xFF#8, 0x42#8, 0xFF#8] = true := by
  decide
/-- 2.8, first row with an unknown stage. -/
theorem test_decompress_banana :
    shows (exec .decompress (withPidx 3#32 (withStages 0x87#32 (running (cap 16) 0xA#32 bananaZ)))) 0x02#32 banana
      = true := by decide
/-- 2.8, InvalidMetadata before MissingPrimaryIndex. -/
theorem test_decompress_order :
    leaves (exec .decompress { running (cap 16) 0xA#32 bananaZ with stages := 0x07#32 }) 0x2006#32 (·.stages) 0x07#32
      = true := by decide
/-- 2.9, first row. -/
theorem test_frameEmit :
    shows (exec .frameEmit { running (cap 32) 0xB#32 (frame.drop 11) with mlen := 2#32 }) 0x02#32 frame = true := by decide
/-- 2.9, MLEN > ILEN. -/
theorem test_frameEmit_badLength :
    leaves (exec .frameEmit { running (cap 32) 0xB#32 [0x61#8, 0x62#8, 0x63#8] with mlen := 4#32 }) 0x206#32 (·.olen) 0#32
      = true := by decide
/-- 2.10, the row with a payload. -/
theorem test_frameParse : leaves (exec .frameParse (running (cap 32) 0xC#32 frame)) 0x02#32 (·.mlen) 2#32 = true ∧
    leaves (exec .frameParse (running (cap 32) 0xC#32 frame)) 0x02#32 (·.poff) 13#32 = true ∧
    leaves (exec .frameParse (running (cap 32) 0xC#32 frame)) 0x02#32 (·.plen) 3#32 = true := by decide
/-- 2.10, L = 2^32 − 11: no wrap. -/
theorem test_frameParse_no_wrap :
    leaves (exec .frameParse { running (cap 32) 0xC#32 (Config.magic ++ [0xFF#8, 0xFF#8, 0xFF#8, 0xF5#8] ++
      List.replicate 21 0x00#8) with mlen := 0x55#32 }) 0x1306#32 (·.mlen) 0x55#32 = true := by decide
/-- R123: one literal. -/
theorem test_rleLit : stands (exec (.rleLit 0x41#8) (staged .rleDec [0x41#8])) 1 [0x41#8] = true := by decide
/-- R72: c = 0 is one copy. -/
theorem test_rleEsc3 :
    stands (exec (.rleEsc3 0xFF#8 0x00#8) (staged .rleDec [0xFF#8, 0xFF#8, 0x00#8])) 3 [0xFF#8] = true := by
  decide
/-- R129: a count of 0 emits nothing. -/
theorem test_pairTok : stands (exec (.pairTok 0x41#8 0x00#8) (staged .pairDec [0x41#8, 0x00#8])) 2 [] = true := by decide
/-- R112: two codes 0xFF from the identity table (2.3, FF FF FF). -/
theorem test_mtfCode : stands (exec (.mtfCode 0xFF#8)
    { staged .mtfDec [0xFF#8] with work := { (staged .mtfDec [0xFF#8]).work with mtf := moveToFront Config.mtfIdentity 255 } })
    1 [0xFE#8] = true := by decide
/-- R77, R161: the header is eleven bytes. -/
theorem test_frameHdr : stands (exec (.frameHdr 2#32) (staged .frameParse frame)) 11 [] = true := by decide

/-! ## The host's address map: 00_scope.md R6, 20_memory.md R48 -/

/-- The last register, the last byte of each buffer, and the reset input on an instance of 16 bytes. -/
theorem test_hostAddress :
    (Access.regRead 0x20 32).hostAddress (cap 16).placement = some 0x4020 ∧
    (Access.ibufWrite 15 8 0x41#8).hostAddress (cap 16).placement = some 0x500F ∧
    (Access.obufRead 15 8).hostAddress (cap 16).placement = some 0x600F ∧
    Access.rst.hostAddress (cap 16).placement = none := by decide

/-! ## The host's side: 30_encoding.md R63, R85, R86 and 95_test_vectors.md 1.4 -/

theorem test_stage_list : stageListWord [.bwt, .mtf, .rle] = 0x07#32 ∧ stageListOf true 0#32 = [.none] ∧
    stageListOf false 0x87#32 = [.bwt, .mtf, .rle] := by decide
theorem test_load : HostLine.accesses (.load [0x41#8, 0x42#8]) =
    [.ibufWrite 0 8 0x41#8, .ibufWrite 1 8 0x42#8, .regWrite 0x10 32 2#32] := by decide
theorem test_stats_1000_500 : compressionStats 1000 500 =
    { ratio := 1 / 2, reduction := 50, saved := 500, effective := true } := by
  norm_num [compressionStats, compressionRatio]
theorem test_stats_0_0 : compressionStats 0 0 = { ratio := 1, reduction := 0, saved := 0, effective := false } := by
  simp [compressionStats, compressionRatio]

/-! ## Witnesses: the hypotheses of each statement, met together -/

/-- `IdleRegisterReadReturnsTheValue`: SEQ is IDLE, and every clause has an aligned offset. -/
theorem meets_IdleRegisterReadReturnsTheValue : State.reset.seq = .idle ∧
    ∀ o ∈ [0x00, 0x04, 0x08, 0x0C, 0x10, 0x14, 0x18, 0x1C, 0x20, 0x24, 0xFFFFFFFC], o % 4 = 0 := by decide

theorem meets_IdleRegisterWriteStoresByOffset : State.reset.seq = .idle ∧
    ∀ o ∈ [0x04, 0x08, 0x0C, 0x10, 0x14, 0x18, 0x1C, 0x20, 0x24], o % 4 = 0 ∧ o ≠ 0x00 := by decide

theorem meets_CommandWriteStartsTheCommand : (withPidx 6#32 (loaded (cap 16) bananaL)).seq = .idle := by decide

/-- A busy state of an instance of 16 bytes. -/
def busy : State := running (cap 16) 0x00000009#32 banana

theorem meets_BusyAccessChangesNothingOfTheBlock : busy.seq = .busy ∧ 0 % 4 = 0 ∧ 15 < busy.inst.icap ∧
    15 < busy.inst.ocap ∧ Access.regWrite 0x00 32 1#32 ≠ .rst ∧
    State.access (.regWrite 0x00 32 1#32) busy = .next busy := ⟨rfl, rfl, by decide, by decide, by decide, rfl⟩

/-- The invariant holds in a busy state with known input. -/
theorem inv_busy : Inv busy where
  inst_wf := by decide
  seq_busy := by decide
  busy_clear := by decide
  code_set := by decide
  fallback_code := by decide
  never_parseFailed := by decide
  stages_reserved := by decide
  ibuf_wf := by decide
  obuf_wf := by decide
  obuf_known := fun i => by simp [busy, running, loaded, State.resetOf]
  olen_le := by decide
  idle_clear := by decide
  mtf_perm := List.Perm.refl _
  op_end := rfl
  draws_fresh := by decide

theorem meets_BusyStatusReadShowsNoOutcome : Inv busy ∧ busy.seq = .busy ∧ 0x24 % 4 = 0 ∧ 0x24 ≠ 0x04 :=
  ⟨inv_busy, rfl, rfl, by decide⟩

/-- `BadAccessHasNoStep`: a width, an offset and an index for each clause, the index the first outside. -/
theorem meets_BadAccessHasNoStep : 8 ≠ 32 ∧ 2 % 4 ≠ 0 ∧ busy.inst.icap ≤ 16 ∧ busy.inst.ocap ≤ 16 ∧ 32 ≠ 8 := by decide

theorem meets_IdleBufferAccessMovesOneByte : (loaded (cap 16) banana).seq = .idle ∧
    15 < (loaded (cap 16) banana).inst.icap ∧ 15 < (loaded (cap 16) banana).inst.ocap ∧ 0 ≠ 15 := by decide

/-- `OutcomeStaysUntilTheNextStart`: an IDLE state with any other access, and a BUSY state with a CMD write. -/
theorem meets_OutcomeStaysUntilTheNextStart :
    (∃ t, State.access (.regWrite 0x10 32 5#32) State.reset = .next t ∧ Access.regWrite 0x10 32 5#32 ≠ .rst ∧
      ∀ width w, Access.regWrite 0x10 32 5#32 = .regWrite 0x00 width w → State.reset.seq = .busy) ∧
    ∃ t, State.access (.regWrite 0x00 32 5#32) busy = .next t ∧
      ∀ width w, Access.regWrite 0x00 32 5#32 = .regWrite 0x00 width w → busy.seq = .busy :=
  ⟨⟨_, rfl, by decide, fun _ _ h => by simp at h⟩, _, rfl, fun _ _ _ => rfl⟩

/-- `StepRunsTheDecodedInstruction`: one state for each clause. -/
theorem meets_StepRunsTheDecodedInstruction :
    (busy.seq = .busy ∧ busy.busyLeft = 0 ∧ busy.work.todo = [] ∧ decodeCommand busy.inst busy.cmd = .ok .compress) ∧
    (∃ s : State, s.seq = .busy ∧ s.busyLeft = 0 ∧ s.work.todo = [.rleDec] ∧ s.work.ip < s.work.src.length ∧
      decodeStream s.inst .rle (s.work.src.drop s.work.ip) = .ok (.rleLit 0xFF#8, [])) ∧
    (∃ s : State, s.seq = .busy ∧ s.busyLeft = 0 ∧ s.work.todo = [.pairDec] ∧ s.work.ip < s.work.src.length ∧
      decodeStream s.inst .pair (s.work.src.drop s.work.ip) = .ok (.pairTok 0x41#8 0x00#8, [])) ∧
    (∃ s : State, s.seq = .busy ∧ s.busyLeft = 0 ∧ s.work.todo = [.mtfDec] ∧ s.work.ip < s.work.src.length ∧
      decodeStream s.inst .mtf (s.work.src.drop s.work.ip) = .ok (.mtfCode 0xFF#8, [])) ∧
    (∃ s : State, s.seq = .busy ∧ s.busyLeft = 0 ∧ s.work.todo = [.frameParse] ∧ s.work.hdr = none ∧
      decodeStream s.inst .frame (s.work.src.drop s.work.ip) = .ok (.frameHdr 2#32, frame.drop 11)) :=
  ⟨by decide, ⟨staged .rleDec [0xFF#8], by decide⟩, ⟨staged .pairDec [0x41#8, 0x00#8], by decide⟩,
    ⟨staged .mtfDec [0xFF#8], by decide⟩, ⟨staged .frameParse frame, by decide⟩⟩

theorem meets_HostTurnPerformsTheOldestAccess :
    (State.reset.seq = .idle ∧ State.reset.inbox = []) ∧
    ({ State.reset with inbox := [.rst] }.seq = .idle ∧ { State.reset with inbox := [.rst] }.inbox = .rst :: []) ∧
    ({ busy with busyLeft := 1 }.seq = .busy ∧ { busy with busyLeft := 1 }.busyLeft = 0 + 1 ∧
      { busy with busyLeft := 1 }.inbox = []) ∧
    ({ busy with busyLeft := 1, inbox := [.rst] }.seq = .busy ∧
      { busy with busyLeft := 1, inbox := [.rst] }.inbox = .rst :: []) := by decide

theorem meets_IllegalWordEndsWithIllegalCommand :
    (running noPair 0x00000007#32 banana).seq = .busy ∧ (running noPair 0x00000007#32 banana).busyLeft = 0 ∧
    (running noPair 0x00000007#32 banana).work.todo = [] ∧
    decodeCommand noPair (running noPair 0x00000007#32 banana).cmd = .error .pairAbsent := by decide

/-- `ErrorCompletionChangesOnlyItsFields`: a line and a code for each clause. -/
theorem meets_ErrorCompletionChangesOnlyItsFields : ErrorLine.other ≠ .frameParse ∧
    ECode.badLength ≠ .illegalCommand := by decide

/-- A busy state whose ILEN is one more than ICAP. -/
def tooLong : State := { busy with ilen := 17#32 }

theorem meets_EveryCommandTestsItsLengthFirst : { busy with mlen := 7#32 }.inputLength < (7#32).toNat ∧
    ∀ i ∈ [Instr.bwtEnc, .bwtDec, .mtfEnc, .mtfDec, .rleEnc, .rleDec, .pairEnc,
    .pairDec, .compress, .compressSub StageSet.all, .decompress, .frameEmit, .frameParse],
    i.stream = none ∧ i.wf tooLong.inst = true ∧ tooLong.inst.icap < tooLong.inputLength := by decide

theorem meets_InstructionsWriteOnlyTheirRegisters :
    (∃ t, exec .frameParse busy = .next t) ∧ (∃ t, exec .bwtEnc busy = .next t) ∧
    ∃ t, exec (.rleLit 0x41#8) (staged .rleDec [0x41#8]) = .next t ∧ (Instr.rleLit 0x41#8).stream ≠ none :=
  ⟨⟨_, rfl⟩, ⟨_, rfl⟩, _, rfl, by decide⟩

theorem meets_EveryCommandCompletes :
    { busy with busyLeft := 3, inbox := [.regRead 0x04 32] }.seq = .busy ∧
    ∀ a ∈ { busy with busyLeft := 3, inbox := [.regRead 0x04 32] }.inbox, ∀ t : State, t.inst = busy.inst →
      ∃ u, State.access a t = .next u := by
  refine ⟨rfl, fun a ha t _ => ?_⟩
  simp only [List.mem_singleton] at ha
  subst ha
  exact ⟨_, rfl⟩

/-- A started MTF_DEC. -/
def started : State := { running (cap 16) 4#32 banana with work := Work.load [.mtfDec] banana 0 }

theorem meets_StagesComputeTheResult : started.inst.wf ∧ started.seq = .busy ∧ started.busyLeft = 0 ∧
    decodeCommand started.inst started.cmd = .ok .mtfDec ∧ Instr.mtfDec ≠ .frameParse ∧
    started.work = started.startWork started.cmd ∧ started.status.err = false ∧ started.status.fb = false ∧
    ∃ u, exec .mtfDec started = .next u ∧ u.status.err = false ∧ u.status.fb = false :=
  ⟨by decide, rfl, rfl, by decide, by decide, rfl, rfl, rfl, _, rfl, rfl, rfl⟩

/-- A state with exactly ICAP = 16 bytes of input: the last length that is no BadLength. -/
def full : State := { busy with ilen := 16#32 }

theorem meets_BwtEncWritesColumnAndIndex : tooLong.inst.wf ∧ tooLong.inst.icap < tooLong.inputLength ∧ full.inst.wf ∧
    full.inputLength ≤ full.inst.icap := by decide

theorem meets_BwtDecInvertsOrReports : tooLong.inst.wf ∧ tooLong.inst.icap < tooLong.inputLength ∧
    (full.inputLength ≤ full.inst.icap ∧ full.status.pidxv = false) ∧
    (∃ s : State, s.inst.wf ∧ s.inputLength ≤ s.inst.icap ∧ s.status.pidxv = true ∧ 0 < s.inputLength ∧
      s.inputLength ≤ s.pidx.toNat) ∧
    (∃ s : State, s.inst.wf ∧ s.inputLength ≤ s.inst.icap ∧ s.status.pidxv = true ∧ s.inputLength = 0) ∧
    ∃ s : State, s.inst.wf ∧ s.inputLength ≤ s.inst.icap ∧ s.status.pidxv = true ∧ s.pidx.toNat < s.inputLength :=
  ⟨by decide, by decide, by decide, ⟨withPidx 16#32 full, by decide⟩,
    ⟨withPidx 77#32 (running (cap 16) 2#32 []), by decide⟩, withPidx 15#32 full, by decide⟩

theorem meets_MtfEncWritesPositions : tooLong.inst.wf ∧ tooLong.inst.icap < tooLong.inputLength ∧
    full.inputLength ≤ full.inst.icap := by decide

theorem meets_MtfDecWritesValues : tooLong.inst.wf ∧ tooLong.inst.icap < tooLong.inputLength ∧
    full.inputLength ≤ full.inst.icap := by decide

/-- The four bytes of program P5 on an instance of four bytes: their RLE encoding needs eight. -/
def fourBytes : State := running (cap 4) 5#32 [0x41#8, 0xFF#8, 0x42#8, 0xFF#8]

theorem meets_RleEncWritesTokensOrReports : tooLong.inst.icap < tooLong.inputLength ∧
    (fourBytes.inst.wf ∧ fourBytes.inputLength ≤ fourBytes.inst.icap ∧
      fourBytes.inst.ocap < (rleEncode fourBytes.input).length) ∧
    ∃ s : State, s.inst.wf ∧ s.inputLength ≤ s.inst.icap ∧ (rleEncode s.input).length ≤ s.inst.ocap :=
  ⟨by decide, by decide, running (cap 8) 5#32 [0x41#8, 0xFF#8, 0x42#8, 0xFF#8], by decide⟩

/-- Three bytes that expand to three, on an instance of two and of three bytes of output. -/
theorem meets_RleDecExpandsOrReports : tooLong.inst.icap < tooLong.inputLength ∧
    (∃ s : State, s.inst.wf ∧ s.inputLength ≤ s.inst.icap ∧ s.inst.ocap < (rleDecode s.input).length) ∧
    ∃ s : State, s.inst.wf ∧ s.inputLength ≤ s.inst.icap ∧ (rleDecode s.input).length ≤ s.inst.ocap :=
  ⟨by decide, ⟨running (cap 3) 6#32 [0xFF#8, 0x41#8, 0x03#8], by decide⟩,
    running (cap 3) 6#32 [0xFF#8, 0x41#8, 0x02#8], by decide⟩

theorem meets_PairEncWritesPairsOrReports : (noPair.wf ∧ noPair.pairPresent = false) ∧
    (tooLong.inst.pairPresent = true ∧ tooLong.inst.icap < tooLong.inputLength) ∧
    (∃ s : State, s.inst.wf ∧ s.inst.pairPresent = true ∧ s.inputLength ≤ s.inst.icap ∧
      s.inst.ocap < (pairEncode s.input).length) ∧
    ∃ s : State, s.inst.wf ∧ s.inst.pairPresent = true ∧ s.inputLength ≤ s.inst.icap ∧
      (pairEncode s.input).length ≤ s.inst.ocap :=
  ⟨by decide, by decide, ⟨running (cap 1) 7#32 [0x41#8], by decide⟩, running (cap 2) 7#32 [0x41#8], by decide⟩

theorem meets_PairDecExpandsOrReports : (noPair.wf ∧ noPair.pairPresent = false) ∧
    (tooLong.inst.pairPresent = true ∧ tooLong.inst.icap < tooLong.inputLength) ∧
    (∃ s : State, s.inst.wf ∧ s.inst.pairPresent = true ∧ s.inputLength ≤ s.inst.icap ∧
      s.inst.ocap < (pairDecode s.input).length) ∧
    ∃ s : State, s.inst.wf ∧ s.inst.pairPresent = true ∧ s.inputLength ≤ s.inst.icap ∧
      (pairDecode s.input).length ≤ s.inst.ocap :=
  ⟨by decide, by decide, ⟨running (cap 2) 8#32 [0x41#8, 0x03#8], by decide⟩, running (cap 2) 8#32 [0x41#8, 0x02#8],
    by decide⟩

/-- `CompressWritesPayloadAndMetadata`: both forms, a length one too long, a payload one too long, and one that fits
exactly. -/
theorem meets_CompressWritesPayloadAndMetadata :
    (Instr.compress = .compress ∧ StageSet.all = { bwt := true, mtf := true, rle := true }) ∧
    (tooLong.inst.wf ∧ tooLong.inst.icap < tooLong.inputLength) ∧
    (∃ s : State, s.inst.wf ∧ s.inputLength ≤ s.inst.icap ∧ s.inst.ocap < (rleEncode s.input).length) ∧
    ∃ s : State, s.inst.wf ∧ s.inputLength ≤ s.inst.icap ∧ (rleEncode s.input).length ≤ s.inst.ocap :=
  ⟨by decide, by decide, ⟨running (cap 7) 0x909#32 [0x41#8, 0xFF#8, 0x42#8, 0xFF#8], by decide⟩,
    running (cap 8) 0x909#32 [0x41#8, 0xFF#8, 0x42#8, 0xFF#8], by decide⟩

/-- `DecompressRestoresOrReports`: one state for each clause. -/
theorem meets_DecompressRestoresOrReports :
    (tooLong.inst.wf ∧ tooLong.inst.icap < tooLong.inputLength) ∧
    (full.inputLength ≤ full.inst.icap ∧ full.status.stgv = false) ∧
    (∃ s : State, s.inst.wf ∧ s.inputLength ≤ s.inst.icap ∧ s.status.stgv = true ∧ s.stages.getLsbD 0 = true ∧
      s.status.pidxv = false) ∧
    (∃ s : State, s.inst.wf ∧ s.inputLength ≤ s.inst.icap ∧ s.status.stgv = true ∧ s.stages = 0x04#32 ∧
      s.inst.ocap < (rleDecode s.input).length) ∧
    (∃ s : State, s.inst.wf ∧ s.inputLength ≤ s.inst.icap ∧ s.status.stgv = true ∧ s.stages = 0x01#32 ∧
      s.status.pidxv = true ∧ 0 < s.input.length ∧ s.input.length ≤ s.pidx.toNat) ∧
    (∃ s : State, s.inst.wf ∧ s.inputLength ≤ s.inst.icap ∧ s.status.stgv = true ∧ s.stages = 0x01#32 ∧
      s.status.pidxv = true ∧ s.pidx.toNat < s.input.length) ∧
    ∃ s : State, s.inst.wf ∧ s.inputLength ≤ s.inst.icap ∧ s.status.stgv = true ∧ s.stages = 0xF8#32 :=
  ⟨by decide, by decide, ⟨withStages 7#32 full, by decide⟩,
    ⟨withStages 4#32 (running (cap 3) 10#32 [0xFF#8, 0x41#8, 0x03#8]), by decide⟩,
    ⟨withPidx 6#32 (withStages 1#32 (running (cap 16) 10#32 bananaL)), by decide⟩,
    ⟨withPidx 5#32 (withStages 1#32 (running (cap 16) 10#32 bananaL)), by decide⟩,
    withStages 0xF8#32 full, by decide⟩

theorem meets_UnknownStagesAreSkipped : ∀ i, i < 3 → (0x87#32).getLsbD i = (withStages 7#32 busy).stages.getLsbD i := by
  decide

theorem meets_FrameEmitPrependsTheHeader : tooLong.inst.icap < tooLong.inputLength ∧
    (∃ s : State, s.inst.wf ∧ s.inputLength < s.mlen.toNat) ∧
    (∃ s : State, s.inst.wf ∧ s.inputLength ≤ s.inst.icap ∧ s.mlen.toNat ≤ s.inputLength ∧
      s.inst.ocap < 11 + s.inputLength) ∧
    ∃ s : State, s.inst.wf ∧ s.inputLength ≤ s.inst.icap ∧ s.mlen.toNat ≤ s.inputLength ∧
      11 + s.inputLength ≤ s.inst.ocap :=
  ⟨by decide, ⟨{ busy with mlen := 7#32 }, by decide⟩, ⟨{ busy with mlen := 6#32 }, by decide⟩,
    { busy with mlen := 5#32, ilen := 5#32 }, by decide⟩

/-- A busy FRAME_PARSE over the first `n` bytes of a frame whose length field says 5: all of its content is metadata. -/
def parsing (n : Nat) : State :=
  running (cap 16) 0xC#32 ((Config.magic ++ [0x00#8, 0x00#8, 0x00#8, 0x05#8] ++ frame.drop 11).take n)

theorem meets_FrameParseReportsTheFirstFault : tooLong.inst.wf ∧ tooLong.inst.icap < tooLong.inputLength ∧
    (parsing 6).inputLength < 7 ∧
    (7 ≤ full.inputLength ∧ full.input.take 6 ≠ Config.magic.take 6) ∧
    (7 ≤ (parsing 10).inputLength ∧ (parsing 10).inputLength < 11 ∧ (parsing 10).input.take 7 = Config.magic) ∧
    (11 ≤ (parsing 15).inputLength ∧ (parsing 15).inputLength < 11 + ((parsing 15).ibufByte 10).toNat) ∧
    (11 + ((parsing 16).ibufByte 10).toNat ≤ (parsing 16).inputLength ∧
      (parsing 16).inputLength ≤ (parsing 16).inst.icap ∧ (parsing 16).input.take 7 = Config.magic) := by decide

theorem meets_MtfCodeEmitsAndMovesToFront : busy.work.mtf.length = 256 := mtfIdentity_length

theorem meets_ComparatorFindsTheFirstDifference : 0 < banana.length ∧ 5 < banana.length := by decide

theorem meets_RotationOrderIsTheStableOrder : [0, 1].Perm (List.range 2) ∧
    [0, 1].Pairwise (fun a c => compareRotations [0x61#8, 0x61#8] a c = .lt ∨
      compareRotations [0x61#8, 0x61#8] a c = .eq ∧ a < c) := by decide

theorem meets_PrimaryIndexIsTheRankOfOffsetZero : 0 < [0x61#8, 0x61#8].length ∧
    (rotationOrder [0x61#8, 0x61#8])[1]? = some 1 ∧ compareRotations [0x61#8, 0x61#8] 1 0 = .eq := by decide

theorem meets_LastColumnPrecedesEachRotation : (rotationOrder banana)[5]? = some 2 := by decide

theorem meets_InverseWalkFollowsTheMap : 5 < bananaL.length ∧ 0 < bananaL.length := by decide

theorem meets_DecodingAtARankGivesThatRotation : (rotationOrder banana)[0]? = some 5 := by decide

/-- `StatisticsFollowTheRatio`: the least original size of its first clause. -/
theorem meets_StatisticsFollowTheRatio : 0 < 1 := by decide

theorem meets_MtfRoundTripsBothWays : Config.mtfIdentity.Perm Config.mtfIdentity ∧ 255 < 256 :=
  ⟨List.Perm.refl _, by decide⟩

theorem meets_MtfStepsEmitPositionAndValue : Config.mtfIdentity.Nodup ∧ Config.mtfIdentity.length = 256 ∧
    Config.mtfIdentity[255]? = some 0xFF#8 := 
  ⟨mtfIdentity_nodup, by simp, by simp [Config.mtfIdentity]⟩

theorem meets_RleEncodeConcatenatesTheTokens : 1 ≤ 1 ∧ 1 ≤ 255 ∧ 255 ≤ 255 := by decide

theorem meets_RleDecodeReadsTokenByToken : (0x41#8 : Byte) ≠ 0xFF#8 ∧ [0xFF#8].length < 2 := by decide

theorem meets_RleRoundTripAndSize : 2 ≤ 2 ∧ 2 ≤ 255 ∧ 255 ≤ 255 := by decide

/-- `CompressThenDecompress`: a COMPRESS.SUB that selects MTF, and the state of a host that loaded its result. -/
theorem meets_CompressThenDecompress : ∃ (s t u : State) (i : Instr), Inv s ∧ s.seq = .busy ∧
    (i = .compress ∨ ∃ sel, i = .compressSub sel) ∧ s.inputLength ≤ s.inst.icap ∧ exec i s = .next t ∧
    t.olen.toNat ≤ t.inst.icap ∧ u.inst = t.inst ∧ u.status.stgv = t.status.stgv ∧ u.status.pidxv = t.status.pidxv ∧
    u.status.err = false ∧ u.stages = t.stages ∧ u.pidx = t.pidx ∧ u.ilen = t.olen ∧
    ∀ j, j < t.olen.toNat → u.ibufByte j = t.obufByte j := by
  let t := (State.compressed { bwt := false, mtf := true, rle := false } busy).setStgv true |>.complete
  exact ⟨busy, t, { t with ibuf := t.obuf, ibufDraw := t.obufDraw, ilen := t.olen },
    .compressSub { bwt := false, mtf := true, rle := false }, inv_busy, rfl, .inr ⟨_, rfl⟩, by decide, rfl, by decide, rfl,
    rfl, rfl, rfl, rfl, rfl, rfl, fun _ _ => rfl⟩

/-- `FrameEmitThenParse`: five bytes of content, two of them metadata, and a host that loaded the frame. -/
theorem meets_FrameEmitThenParse : ∃ s t u : State, s.inst.wf ∧ s.mlen.toNat ≤ s.inputLength ∧
    11 + s.inputLength ≤ s.inst.icap ∧ exec .frameEmit s = .next t ∧ u.inst = t.inst ∧ u.ilen = t.olen ∧
    u.status.err = false ∧ ∀ j, j < t.olen.toNat → u.ibufByte j = t.obufByte j := by
  let s : State := { running (cap 16) 0xB#32 (frame.drop 11) with mlen := 2#32 }
  let t := (s.out (frameOf s.mlen s.input)).complete
  exact ⟨s, t, { t with ibuf := t.obuf, ibufDraw := t.obufDraw, ilen := t.olen }, by decide, by decide, by decide, rfl, rfl,
    rfl, rfl, fun _ _ => rfl⟩

theorem meets_BodyCheckNeverWraps : (2#32).toNat ≤ [0x7B#8, 0x7D#8].length ∧
    [0x7B#8, 0x7D#8].length < (0xFFFFFFFF#32).toNat := by decide

theorem meets_EveryStepKeepsTheInvariant : ∃ t, Inv busy ∧ step busy = .next t := ⟨_, inv_busy, rfl⟩

theorem meets_ResetMeetsTheInvariant : (cap 1).wf ∧ (cap (2 ^ 31 - 1)).wf := by decide

end Sys2Proof.Tests
end

section
/-! Which command words the decoder rejects (30_encoding.md R62), and the step the sequencer takes on its turn. -/

namespace Sys2Proof

/-- A field of a word is not 0 exactly when one of its bits is 1. -/
theorem extractLsb'_ne_zero_iff {w : Nat} (x : BitVec w) (lo n : Nat) :
    x.extractLsb' lo n ≠ 0#n ↔ ∃ i, lo ≤ i ∧ i < lo + n ∧ x.getLsbD i = true := by
  rw [not_iff_comm]
  constructor
  · intro h
    apply BitVec.eq_of_getLsbD_eq
    intro j hj
    have hbit : x.getLsbD (lo + j) ≠ true := fun hx => h ⟨lo + j, by omega, by omega, hx⟩
    simpa [hj] using hbit
  · rintro h ⟨i, hlo, hhi, hx⟩
    have hbit : (x.extractLsb' lo n).getLsbD (i - lo) = true := by
      simpa [BitVec.getLsbD_extractLsb', Nat.add_sub_cancel' hlo, hx] using (by omega : i - lo < n)
    simp [h] at hbit

/-- An opcode other than COMPRESS (0x09), which is decoded before this table is asked, is rejected as unassigned, or as a
pair command on an instance without the pair variant. -/
theorem decodeOpcode_error_iff (p : Config.Instance) (op : Byte) :
    (op.toNat ≠ 0x09 ∧ ∃ e, decodeOpcode p op = .error e) ↔
      (op.toNat = 0x00 ∨ 0x0D ≤ op.toNat) ∨ ((op.toNat = 0x07 ∨ op.toNat = 0x08) ∧ p.pairPresent = false) := by
  unfold decodeOpcode
  split
  case h_7 h => cases p.pairPresent <;> simp [h]
  case h_8 h => cases p.pairPresent <;> simp [h]
  case h_12 =>
    simp only [imp_false] at *
    have hrest : op.toNat ≠ 0x09 ↔ op.toNat = 0x00 ∨ 0x0D ≤ op.toNat := by omega
    simp [*]
  all_goals simp [*]

/-- The tests of the decoder on a command word, in the order of R62: the opcode, bits 31:12, bits 11:8 and bits 11:9. -/
theorem decodeCommand_error_iff (p : Config.Instance) (w : Word) :
    (∃ e, decodeCommand p w = .error e) ↔
      (w.extractLsb' 0 8 ≠ 0x09#8 ∧ ∃ e, decodeOpcode p (w.extractLsb' 0 8) = .error e) ∨
      w.extractLsb' 12 20 ≠ 0#20 ∨
      (w.extractLsb' 0 8 ≠ 0x09#8 ∧ w.extractLsb' 8 4 ≠ 0#4) ∨
      (w.extractLsb' 0 8 = 0x09#8 ∧ w.getLsbD 8 = false ∧ w.extractLsb' 9 3 ≠ 0#3) := by
  unfold decodeCommand
  split_ifs with hreserved hop hsub hmask hfields
  · simp [hreserved]
  · simp [hreserved, hop, hsub, -BitVec.getLsbD_eq_getElem]
  · simp [hreserved, hop, hmask]
  · simp [hop, hsub, hmask, -BitVec.getLsbD_eq_getElem]
  · simp [hop, hfields]
  · simp [hreserved, hop, hfields]

end Sys2Proof

namespace Sys2Proof.Machine

/-- A busy block whose busy time is used up takes the sequencer's turn. -/
theorem step_eq_sequencerTurn {s : State} (hseq : s.seq = .busy) (hleft : s.busyLeft = 0) :
    step s = s.sequencerTurn := by
  rw [step, State.turn, hseq, hleft]

/-- With no stage left to run, a word in CMD that the decoder rejects is fetched as illegal. -/
theorem fetch_illegal {s : State} {e : Reject} (htodo : s.work.todo = [])
    (hdec : decodeCommand s.inst s.cmd = .error e) : s.fetch = .illegal := by
  rw [State.fetch, htodo, hdec]

/-- On the sequencer's turn an illegal word in CMD takes the error completion and nothing else (60_exceptions.md
R182). -/
theorem step_illegalCommand {s : State} {e : Reject} (hseq : s.seq = .busy) (hleft : s.busyLeft = 0)
    (htodo : s.work.todo = []) (hdec : decodeCommand s.inst s.cmd = .error e) :
    step s = .next (s.raise .other .illegalCommand) := by
  rw [step_eq_sequencerTurn hseq hleft, State.sequencerTurn, fetch_illegal htodo hdec]

/-- Settles O13: the tests of the decoder, with each field read bit by bit, are the five cases of R62. -/
theorem illegalCommandWords : Obligations.IllegalCommandWords := by
  refine ⟨fun s e hseq hleft htodo hdec => step_illegalCommand hseq hleft htodo hdec, fun p w => ?_⟩
  have hcompress : w.extractLsb' 0 8 = 0x09#8 ↔ (w.extractLsb' 0 8).toNat = 0x09 := BitVec.toNat_inj.symm
  rw [decodeCommand_error_iff, ne_eq (w.extractLsb' 0 8), hcompress, decodeOpcode_error_iff, or_assoc,
    extractLsb'_ne_zero_iff w 12 20, extractLsb'_ne_zero_iff w 8 4, extractLsb'_ne_zero_iff w 9 3]

end Sys2Proof.Machine
end

section
/-! The comparator of rotations (40_bwt.md R90) decides at the first difference, and is the lexicographic order of the
rotations. -/

namespace Sys2Proof.Machine

/-- Two offsets compare EQ exactly when the next `k` byte pairs are equal. -/
theorem compareFrom_eq_iff (b : List Byte) (a c i k : Nat) :
    compareFrom b a c i k = .eq ↔ ∀ m < k, rotationByte b a (i + m) = rotationByte b c (i + m) := by
  induction k generalizing i with
  | zero => simp [compareFrom]
  | succ k ih =>
    specialize ih (i + 1)
    simp only [Nat.add_assoc, Nat.add_comm 1] at ih
    simp only [compareFrom, Nat.forall_lt_succ_left, Nat.add_zero]
    split_ifs with hlt hgt
    · simp [BitVec.ne_of_lt hlt]
    · simp [(BitVec.ne_of_lt hgt).symm]
    · simp [ih, BitVec.le_antisymm (BitVec.not_lt.mp hgt) (BitVec.not_lt.mp hlt)]

/-- The comparator gives LT exactly when the first of the next `k` byte pairs that differ is in ascending order. -/
theorem compareFrom_lt_iff (b : List Byte) (a c i k : Nat) :
    compareFrom b a c i k = .lt ↔ ∃ m < k, (∀ j < m, rotationByte b a (i + j) = rotationByte b c (i + j)) ∧
      rotationByte b a (i + m) < rotationByte b c (i + m) := by
  induction k generalizing i with
  | zero => simp [compareFrom]
  | succ k ih =>
    specialize ih (i + 1)
    simp only [Nat.add_assoc, Nat.add_comm 1] at ih
    simp only [compareFrom, Nat.exists_lt_succ_left, Nat.forall_lt_succ_left, Nat.add_zero]
    split_ifs with hlt hgt
    · simp [hlt]
    · simp [hlt, (BitVec.ne_of_lt hgt).symm]
    · simp [ih, BitVec.le_antisymm (BitVec.not_lt.mp hgt) (BitVec.not_lt.mp hlt)]

/-- Comparing the offsets the other way round swaps LT and GT. -/
theorem compareFrom_swap (b : List Byte) (a c i k : Nat) :
    (compareFrom b a c i k).swap = compareFrom b c a i k := by
  induction k generalizing i with
  | zero => rfl
  | succ k ih =>
    simp only [compareFrom]
    split_ifs with hlt hgt
    · exact absurd hgt (BitVec.lt_asymm hlt)
    · rfl
    · rfl
    · exact ih (i + 1)

theorem compareRotations_swap (b : List Byte) (a c : Nat) :
    (compareRotations b a c).swap = compareRotations b c a := compareFrom_swap ..

theorem compareRotations_eq_iff (b : List Byte) (a c : Nat) :
    compareRotations b a c = .eq ↔ ∀ i < b.length, rotationByte b a i = rotationByte b c i := by
  simpa [compareRotations] using compareFrom_eq_iff b a c 0 b.length

theorem compareRotations_lt_iff (b : List Byte) (a c : Nat) :
    compareRotations b a c = .lt ↔ ∃ i < b.length, (∀ j < i, rotationByte b a j = rotationByte b c j) ∧
      rotationByte b a i < rotationByte b c i := by
  simpa [compareRotations] using compareFrom_lt_iff b a c 0 b.length

theorem compareRotations_gt_iff (b : List Byte) (a c : Nat) :
    compareRotations b a c = .gt ↔ compareRotations b c a = .lt := by
  rw [← compareRotations_swap b a c, Ordering.swap_eq_lt]

/-- Settles O41: the comparator by the first difference, each byte pair compared in turn. -/
theorem comparatorFindsTheFirstDifference : Obligations.ComparatorFindsTheFirstDifference := by
  intro b a c _ _ x y
  refine ⟨compareRotations_eq_iff b a c, compareRotations_lt_iff b a c, ?_⟩
  rw [compareRotations_gt_iff, compareRotations_lt_iff]
  simp only [eq_comm (a := x _)]
  rfl

/-- The rotation of `b` at offset `a`, its bytes as naturals: a list Mathlib orders lexicographically. -/
def rotationRow (b : List Byte) (a : Nat) : List Nat := (b.rotate a).map BitVec.toNat

@[simp] theorem rotationRow_length (b : List Byte) (a : Nat) : (rotationRow b a).length = b.length := by
  simp [rotationRow]

theorem rotationRow_getElem (b : List Byte) (a : Nat) {i : Nat} (h : i < (rotationRow b a).length) :
    (rotationRow b a)[i] = (rotationByte b a i).toNat := by
  have hn : 0 < b.length := by simp at h; omega
  simp [rotationRow, rotationByte, List.getElem_rotate, Nat.add_comm i a, Nat.mod_lt _ hn]

theorem rotationRow_inj {b : List Byte} {a c : Nat} : rotationRow b a = rotationRow b c ↔ b.rotate a = b.rotate c :=
  (List.map_injective_iff.mpr fun _ _ => BitVec.eq_of_toNat_eq).eq_iff

/-- The comparator's LT is the lexicographic order of the rotations. -/
theorem compareRotations_lt_iff_row (b : List Byte) (a c : Nat) :
    compareRotations b a c = .lt ↔ rotationRow b a < rotationRow b c := by
  rw [compareRotations_lt_iff, List.lt_iff_exists]
  simp [rotationRow_getElem, BitVec.toNat_inj, BitVec.lt_def, and_left_comm]

/-- The comparator's EQ is the equality of the rotations. -/
theorem compareRotations_eq_iff_row (b : List Byte) (a c : Nat) :
    compareRotations b a c = .eq ↔ rotationRow b a = rotationRow b c := by
  rw [compareRotations_eq_iff, List.ext_getElem_iff]
  simp [rotationRow_getElem, BitVec.toNat_inj]

end Sys2Proof.Machine
end

section
/-! Lists of offsets sorted by a key: the offsets 0 .. n − 1 sorted by an injective key are strictly sorted, and the place
of an offset among them is the number of offsets with a smaller key. -/

namespace Sys2Proof.Machine

variable {κ : Type} [LinearOrder κ] {key : Nat → κ}

/-- Sorting 0 .. n − 1 by an injective key leaves them in strictly ascending key. -/
theorem insertionSort_range_pairwise_key_lt (hinj : key.Injective) {r : Nat → Nat → Prop} [DecidableRel r]
    (hr : ∀ a c, r a c ↔ key a ≤ key c) (n : Nat) :
    ((List.range n).insertionSort r).Pairwise fun a c => key a < key c := by
  have : Std.Total r := ⟨fun a c => by simpa only [hr] using le_total (key a) (key c)⟩
  have : IsTrans Nat r := ⟨fun a c d => by simpa only [hr] using le_trans⟩
  have hnodup : ((List.range n).insertionSort r).Nodup :=
    (List.perm_insertionSort r _).nodup_iff.mpr List.nodup_range
  refine ((List.pairwise_insertionSort r (List.range n)).and hnodup).imp fun {a c} h => ?_
  exact lt_of_le_of_ne ((hr a c).mp h.1) (hinj.ne h.2)

/-- Two permutations of one another in ascending key are the same list. -/
theorem eq_of_perm_of_pairwise_key_lt {l m : List Nat} (hp : l.Perm m) (hl : l.Pairwise fun a c => key a < key c)
    (hm : m.Pairwise fun a c => key a < key c) : l = m :=
  hp.eq_of_pairwise (fun _ _ _ _ h h' => absurd h' h.not_gt) hl hm

/-- In a list in ascending key, an entry stands after exactly the entries with a smaller key. -/
theorem countP_key_lt_of_getElem? {l : List Nat} (hl : l.Pairwise fun a c => key a < key c) {k i : Nat}
    (hk : l[k]? = some i) : l.countP (fun j => decide (key j < key i)) = k := by
  induction l generalizing k with
  | nil => simp at hk
  | cons a l ih =>
    obtain ⟨ha, htail⟩ := List.pairwise_cons.mp hl
    cases k with
    | zero =>
      obtain rfl : a = i := by simpa using hk
      simpa [List.countP_cons, List.countP_eq_zero] using fun j hj => (ha j hj).le
    | succ k =>
      rw [List.getElem?_cons_succ] at hk
      rw [List.countP_cons, ih htail hk, if_pos (by simpa using ha i (List.mem_of_getElem? hk))]

end Sys2Proof.Machine
end

section
/-! The rotation order (40_bwt.md R91), the primary index (R92) and the last column (R99). -/

namespace Sys2Proof.Machine

/-- What OFS is sorted by: the rotation, and the offset among equal rotations. -/
def rotationKey (b : List Byte) (a : Nat) : List Nat ×ₗ Nat := toLex (rotationRow b a, a)

theorem rotationKey_injective (b : List Byte) : (rotationKey b).Injective := fun _ _ h =>
  congrArg (fun x => (ofLex x).2) h

/-- The order R91 asks for between two ranks is the strict order of the keys. -/
theorem rotationKey_lt_iff (b : List Byte) (a c : Nat) :
    rotationKey b a < rotationKey b c ↔ compareRotations b a c = .lt ∨ compareRotations b a c = .eq ∧ a < c := by
  rw [compareRotations_lt_iff_row, compareRotations_eq_iff_row]
  exact Prod.Lex.toLex_lt_toLex

theorem ranksBefore_iff (b : List Byte) (a c : Nat) :
    ranksBefore b a c = true ↔ rotationKey b a ≤ rotationKey b c := by
  rw [rotationKey, rotationKey, Prod.Lex.toLex_le_toLex, ← compareRotations_lt_iff_row,
    ← compareRotations_eq_iff_row, ranksBefore]
  split <;> simp [*]

theorem rotationOrder_pairwise (b : List Byte) :
    (rotationOrder b).Pairwise fun a c => rotationKey b a < rotationKey b c :=
  insertionSort_range_pairwise_key_lt (rotationKey_injective b) (ranksBefore_iff b) b.length

/-- Settles O42: OFS is sorted strictly by its key, and so it is the only such permutation. -/
theorem rotationOrderIsTheStableOrder : Obligations.RotationOrderIsTheStableOrder := by
  intro b l
  simp only [← rotationKey_lt_iff]
  constructor
  · rintro ⟨hperm, hsorted⟩
    exact eq_of_perm_of_pairwise_key_lt (hperm.trans (rotationOrder_perm b).symm) hsorted (rotationOrder_pairwise b)
  · rintro rfl
    exact ⟨rotationOrder_perm b, rotationOrder_pairwise b⟩

/-- The primary index is the rank of offset 0. -/
theorem rotationOrder_primaryIndex {b : List Byte} (hb : 0 < b.length) :
    (rotationOrder b)[primaryIndex b]? = some 0 :=
  List.getElem?_idxOf ((rotationOrder_perm b).mem_iff.mpr (List.mem_range.mpr hb))

/-- No rotation equal to the input stands before offset 0, the smallest of the offsets. -/
theorem primaryIndex_le_of_eq {b : List Byte} (hb : 0 < b.length) {r a : Nat} (hr : (rotationOrder b)[r]? = some a)
    (heq : compareRotations b a 0 = .eq) : primaryIndex b ≤ r := by
  by_contra hlt
  obtain ⟨hrlen, hrank⟩ := List.getElem?_eq_some_iff.mp hr
  obtain ⟨hplen, hzero⟩ := List.getElem?_eq_some_iff.mp (rotationOrder_primaryIndex hb)
  have hkey := List.pairwise_iff_getElem.mp (rotationOrder_pairwise b) r (primaryIndex b) hrlen hplen (by omega)
  rw [hrank, hzero, rotationKey_lt_iff, heq] at hkey
  simp at hkey

/-- Settles O43: offset 0 occurs in OFS, and it is the least of the offsets whose rotations are equal. -/
theorem primaryIndexIsTheRankOfOffsetZero : Obligations.PrimaryIndexIsTheRankOfOffsetZero := by
  refine ⟨rfl, fun b hb => ?_⟩
  have hrank := rotationOrder_primaryIndex hb
  obtain ⟨hlt, -⟩ := List.getElem?_eq_some_iff.mp hrank
  exact ⟨by simpa using hlt, hrank, fun r a => primaryIndex_le_of_eq hb⟩

/-- The bytes before the offsets 0 .. n − 1 are the input rotated to the right by one byte. -/
theorem map_precedingByte_range (b : List Byte) :
    (List.range b.length).map (precedingByte b) = b.rotate (b.length - 1) := by
  refine List.ext_getElem (by simp) fun i h _ => ?_
  have hi : i < b.length := by simpa using h
  have hmod : (i + (b.length - 1)) % b.length < b.length := Nat.mod_lt _ (by omega)
  simp [precedingByte, List.getElem_rotate, hmod, Nat.add_sub_assoc (show 1 ≤ b.length by omega)]

theorem lastColumn_perm (b : List Byte) : (lastColumn b).Perm b := by
  have hperm := (rotationOrder_perm b).map (precedingByte b)
  rw [map_precedingByte_range] at hperm
  exact hperm.trans (List.rotate_perm b _)

theorem lastColumn_getElem? {b : List Byte} {i a : Nat} (h : (rotationOrder b)[i]? = some a) :
    (lastColumn b)[i]? = some (precedingByte b a) := by
  simp [lastColumn, h]

/-- Settles O44: the last column is the image of OFS, a permutation of 0 .. n − 1, under the preceding byte. -/
theorem lastColumnPrecedesEachRotation : Obligations.LastColumnPrecedesEachRotation :=
  ⟨rfl, fun b => ⟨bwtEncode_length b, rfl, fun _ _ => lastColumn_getElem?, lastColumn_perm b⟩⟩

end Sys2Proof.Machine
end

section
/-! The map T and the walk of the inverse (40_bwt.md R95, R96). -/

namespace Sys2Proof.Machine

/-- What T is sorted by: the byte of the pair, and the index among equal bytes. -/
def pairKey (l : List Byte) (i : Nat) : Nat ×ₗ Nat := toLex ((l.getD i 0#8).toNat, i)

theorem pairKey_injective (l : List Byte) : (pairKey l).Injective := fun _ _ h => congrArg (fun x => (ofLex x).2) h

theorem pairKey_lt_iff (l : List Byte) (i j : Nat) :
    pairKey l i < pairKey l j ↔ l.getD i 0#8 < l.getD j 0#8 ∨ l.getD i 0#8 = l.getD j 0#8 ∧ i < j := by
  rw [pairKey, pairKey, Prod.Lex.toLex_lt_toLex, ← BitVec.lt_def, BitVec.toNat_inj]

theorem pairBefore_iff (l : List Byte) (i j : Nat) : pairBefore l i j = true ↔ pairKey l i ≤ pairKey l j := by
  rw [pairKey, pairKey, Prod.Lex.toLex_le_toLex, ← BitVec.lt_def, BitVec.toNat_inj]
  simp [pairBefore]

theorem inverseMap_pairwise (l : List Byte) : (inverseMap l).Pairwise fun i j => pairKey l i < pairKey l j :=
  insertionSort_range_pairwise_key_lt (pairKey_injective l) (pairBefore_iff l) l.length

/-- Two kinds of indices that exclude each other are counted one by one. -/
theorem countP_or_of_disjoint {p q : Nat → Prop} [DecidablePred p] [DecidablePred q] (hdisjoint : ∀ j, p j → ¬ q j)
    (l : List Nat) : l.countP (fun j => decide (p j ∨ q j)) =
      l.countP (fun j => decide (p j)) + l.countP (fun j => decide (q j)) := by
  induction l with
  | nil => rfl
  | cons j l ih =>
    rw [List.countP_cons, List.countP_cons, List.countP_cons, ih]
    by_cases hp : p j
    · simp [hp, hdisjoint j hp, Nat.add_right_comm]
    · simp [hp, Nat.add_assoc]

/-- The indices of a kind that are below `i` are counted among 0 .. i − 1 alone. -/
theorem countP_range_and_lt {q : Nat → Prop} [DecidablePred q] {i n : Nat} (hi : i ≤ n) :
    (List.range n).countP (fun j => decide (q j ∧ j < i)) = (List.range i).countP (fun j => decide (q j)) := by
  obtain ⟨m, rfl⟩ := Nat.exists_eq_add_of_le hi
  have hbelow : (List.range i).countP (fun j => decide (q j ∧ j < i)) = (List.range i).countP (fun j => decide (q j)) :=
    List.countP_congr fun j hj => by simp [List.mem_range.mp hj]
  rw [List.range_add, List.countP_append, hbelow, Nat.add_eq_left, List.countP_eq_zero]
  simp

/-- Each index stands in T at its rank. -/
theorem inverseMap_getElem?_rank {l : List Byte} {i : Nat} (hi : i < l.length) :
    (inverseMap l)[(List.range l.length).countP (fun j => decide (l.getD j 0#8 < l.getD i 0#8)) +
      (List.range i).countP (fun j => decide (l.getD j 0#8 = l.getD i 0#8))]? = some i := by
  have hmem : i ∈ inverseMap l := (inverseMap_perm l).mem_iff.mpr (List.mem_range.mpr hi)
  obtain ⟨k, hk⟩ := List.mem_iff_getElem?.mp hmem
  have hrank := countP_key_lt_of_getElem? (inverseMap_pairwise l) hk
  simp only [(inverseMap_perm l).countP_eq, pairKey_lt_iff] at hrank
  rw [countP_or_of_disjoint fun _ hlt heq => BitVec.ne_of_lt hlt heq.1, countP_range_and_lt hi.le] at hrank
  rw [hrank, hk]

/-- Output byte `j` of the walk is the byte at the cursor advanced `j + 1` times. -/
theorem inverseWalk_getElem? (l : List Byte) (t : List Nat) {k j : Nat} (c : Nat) (hj : j < k) :
    (inverseWalk l t k c)[j]? = some (l.getD ((fun c => t.getD c 0)^[j + 1] c) 0#8) := by
  induction k generalizing j c with
  | zero => omega
  | succ k ih =>
    cases j with
    | zero => rfl
    | succ j => rw [inverseWalk, List.getElem?_cons_succ, ih _ (by omega), Function.iterate_succ_apply _ (j + 1)]

/-- The walk stays inside the sequence. -/
theorem inverseMap_iterate_lt {l : List Byte} {c : Nat} (hc : c < l.length) (j : Nat) :
    (fun c => (inverseMap l).getD c 0)^[j] c < l.length := by
  induction j with
  | zero => exact hc
  | succ j ih =>
    rw [Function.iterate_succ_apply']
    exact inverseMap_lt ih

theorem bwtDecode_getElem? {l : List Byte} {p j : Nat} (hp : p < l.length) (hj : j < l.length) :
    (bwtDecode l p)[j]? = l[(fun c => (inverseMap l).getD c 0)^[j + 1] p]? := by
  rw [bwtDecode, inverseWalk_getElem? l _ p hj, List.getD_eq_getElem _ _ (inverseMap_iterate_lt hp _),
    List.getElem?_eq_getElem (inverseMap_iterate_lt hp _)]

/-- Settles O45: the place of an index in T is the number of pairs before its own, and the walk is an iteration of T. -/
theorem inverseWalkFollowsTheMap : Obligations.InverseWalkFollowsTheMap :=
  ⟨fun l => ⟨inverseMap_perm l, fun _ => inverseMap_getElem?_rank⟩, fun _ => rfl,
    fun l p hp => ⟨bwtDecode_length l p, fun _ => bwtDecode_getElem? hp⟩⟩

end Sys2Proof.Machine
end

section
/-! Decoding the last column (40_bwt.md R98, R100): T takes the rank of a rotation to the rank of that rotation moved on
by one byte. The rows of the sorted rotations and, along T, the rows moved back by one byte are two sorted lists of the
same rotations, and so they are the same list. -/

namespace Sys2Proof.Machine

/-- Moving a rotation back by one byte takes its last byte, the one before its start, to the front. -/
theorem rotate_back {b : List Byte} (hb : 0 < b.length) (a : Nat) :
    ∃ u, b.rotate (a + b.length - 1) = precedingByte b a :: u ∧ b.rotate a = u ++ [precedingByte b a] := by
  have hlen : 0 < (b.rotate (a + b.length - 1)).length := by simpa using hb
  obtain ⟨x, u, hback⟩ := List.exists_cons_of_length_pos hlen
  have hmod : (a + b.length - 1) % b.length < b.length := Nat.mod_lt _ hb
  have hx : x = precedingByte b a := by
    have hhead : (b.rotate (a + b.length - 1))[0] = x := by simp [hback]
    simpa [List.getElem_rotate, precedingByte, hmod] using hhead.symm
  subst hx
  refine ⟨u, hback, ?_⟩
  calc b.rotate a = (b.rotate (a + b.length - 1)).rotate 1 := by
        rw [List.rotate_rotate, Nat.sub_add_cancel (by omega), ← List.rotate_rotate, ← List.length_rotate b a,
          List.rotate_length]
    _ = u ++ [precedingByte b a] := by rw [hback, List.rotate_cons_succ, List.rotate_zero]

/-- A common last entry does not decide the order of two lists of one length. -/
theorem append_singleton_lt {u v : List Nat} (x : Nat) (hlen : u.length = v.length) (h : u < v) :
    u ++ [x] < v ++ [x] := by
  obtain ⟨-, hshort⟩ | ⟨i, hu, hv, heq, hlt⟩ := List.lt_iff_exists.mp h
  · omega
  · refine List.lt_iff_exists.mpr (.inr ⟨i, by simp; omega, by simp; omega, fun j hj => ?_, ?_⟩)
    · rw [List.getElem_append_left (by omega), List.getElem_append_left (by omega), heq j hj]
    · rwa [List.getElem_append_left hu, List.getElem_append_left hv]

/-- The rows of the sorted rotations ascend. -/
theorem rotationRow_rotationOrder_pairwise (b : List Byte) :
    ((rotationOrder b).map (rotationRow b)).Pairwise (· ≤ ·) := by
  rw [List.pairwise_map]
  refine (rotationOrder_pairwise b).imp fun {a c} h => ?_
  obtain hlt | ⟨heq, -⟩ := Prod.Lex.toLex_lt_toLex.mp h
  · exact hlt.le
  · exact heq.le

/-- The row at rank `i`, moved back by one byte. -/
def backRow (b : List Byte) (i : Nat) : List Nat := rotationRow b ((rotationOrder b).getD i 0 + b.length - 1)

/-- Byte `i` of the last column, and the row at rank `i` with that byte at its end and, moved back, at its start. -/
theorem backRow_eq_cons {b : List Byte} {i : Nat} (hi : i < b.length) :
    ∃ u, u.length + 1 = b.length ∧ backRow b i = ((lastColumn b).getD i 0#8).toNat :: u ∧
      rotationRow b ((rotationOrder b).getD i 0) = u ++ [((lastColumn b).getD i 0#8).toNat] := by
  obtain ⟨u, hback, hrow⟩ := rotate_back (Nat.zero_lt_of_lt hi) ((rotationOrder b).getD i 0)
  have hbyte : (lastColumn b).getD i 0#8 = precedingByte b ((rotationOrder b).getD i 0) := by
    simp [lastColumn, hi]
  have hlen := congrArg List.length hrow
  rw [hbyte]
  refine ⟨u.map BitVec.toNat, by simpa using hlen.symm, ?_, ?_⟩
  · rw [backRow, rotationRow, hback, List.map_cons]
  · rw [rotationRow, hrow, List.map_append, List.map_singleton]

/-- Rows moved back ascend in the order T sorts by: first by the byte that comes to the front, then by rank. -/
theorem backRow_le {b : List Byte} {i j : Nat} (hi : i < b.length) (hj : j < b.length)
    (h : pairKey (lastColumn b) i < pairKey (lastColumn b) j) : backRow b i ≤ backRow b j := by
  obtain ⟨u, hlenu, hbacku, hrowu⟩ := backRow_eq_cons hi
  obtain ⟨v, hlenv, hbackv, hrowv⟩ := backRow_eq_cons hj
  rw [hbacku, hbackv]
  obtain hlt | ⟨heq, hij⟩ := (pairKey_lt_iff _ i j).mp h
  · exact (List.cons_lt_cons_iff.mpr (.inl (BitVec.lt_def.mp hlt))).le
  · have hrows := List.pairwise_iff_getElem.mp (rotationRow_rotationOrder_pairwise b) i j (by simpa) (by simpa) hij
    simp only [List.getElem_map, ← List.getD_eq_getElem _ 0] at hrows
    rw [hrowu, hrowv, heq] at hrows
    rw [heq]
    refine List.cons_le_cons _ (not_lt.mp fun hvu => ?_)
    exact hrows.not_gt (append_singleton_lt _ (by omega) hvu)

theorem backRow_inverseMap_pairwise (b : List Byte) :
    ((inverseMap (lastColumn b)).map (backRow b)).Pairwise (· ≤ ·) := by
  rw [List.pairwise_map]
  have hmem {i : Nat} (hi : i ∈ inverseMap (lastColumn b)) : i < b.length := by
    simpa using (inverseMap_perm (lastColumn b)).mem_iff.mp hi
  exact (inverseMap_pairwise (lastColumn b)).imp_of_mem fun hi hj => backRow_le (hmem hi) (hmem hj)

theorem map_rotate_range {b : List Byte} (hb : 0 < b.length) :
    (List.range b.length).map b.rotate = b.cyclicPermutations := by
  refine List.ext_getElem ?_ fun i _ _ => ?_
  · simp [List.length_cyclicPermutations_of_ne_nil b (List.ne_nil_of_length_pos hb)]
  · simp

/-- The rotations moved back by one byte are the rotations. -/
theorem rotationRow_back_perm {b : List Byte} (hb : 0 < b.length) :
    ((List.range b.length).map fun a => rotationRow b (a + b.length - 1)).Perm
      ((List.range b.length).map (rotationRow b)) := by
  have hback : (List.range b.length).map (fun a => b.rotate (a + b.length - 1)) =
      (b.rotate (b.length - 1)).cyclicPermutations := by
    rw [← map_rotate_range (by simpa), List.length_rotate]
    refine List.map_congr_left fun a _ => ?_
    rw [List.rotate_rotate, Nat.add_comm a, Nat.sub_add_comm hb]
  have hperm := (List.IsRotated.forall b (b.length - 1)).cyclicPermutations.perm.map (List.map BitVec.toNat)
  rw [← hback, ← map_rotate_range hb, List.map_map, List.map_map] at hperm
  exact hperm

/-- The row at rank `r` is the row at rank `T[r]` moved back by one byte. -/
theorem rotationRow_eq_backRow_inverseMap {b : List Byte} {r : Nat} (hr : r < b.length) :
    rotationRow b ((rotationOrder b).getD r 0) = backRow b ((inverseMap (lastColumn b)).getD r 0) := by
  have hranks : (List.range b.length).map (backRow b) =
      (rotationOrder b).map fun a => rotationRow b (a + b.length - 1) := by
    refine List.ext_getElem (by simp) fun i hi _ => ?_
    have hi : i < b.length := by simpa using hi
    simp [backRow, hi]
  have hperm : ((rotationOrder b).map (rotationRow b)).Perm ((inverseMap (lastColumn b)).map (backRow b)) :=
    calc ((rotationOrder b).map (rotationRow b)).Perm ((List.range b.length).map (rotationRow b)) :=
          (rotationOrder_perm b).map _
      List.Perm _ ((List.range b.length).map fun a => rotationRow b (a + b.length - 1)) :=
          (rotationRow_back_perm (by omega)).symm
      List.Perm _ ((rotationOrder b).map fun a => rotationRow b (a + b.length - 1)) :=
          ((rotationOrder_perm b).map _).symm
      _ = (List.range b.length).map (backRow b) := hranks.symm
      List.Perm _ ((inverseMap (lastColumn b)).map (backRow b)) := by
          simpa using ((inverseMap_perm (lastColumn b)).map (backRow b)).symm
  have hlists := hperm.eq_of_pairwise (fun _ _ _ _ => le_antisymm) (rotationRow_rotationOrder_pairwise b)
    (backRow_inverseMap_pairwise b)
  simpa [hr] using congrArg (·[r]?) hlists

/-- From any rank the walk spells the rotation that stands there. -/
theorem inverseWalk_lastColumn {b : List Byte} {k r : Nat} (hk : k ≤ b.length) (hr : r < b.length) :
    inverseWalk (lastColumn b) (inverseMap (lastColumn b)) k r = (b.rotate ((rotationOrder b).getD r 0)).take k := by
  apply List.map_injective_iff.mpr fun _ _ => BitVec.eq_of_toNat_eq (n := 8)
  rw [List.map_take, ← rotationRow]
  induction k generalizing r with
  | zero => rfl
  | succ k ih =>
    have hnext : (inverseMap (lastColumn b)).getD r 0 < b.length := by
      simpa using inverseMap_lt (l := lastColumn b) (by simpa using hr)
    obtain ⟨u, hlen, hback, hrow⟩ := backRow_eq_cons hnext
    rw [rotationRow_eq_backRow_inverseMap hr, hback, inverseWalk, List.map_cons, ih (by omega) hnext, hrow,
      List.take_append_of_le_length (by omega), List.take_succ_cons]

/-- Decoding the last column at any rank gives the rotation that stands there. -/
theorem bwtDecode_lastColumn {b : List Byte} {r a : Nat} (hr : (rotationOrder b)[r]? = some a) :
    bwtDecode (lastColumn b) r = b.rotate a := by
  obtain ⟨hlt, hget⟩ := List.getElem?_eq_some_iff.mp hr
  have hrank : r < b.length := by simpa using hlt
  rw [bwtDecode, lastColumn_length, inverseWalk_lastColumn le_rfl hrank, List.getD_eq_getElem _ _ hlt, hget]
  exact List.take_of_length_le (by simp)

/-- Settles O47: the primary index is a rank, and the rotation there is the input itself. -/
theorem bwtRoundTrip : Obligations.BwtRoundTrip := by
  intro b
  rcases Nat.eq_zero_or_pos b.length with hempty | hpos
  · obtain rfl := List.eq_nil_of_length_eq_zero hempty
    rfl
  · exact (bwtDecode_lastColumn (rotationOrder_primaryIndex hpos)).trans (List.rotate_zero b)

end Sys2Proof.Machine
end

section
/-! The commands BWT_ENC and BWT_DEC (40_bwt.md R94, R97). -/

namespace Sys2Proof.Machine

/-- The STATUS an error completion leaves (60_exceptions.md R181). -/
theorem raise_status (k : ErrorLine) (c : ECode) (s : State) :
    (s.raise k c).status = (s.status.fail c).consume k := by
  obtain ⟨-, -, hstatus, -⟩ := raise_spec k c s
  exact hstatus

/-- An input that lies inside IBUF has a length that fits OLEN, as ICAP ≤ OCAP. -/
theorem input_length_lt {s : State} (hwf : s.inst.wf) (hfit : s.inputLength ≤ s.inst.icap) :
    s.input.length < 2 ^ 32 := by
  have hcapacities : s.inst.icap ≤ s.inst.ocap := hwf.2.1
  rw [input_length]
  exact input_lt_of hwf (hfit.trans hcapacities)

/-- `OUT <- bs` for an output of the input's length sets OLEN to ILEN. -/
theorem out_olen_eq_ilen {s : State} {bs : List Byte} (h : bs.length = s.input.length) :
    (s.out bs).olen = s.ilen := by
  simp [h, State.inputLength]

theorem exec_bwtEnc_tooLong {s : State} (h : s.inst.icap < s.inputLength) :
    exec .bwtEnc s = .next (s.raise .other .badLength) :=
  if_pos ((inputTooLong_iff s).mpr h)

theorem exec_bwtEnc_fits {s : State} (h : s.inputLength ≤ s.inst.icap) : exec .bwtEnc s =
    .next (((s.out (bwtEncode s.input).1).setPidx (bwtEncode s.input).2).setPidxv true).complete :=
  if_neg (by simpa [inputTooLong_iff])

/-- Settles O25: the one test of BWT_ENC, and its completion with an output of the input's length. -/
theorem bwtEncWritesColumnAndIndex : Obligations.BwtEncWritesColumnAndIndex := by
  refine ⟨fun _ => rfl, fun s hwf => ⟨fun hlong => ?_, fun hfit => ?_⟩⟩
  · exact ⟨_, exec_bwtEnc_tooLong hlong, raise_spoils_output s (by decide) (by decide), raise_status ..⟩
  · have hlen : (bwtEncode s.input).1.length = s.input.length := bwtEncode_length s.input
    refine ⟨_, exec_bwtEnc_fits hfit, ?_, out_olen_eq_ilen hlen, rfl, rfl, rfl⟩
    apply delivers_of (hlen ▸ input_length_lt hwf hfit) <;> rfl

theorem exec_bwtDec_tooLong {s : State} (h : s.inst.icap < s.inputLength) :
    exec .bwtDec s = .next (s.raise .bwtDec .badLength) :=
  if_pos ((inputTooLong_iff s).mpr h)

/-- The tests of BWT_DEC on an input that lies inside IBUF. -/
theorem exec_bwtDec_fits {s : State} (h : s.inputLength ≤ s.inst.icap) : exec .bwtDec s =
    if s.status.pidxv = false then .next (s.raise .bwtDec .missingPrimaryIndex)
    else if 0 < s.inputLength ∧ s.inputLength ≤ s.pidx.toNat then .next (s.raise .bwtDec .primaryIndexRange)
    else .next ((s.out (bwtDecode s.input s.pidx.toNat)).setPidxv false).complete := by
  have htest : ¬ s.inputTooLong = true := by simpa [inputTooLong_iff]
  rw [exec, execBwtDec, if_neg htest]
  by_cases hempty : s.inputLength = 0
  · have hinput : s.input = [] := List.eq_nil_of_length_eq_zero (by rw [input_length, hempty])
    simp [hempty, hinput, bwtDecode, inverseWalk]
  · simp [hempty, Nat.pos_of_ne_zero hempty]

/-- Settles O26: the tests of BWT_DEC in their order, each of which consumes PIDXV. -/
theorem bwtDecInvertsOrReports : Obligations.BwtDecInvertsOrReports := by
  have hspoils (s : State) (c : ECode) (hc : c ≠ .illegalCommand) : Spoils s (s.raise .bwtDec c) :=
    raise_spoils_output s (by decide) hc
  refine ⟨fun _ => rfl, fun s hwf => ⟨fun hlong => ?_, fun hfit hmissing => ?_, fun hfit hpresent hpos hrange => ?_,
    fun hfit hpresent hok => ?_⟩⟩
  · exact ⟨_, exec_bwtDec_tooLong hlong, hspoils s _ (by decide), raise_status ..⟩
  · rw [exec_bwtDec_fits hfit, if_pos hmissing]
    exact ⟨_, rfl, hspoils s _ (by decide), raise_status ..⟩
  · rw [exec_bwtDec_fits hfit, if_neg (by simp [hpresent]), if_pos ⟨hpos, hrange⟩]
    exact ⟨_, rfl, hspoils s _ (by decide), raise_status ..⟩
  · rw [exec_bwtDec_fits hfit, if_neg (by simp [hpresent]), if_neg (by omega)]
    have hlen : (bwtDecode s.input s.pidx.toNat).length = s.input.length := bwtDecode_length ..
    refine ⟨_, rfl, ?_, out_olen_eq_ilen hlen, rfl, rfl, rfl⟩
    apply delivers_of (hlen ▸ input_length_lt hwf hfit) <;> rfl

end Sys2Proof.Machine
end

section
/-! The commands MTF_ENC and MTF_DEC (41_mtf.md R113, R114), and one step of the recoder (R111, R112). -/

namespace Sys2Proof.Machine

/-- `OUT <- bs` and a normal completion deliver an output of the input's length. -/
theorem out_complete_delivers {s : State} {bs : List Byte} (hwf : s.inst.wf) (hfit : s.inputLength ≤ s.inst.icap)
    (hlen : bs.length = s.input.length) : Delivers s (s.out bs).complete bs := by
  apply delivers_of (hlen ▸ input_length_lt hwf hfit) <;> rfl

/-- A command whose one test is the input's length and whose output `f IN` is as long as its input: the BadLength
completion, or the output with STAGES, PIDX and the valid bits as they were. -/
theorem lengthKeepingCommand {i : Instr} {f : List Byte → List Byte} {s : State}
    (hexec : exec i s = if s.inputTooLong then .next (s.raise .other .badLength)
      else .next (s.out (f s.input)).complete)
    (hlen : (f s.input).length = s.input.length) (hwf : s.inst.wf) :
    (s.inst.icap < s.inputLength → ∃ t, exec i s = .next t ∧ Spoils s t ∧
      t.status = { s.status with done := true, busy := false, err := true, fb := false, ecode := .badLength }) ∧
    (s.inputLength ≤ s.inst.icap → ∃ t, exec i s = .next t ∧ Delivers s t (f s.input) ∧ t.olen = s.ilen ∧
      t.stages = s.stages ∧ t.pidx = s.pidx ∧ t.status = { s.status with done := true, busy := false }) := by
  rw [hexec]
  refine ⟨fun hlong => ?_, fun hfit => ?_⟩
  · rw [if_pos ((inputTooLong_iff s).mpr hlong)]
    exact ⟨_, rfl, raise_spoils_output s (by decide) (by decide), raise_status ..⟩
  · rw [if_neg (by simpa [inputTooLong_iff])]
    exact ⟨_, rfl, out_complete_delivers hwf hfit hlen, out_olen_eq_ilen hlen, rfl, rfl, rfl⟩

/-- Settles O27: MTF_ENC has the one test of the input's length, and the positions are as many as the input's bytes. -/
theorem mtfEncWritesPositions : Obligations.MtfEncWritesPositions :=
  ⟨fun _ => rfl, fun s => lengthKeepingCommand rfl (mtfEncode_length s.input)⟩

/-- Settles O28: MTF_DEC has the one test of the input's length, and the values are as many as the input's bytes. -/
theorem mtfDecWritesValues : Obligations.MtfDecWritesValues :=
  ⟨fun _ => rfl, fun s => lengthKeepingCommand rfl (mtfDecode_length s.input)⟩

/-- The table after a move to the front: the entry at `k`, the entries before it, the entries after it. -/
theorem moveToFront_eq_cons {m : List Byte} {k : Nat} {v : Byte} (h : m[k]? = some v) :
    moveToFront m k = v :: (m.take k ++ m.drop (k + 1)) := by
  rw [moveToFront, List.getD_eq_getElem?_getD, h, Option.getD_some, List.eraseIdx_eq_take_drop_succ]

/-- In a table of distinct entries the search of R111 finds the one index of a value. -/
theorem mtfPosition_eq_of_getElem? {m : List Byte} {k : Nat} {v : Byte} (hm : m.Nodup) (h : m[k]? = some v) :
    mtfPosition m v = k := by
  obtain ⟨hk, rfl⟩ := List.getElem?_eq_some_iff.mp h
  exact hm.idxOf_getElem k hk

theorem mtfEncodeFrom_cons {m : List Byte} {k : Nat} {v : Byte} (hm : m.Nodup) (h : m[k]? = some v) (vs : List Byte) :
    mtfEncodeFrom m (v :: vs) = BitVec.ofNat 8 k :: mtfEncodeFrom (v :: (m.take k ++ m.drop (k + 1))) vs := by
  rw [mtfEncodeFrom, mtfPosition_eq_of_getElem? hm h, moveToFront_eq_cons h]

theorem mtfDecodeFrom_cons {m : List Byte} {k v : Byte} (h : m[k.toNat]? = some v) (ks : List Byte) :
    mtfDecodeFrom m (k :: ks) = v :: mtfDecodeFrom (v :: (m.take k.toNat ++ m.drop (k.toNat + 1))) ks := by
  rw [mtfDecodeFrom, List.getD_eq_getElem?_getD, h, Option.getD_some, moveToFront_eq_cons h]

/-- Settles O49: one step in each direction; in a full table every byte is a position. -/
theorem mtfStepsEmitPositionAndValue : Obligations.MtfStepsEmitPositionAndValue := by
  refine ⟨fun m v vs k hm _ hv => mtfEncodeFrom_cons hm hv vs, fun m k ks hfull => ?_⟩
  have hk : k.toNat < m.length := hfull ▸ k.isLt
  exact ⟨_, List.getElem?_eq_getElem hk, mtfDecodeFrom_cons (List.getElem?_eq_getElem hk) ks⟩

end Sys2Proof.Machine
end

section
/-! Run scanning (42_rle.md R120): what the runs spell, their lengths, their neighbours, and the greedy split. -/

namespace Sys2Proof.Machine

/-- The bytes a run stands for. -/
def Run.bytes (r : Run) : List Byte := List.replicate r.length r.value

/-- The open run and the bytes still to scan are what the scanned runs spell. -/
theorem scanRuns_flatMap_bytes (v : Byte) (n : Nat) (bs : List Byte) :
    (scanRuns v n bs).flatMap Run.bytes = List.replicate n v ++ bs := by
  induction bs generalizing v n with
  | nil => simp [scanRuns, Run.bytes]
  | cons b bs ih =>
    rw [scanRuns]
    split
    · next h => rw [ih, h.1, List.replicate_succ', List.append_assoc, List.singleton_append]
    · rw [List.flatMap_cons, ih]
      rfl

theorem runs_flatMap_bytes (bs : List Byte) : (runs bs).flatMap Run.bytes = bs := by
  cases bs with
  | nil => rfl
  | cons b bs => exact scanRuns_flatMap_bytes b 1 bs

theorem scanRuns_length_bounds {v : Byte} {n : Nat} (hpos : 1 ≤ n) (hmax : n ≤ 255) (bs : List Byte) :
    ∀ r ∈ scanRuns v n bs, 1 ≤ r.length ∧ r.length ≤ 255 := by
  induction bs generalizing v n with
  | nil => simp [scanRuns, hpos, hmax]
  | cons b bs ih =>
    rw [scanRuns]
    split
    · next h => exact ih (Nat.le_add_left 1 n) h.2
    · exact List.forall_mem_cons.mpr ⟨⟨hpos, hmax⟩, ih (by decide) (by decide)⟩

theorem runs_length_bounds (bs : List Byte) : ∀ r ∈ runs bs, 1 ≤ r.length ∧ r.length ≤ 255 := by
  cases bs with
  | nil => simp
  | cons b bs => exact scanRuns_length_bounds (by decide) (by decide) bs

/-- A closed run is followed by a run of its own value only where it could not grow. -/
theorem scanRuns_isChain (v : Byte) {n : Nat} (hmax : n ≤ 255) (bs : List Byte) :
    (scanRuns v n bs).IsChain fun a b => a.value = b.value → a.length = 255 := by
  induction bs generalizing v n with
  | nil => exact .singleton _
  | cons b bs ih =>
    rw [scanRuns]
    split
    · next h => exact ih v h.2
    · next hclosed =>
      have hrest := ih b (n := 1) (by decide)
      obtain ⟨k, rs, hhead⟩ := scanRuns_head b 1 bs
      rw [hhead] at hrest ⊢
      refine .cons_cons (fun hv => ?_) hrest
      have hfull : ¬ n < 255 := fun hlt => hclosed ⟨hv.symm, hlt⟩
      exact Nat.le_antisymm hmax (Nat.le_of_not_lt hfull)

theorem runs_isChain (bs : List Byte) :
    (runs bs).IsChain fun a b => a.value = b.value → a.length = 255 := by
  cases bs with
  | nil => exact .nil
  | cons b bs => exact scanRuns_isChain b (by decide) bs

/-- The greedy split of `r` equal bytes: the full runs, then the remainder where it is not 0. -/
def greedyRuns (v : Byte) (r : Nat) : List Run :=
  List.replicate (r / 255) { value := v, length := 255 } ++
    if r % 255 = 0 then [] else [{ value := v, length := r % 255 }]

theorem greedyRuns_add_full (v : Byte) (r : Nat) :
    greedyRuns v (r + 255) = { value := v, length := 255 } :: greedyRuns v r := by
  simp [greedyRuns, List.replicate_succ]

theorem greedyRuns_of_le {v : Byte} {n : Nat} (hpos : 1 ≤ n) (hmax : n ≤ 255) :
    greedyRuns v n = [{ value := v, length := n }] := by
  obtain rfl | hlt := hmax.eq_or_lt
  · rfl
  · simp [greedyRuns, Nat.div_eq_of_lt hlt, Nat.mod_eq_of_lt hlt, Nat.ne_of_gt hpos]

theorem scanRuns_replicate (v : Byte) {n : Nat} (hpos : 1 ≤ n) (hmax : n ≤ 255) (k : Nat) :
    scanRuns v n (List.replicate k v) = greedyRuns v (n + k) := by
  induction k generalizing n with
  | zero => exact (greedyRuns_of_le hpos hmax).symm
  | succ k ih =>
    rw [List.replicate_succ, scanRuns]
    obtain rfl | hlt := hmax.eq_or_lt
    · rw [if_neg (by simp [Config.runMax]), ih (by decide) (by decide), ← greedyRuns_add_full]
      congr 1
      omega
    · rw [if_pos ⟨rfl, hlt⟩, ih (Nat.le_add_left 1 n) hlt, Nat.add_assoc, Nat.add_comm 1 k]

theorem runs_replicate (v : Byte) (r : Nat) : runs (List.replicate r v) = greedyRuns v r := by
  cases r with
  | zero => rfl
  | succ k => rw [List.replicate_succ, runs, scanRuns_replicate v (by decide) (by decide), Nat.add_comm]

/-- Settles O50: the four facts of run scanning, each by induction on the bytes still to scan. -/
theorem runsAreMaximalAndGreedy : Obligations.RunsAreMaximalAndGreedy := fun bs =>
  ⟨runs_flatMap_bytes bs, runs_length_bounds bs, runs_isChain bs, runs_replicate⟩

/-- Every run holds a byte, so a sequence has no more runs than bytes. -/
theorem runs_length_le (bs : List Byte) : (runs bs).length ≤ bs.length := by
  have hpos : ∀ n ∈ (runs bs).map Run.length, 1 ≤ n := by
    simpa using fun r hr => (runs_length_bounds bs r hr).1
  calc (runs bs).length
      = ((runs bs).map Run.length).length := (List.length_map _).symm
    _ ≤ ((runs bs).map Run.length).sum := List.length_le_sum_of_one_le _ hpos
    _ = ((runs bs).flatMap Run.bytes).length := by simp [List.length_flatMap, Run.bytes]
    _ = bs.length := by rw [runs_flatMap_bytes]

end Sys2Proof.Machine
end

section
/-! The functions of the two codecs: tokens and loops of the RLE stream (42_rle.md R121, R123, R125) and of the pair
stream (R128, R129). -/

namespace Sys2Proof.Machine

theorem encodeUnit_rleToken (v : Byte) (n : Nat) : encodeUnit (rleToken { value := v, length := n }) =
    if n = 1 then (if v = 0xFF#8 then [0xFF#8, 0xFF#8, 0x00#8] else [v])
    else [0xFF#8, v, BitVec.ofNat 8 (n - 1)] := by
  rw [rleToken]
  split
  · exact apply_ite encodeUnit ..
  · rfl

/-- Settles O51: the bytes of each kind of token; the concatenation is the encoder's definition. -/
theorem rleEncodeConcatenatesTheTokens : Obligations.RleEncodeConcatenatesTheTokens :=
  ⟨fun v n _ _ => encodeUnit_rleToken v n, fun _ => List.flatMap_def, rfl⟩

theorem rleDecode_escape (v c : Byte) (rest : List Byte) :
    rleDecode (0xFF#8 :: v :: c :: rest) = List.replicate (c.toNat + 1) v ++ rleDecode rest := by
  rw [rleDecode]
  exact if_pos rfl

/-- A byte other than the escape, or with fewer than two bytes after it, is a literal. -/
theorem rleDecode_literal {a : Byte} {rest : List Byte} (h : a ≠ 0xFF#8 ∨ rest.length < 2) :
    rleDecode (a :: rest) = a :: rleDecode rest := by
  match rest with
  | [] => rw [rleDecode]; simp
  | [b] => rw [rleDecode]; simp
  | v :: c :: rest =>
    have hliteral : a ≠ 0xFF#8 := h.resolve_right (by simp)
    rw [rleDecode]
    exact if_neg hliteral

/-- Settles O52: the two cases of the loop, and the end of the stream by the literal case. -/
theorem rleDecodeReadsTokenByToken : Obligations.RleDecodeReadsTokenByToken := by
  have hlast (b : Byte) : rleDecode [b] = [b] := by rw [rleDecode_literal (.inr (by decide)), rleDecode_nil]
  refine ⟨rleDecode_nil, rleDecode_escape, fun _ _ => rleDecode_literal, hlast _, fun b => ?_⟩
  rw [rleDecode_literal (.inr (by simp)), hlast]

theorem pairEncode_length_le (bs : List Byte) : (pairEncode bs).length ≤ 2 * bs.length := by
  have htwo : (pairEncode bs).length = (runs bs).length * 2 := by
    simp [pairEncode, List.length_flatMap, pairToken, encodeUnit, encode, Encoding.stream]
  have hruns := runs_length_le bs
  omega

theorem pairDecode_pair (v c : Byte) (rest : List Byte) :
    pairDecode (v :: c :: rest) = List.replicate c.toNat v ++ pairDecode rest := by
  rw [pairDecode]

theorem pairDecode_singleton (v : Byte) : pairDecode [v] = [v] := by
  rw [pairDecode]

/-- The pair of a run whose length fits a byte decodes to the run. -/
theorem pairDecode_pairToken_append {r : Run} (h : r.length ≤ 255) (rest : List Byte) :
    pairDecode (encodeUnit (pairToken r) ++ rest) = r.bytes ++ pairDecode rest := by
  have hcount : (BitVec.ofNat 8 r.length).toNat = r.length := Nat.mod_eq_of_lt (Nat.lt_succ_of_le h)
  have hpair := pairDecode_pair r.value (BitVec.ofNat 8 r.length) rest
  rwa [hcount] at hpair

/-- The pairs of runs whose lengths fit a byte decode to what the runs spell. -/
theorem pairDecode_flatMap_pairToken {rs : List Run} (h : ∀ r ∈ rs, r.length ≤ 255) :
    pairDecode (rs.flatMap fun r => encodeUnit (pairToken r)) = rs.flatMap Run.bytes := by
  induction rs with
  | nil => exact pairDecode_nil
  | cons r rs ih =>
    obtain ⟨hr, hrs⟩ := List.forall_mem_cons.mp h
    rw [List.flatMap_cons, pairDecode_pairToken_append hr, ih hrs, List.flatMap_cons]

theorem pairDecode_pairEncode (bs : List Byte) : pairDecode (pairEncode bs) = bs := by
  rw [pairEncode, pairDecode_flatMap_pairToken fun r hr => (runs_length_bounds bs r hr).2, runs_flatMap_bytes]

end Sys2Proof.Machine
end

section
/-! The four commands of the RLE unit (42_rle.md R122, R124, R128, R129), which differ in the sequence they write and
in the first test of the pair variant. -/

namespace Sys2Proof.Machine

/-- The two tests of the unit's commands and the output `bs` where neither applies. -/
def writeOrReport (s : State) (bs : List Byte) : Host.Outcome State Fault Refusal :=
  if s.inputTooLong then .next (s.raise .other .badLength)
  else if s.overflows bs then .next (s.raise .other .outputOverflow)
  else .next (s.out bs).complete

theorem exec_rleEnc (s : State) : exec .rleEnc s = writeOrReport s (rleEncode s.input) := rfl

theorem exec_rleDec (s : State) : exec .rleDec s = writeOrReport s (rleDecode s.input) := rfl

theorem exec_pairEnc_present {s : State} (h : s.inst.pairPresent = true) :
    exec .pairEnc s = writeOrReport s (pairEncode s.input) :=
  if_neg (by simp [h])

theorem exec_pairEnc_absent {s : State} (h : s.inst.pairPresent = false) :
    exec .pairEnc s = .next (s.raise .other .illegalCommand) :=
  if_pos (by simp [h])

theorem exec_pairDec_present {s : State} (h : s.inst.pairPresent = true) :
    exec .pairDec s = writeOrReport s (pairDecode s.input) :=
  if_neg (by simp [h])

theorem exec_pairDec_absent {s : State} (h : s.inst.pairPresent = false) :
    exec .pairDec s = .next (s.raise .other .illegalCommand) :=
  if_pos (by simp [h])

section
variable {i : Instr} {s : State} {bs : List Byte} (hexec : exec i s = writeOrReport s bs)
include hexec

theorem badLength_of_writeOrReport (hlong : s.inst.icap < s.inputLength) : ∃ t, exec i s = .next t ∧ Spoils s t ∧
    t.status = { s.status with done := true, busy := false, err := true, fb := false, ecode := .badLength } := by
  rw [hexec, writeOrReport, if_pos ((inputTooLong_iff s).mpr hlong)]
  exact ⟨_, rfl, raise_spoils_output s (by decide) (by decide), raise_status ..⟩

theorem outputOverflow_of_writeOrReport (hfit : s.inputLength ≤ s.inst.icap) (hover : s.inst.ocap < bs.length) :
    ∃ t, exec i s = .next t ∧ Spoils s t ∧
      t.status = { s.status with done := true, busy := false, err := true, fb := false, ecode := .outputOverflow } := by
  rw [hexec, writeOrReport, if_neg (by simpa [inputTooLong_iff]), if_pos ((overflows_iff s bs).mpr hover)]
  exact ⟨_, rfl, raise_spoils_output s (by decide) (by decide), raise_status ..⟩

theorem delivers_of_writeOrReport (hwf : s.inst.wf) (hfit : s.inputLength ≤ s.inst.icap)
    (hroom : bs.length ≤ s.inst.ocap) : ∃ t, exec i s = .next t ∧ Delivers s t bs ∧ t.stages = s.stages ∧
      t.pidx = s.pidx ∧ t.status = { s.status with done := true, busy := false } := by
  rw [hexec, writeOrReport, if_neg (by simpa [inputTooLong_iff]), if_neg (by simpa [overflows_iff])]
  refine ⟨_, rfl, ?_, rfl, rfl, rfl⟩
  apply delivers_of (input_lt_of hwf hroom) <;> rfl

end

/-- A command that ends as an illegal one changes nothing but STATUS. -/
theorem keeps_of_illegalCommand {i : Instr} {s : State} (hexec : exec i s = .next (s.raise .other .illegalCommand)) :
    ∃ t, exec i s = .next t ∧ Ends s t ∧ KeepsOutput s t ∧
      t.stages = s.stages ∧ t.pidx = s.pidx ∧ t.mlen = s.mlen ∧ t.poff = s.poff ∧ t.plen = s.plen ∧
      t.status = { s.status with done := true, busy := false, err := true, fb := false, ecode := .illegalCommand } :=
  ⟨_, hexec, raise_ends .., raise_illegal_keepsOutput s, rfl, rfl, rfl, rfl, rfl, raise_status ..⟩

/-- Settles O29: RLE_ENC has the two tests of `writeOrReport`, on the encoded sequence. -/
theorem rleEncWritesTokensOrReports : Obligations.RleEncWritesTokensOrReports :=
  ⟨fun _ => rfl, fun s hwf => ⟨badLength_of_writeOrReport (exec_rleEnc s),
    outputOverflow_of_writeOrReport (exec_rleEnc s), delivers_of_writeOrReport (exec_rleEnc s) hwf⟩⟩

/-- Settles O30: RLE_DEC has the two tests of `writeOrReport`, on the decoded sequence. -/
theorem rleDecExpandsOrReports : Obligations.RleDecExpandsOrReports :=
  ⟨fun _ => rfl, fun s hwf => ⟨badLength_of_writeOrReport (exec_rleDec s),
    outputOverflow_of_writeOrReport (exec_rleDec s), delivers_of_writeOrReport (exec_rleDec s) hwf⟩⟩

/-- Settles O31: PAIR_ENC tests the variant first; each run becomes two bytes. -/
theorem pairEncWritesPairsOrReports : Obligations.PairEncWritesPairsOrReports :=
  ⟨fun _ hpresent => if_pos hpresent, fun _ => rfl, pairEncode_length_le, fun _ hwf =>
    ⟨fun habsent => keeps_of_illegalCommand (exec_pairEnc_absent habsent),
      fun hpresent => badLength_of_writeOrReport (exec_pairEnc_present hpresent),
      fun hpresent => outputOverflow_of_writeOrReport (exec_pairEnc_present hpresent),
      fun hpresent => delivers_of_writeOrReport (exec_pairEnc_present hpresent) hwf⟩⟩

/-- Settles O32: PAIR_DEC tests the variant first; its loop undoes the pairs of the runs. -/
theorem pairDecExpandsOrReports : Obligations.PairDecExpandsOrReports :=
  ⟨fun _ hpresent => if_pos hpresent, pairDecode_pair, pairDecode_singleton, pairDecode_nil, pairDecode_pairEncode,
    fun _ hwf => ⟨fun habsent => keeps_of_illegalCommand (exec_pairDec_absent habsent),
      fun hpresent => badLength_of_writeOrReport (exec_pairDec_present hpresent),
      fun hpresent => outputOverflow_of_writeOrReport (exec_pairDec_present hpresent),
      fun hpresent => delivers_of_writeOrReport (exec_pairDec_present hpresent) hwf⟩⟩

end Sys2Proof.Machine
end

section
/-! The command COMPRESS (43_pipeline.md R141, R142, R145). -/

namespace Sys2Proof.Machine

/-- The eight words of COMPRESS with a subset (43_pipeline.md R141). -/
theorem decodeCommand_compressSub (p : Config.Instance) (a b c : Bool) :
    decodeCommand p (BitVec.ofNat 32 (0x109 + a.toNat * 2 ^ 9 + b.toNat * 2 ^ 10 + c.toNat * 2 ^ 11)) =
      .ok (.compressSub { bwt := a, mtf := b, rle := c }) := by
  cases a <;> cases b <;> cases c <;> rfl

/-- Both forms of COMPRESS run the sequencer on their set of stages. -/
theorem exec_eq_runCompress {i : Instr} {sel : StageSet} (s : State)
    (h : i = .compress ∧ sel = StageSet.all ∨ i = .compressSub sel) : exec i s = .next (s.runCompress sel) := by
  obtain ⟨rfl, rfl⟩ | rfl := h <;> rfl

theorem runCompress_tooLong {s : State} (sel : StageSet) (h : s.inst.icap < s.inputLength) :
    s.runCompress sel = s.raise .other .badLength :=
  if_pos ((inputTooLong_iff s).mpr h)

theorem runCompress_overflow {s : State} {sel : StageSet} (hfit : s.inputLength ≤ s.inst.icap)
    (hover : s.inst.ocap < (compressBytes sel s.input).length) :
    s.runCompress sel = (s.fallback.setStgv true).complete := by
  rw [State.runCompress, if_neg (by simpa [inputTooLong_iff]), if_pos ((overflows_iff ..).mpr hover)]

theorem runCompress_fits {s : State} {sel : StageSet} (hfit : s.inputLength ≤ s.inst.icap)
    (hroom : (compressBytes sel s.input).length ≤ s.inst.ocap) :
    s.runCompress sel = ((s.compressed sel).setStgv true).complete := by
  rw [State.runCompress, if_neg (by simpa [inputTooLong_iff]), if_neg (by simpa [overflows_iff])]

/-- Settles O33: the length test of COMPRESS, its fallback to the input itself, and its result where that fits. -/
theorem compressWritesPayloadAndMetadata : Obligations.CompressWritesPayloadAndMetadata := by
  refine ⟨fun _ => rfl, decodeCommand_compressSub, fun s i sel hwf hform => ?_⟩
  rw [exec_eq_runCompress s hform]
  refine ⟨fun hlong => ?_, fun hfit hover => ?_, fun hfit hroom => ?_⟩
  · rw [runCompress_tooLong sel hlong]
    exact ⟨_, rfl, raise_spoils_output s (by decide) (by decide), raise_status ..⟩
  · rw [runCompress_overflow hfit hover]
    refine ⟨_, rfl, ?_, rfl, rfl, rfl⟩
    apply delivers_of (input_length_lt hwf hfit) <;> rfl
  · rw [runCompress_fits hfit hroom]
    refine ⟨_, rfl, ?_, rfl, apply_ite (BitVec.ofNat 32) .., rfl⟩
    apply delivers_of (input_lt_of hwf hroom) <;> rfl

end Sys2Proof.Machine
end

section
/-! The command DECOMPRESS (43_pipeline.md R146 to R148): the result its tests and stages come to, and the completion
that reports it. -/

namespace Sys2Proof.Machine

/-- The first condition of DECOMPRESS that applies, or the bytes its stages restore. -/
def State.decompressResult (s : State) : Except ECode (List Byte) :=
  if s.inputTooLong then .error .badLength
  else if !s.status.stgv then .error .invalidMetadata
  else if s.stageSet.bwt && !s.status.pidxv then .error .missingPrimaryIndex
  else decompressBytes s.stageSet s.pidx.toNat s.inst.ocap s.input

/-- The completion of DECOMPRESS with a result. -/
def State.endDecompress (s : State) : Except ECode (List Byte) → State
  | .error c => s.raise .decompress c
  | .ok bs => (((s.out bs).setStgv false).setPidxv false).complete

theorem exec_decompress (s : State) : exec .decompress s = .next (s.endDecompress s.decompressResult) := by
  rw [exec, execDecompress, State.decompressResult]
  split_ifs
  · rfl
  · rfl
  · rfl
  · cases decompressBytes s.stageSet s.pidx.toNat s.inst.ocap s.input <;> rfl

/-- A condition ends DECOMPRESS in an error that consumes both valid bits (60_exceptions.md R181). -/
theorem decompress_fails {s : State} {c : ECode} (hresult : s.decompressResult = .error c)
    (hc : c ≠ .illegalCommand) : ∃ t, exec .decompress s = .next t ∧ Spoils s t ∧ t.status = { s.status with
      done := true, busy := false, err := true, fb := false, stgv := false, pidxv := false, ecode := c } := by
  rw [exec_decompress, hresult]
  exact ⟨_, rfl, raise_spoils_output s (by decide) hc, raise_status ..⟩

/-- Restored bytes that fit OBUF are delivered, and both valid bits are consumed. -/
theorem decompress_delivers {s : State} {bs : List Byte} (hwf : s.inst.wf) (hresult : s.decompressResult = .ok bs)
    (hroom : bs.length ≤ s.inst.ocap) : ∃ t, exec .decompress s = .next t ∧ Delivers s t bs ∧ t.stages = s.stages ∧
      t.pidx = s.pidx ∧ t.status = { s.status with done := true, busy := false, stgv := false, pidxv := false } := by
  rw [exec_decompress, hresult]
  refine ⟨_, rfl, ?_, rfl, rfl, rfl⟩
  apply delivers_of (input_lt_of hwf hroom) <;> rfl

theorem decompressResult_tooLong {s : State} (h : s.inst.icap < s.inputLength) :
    s.decompressResult = .error .badLength :=
  if_pos ((inputTooLong_iff s).mpr h)

theorem decompressResult_invalidMetadata {s : State} (hfit : s.inputLength ≤ s.inst.icap)
    (hstgv : s.status.stgv = false) : s.decompressResult = .error .invalidMetadata := by
  rw [State.decompressResult, if_neg (by simpa [inputTooLong_iff]), if_pos (by simp [hstgv])]

theorem decompressResult_missingPrimaryIndex {s : State} (hfit : s.inputLength ≤ s.inst.icap)
    (hstgv : s.status.stgv = true) (hbwt : s.stageSet.bwt = true) (hpidxv : s.status.pidxv = false) :
    s.decompressResult = .error .missingPrimaryIndex := by
  rw [State.decompressResult, if_neg (by simpa [inputTooLong_iff]), if_neg (by simp [hstgv]),
    if_pos (by simp [hbwt, hpidxv])]

/-- With the metadata present (43_pipeline.md R146) the stages decide the result. -/
theorem decompressResult_of_metadata {s : State} (hfit : s.inputLength ≤ s.inst.icap) (hstgv : s.status.stgv = true)
    (hpidxv : s.stageSet.bwt = true → s.status.pidxv = true) :
    s.decompressResult = decompressBytes s.stageSet s.pidx.toNat s.inst.ocap s.input := by
  rw [State.decompressResult, if_neg (by simpa [inputTooLong_iff]), if_neg (by simp [hstgv]), if_neg (by simpa)]

/-- Only an RLE inverse can be longer than OBUF where the payload is not. -/
theorem decompressBytes_overflow {st : StageSet} {ocap : Nat} {bs : List Byte} (p : Nat) (hroom : bs.length ≤ ocap)
    (hover : ocap < (undoRle st bs).length) : decompressBytes st p ocap bs = .error .outputOverflow := by
  refine if_pos ⟨?_, hover⟩
  by_contra hrle
  rw [undoRle, if_neg hrle] at hover
  exact absurd hover (Nat.not_lt.mpr hroom)

theorem decompressBytes_fits {st : StageSet} {ocap : Nat} {bs : List Byte} (p : Nat)
    (hroom : (undoRle st bs).length ≤ ocap) :
    decompressBytes st p ocap bs = undoBwt st p (undoMtf st (undoRle st bs)) :=
  if_neg fun h => absurd h.2 (Nat.not_lt.mpr hroom)

@[simp] theorem undoMtf_length (st : StageSet) (bs : List Byte) : (undoMtf st bs).length = bs.length := by
  rw [undoMtf]
  split
  · exact mtfDecode_length bs
  · rfl

theorem undoBwt_outOfRange {st : StageSet} {p : Nat} {bs : List Byte} (hbwt : st.bwt = true) (hpos : 0 < bs.length)
    (hrange : bs.length ≤ p) : undoBwt st p bs = .error .primaryIndexRange := by
  rw [undoBwt, if_pos hbwt, if_neg (Nat.ne_of_gt hpos), if_pos hrange]

/-- The inverse of the empty sequence is empty, as is the walk over it. -/
theorem undoBwt_inRange {st : StageSet} {p : Nat} {bs : List Byte}
    (h : st.bwt = true → bs.length = 0 ∨ p < bs.length) :
    undoBwt st p bs = .ok (if st.bwt then bwtDecode bs p else bs) := by
  rw [undoBwt]
  by_cases hbwt : st.bwt = true
  · rw [if_pos hbwt, if_pos hbwt]
    obtain hempty | hlt := h hbwt
    · obtain rfl := List.eq_nil_of_length_eq_zero hempty
      rfl
    · rw [if_neg (by omega), if_neg (by omega)]
  · rw [if_neg hbwt, if_neg hbwt]

/-- The bytes DECOMPRESS restores are as many as reach the MTF inverse. -/
theorem restored_length (st : StageSet) (p : Nat) (bs : List Byte) :
    (if st.bwt then bwtDecode (undoMtf st bs) p else undoMtf st bs).length = bs.length := by
  split
  · rw [bwtDecode_length, undoMtf_length]
  · exact undoMtf_length st bs

/-- Settles O34: the tests of DECOMPRESS in their order, then the stages undone in mirror order. -/
theorem decompressRestoresOrReports : Obligations.DecompressRestoresOrReports := by
  refine ⟨fun _ => rfl, fun s hwf => ⟨fun hlong => ?_, fun hfit hstgv => ?_, fun hfit hstgv hbwt hpidxv => ?_,
    fun hfit hstgv hpidxv hover => ?_, fun hfit hstgv hpidxv hroom hbwt hpos hrange => ?_,
    fun hfit hstgv hpidxv hroom hrange => ?_⟩⟩
  · exact decompress_fails (decompressResult_tooLong hlong) (by decide)
  · exact decompress_fails (decompressResult_invalidMetadata hfit hstgv) (by decide)
  · exact decompress_fails (decompressResult_missingPrimaryIndex hfit hstgv hbwt hpidxv) (by decide)
  · have hpayload : s.input.length ≤ s.inst.ocap := (input_length s).trans_le (hfit.trans hwf.2.1)
    exact decompress_fails ((decompressResult_of_metadata hfit hstgv hpidxv).trans
      (decompressBytes_overflow _ hpayload hover)) (by decide)
  · refine decompress_fails ?_ (by decide)
    rw [decompressResult_of_metadata hfit hstgv hpidxv, decompressBytes_fits _ hroom]
    exact undoBwt_outOfRange hbwt hpos hrange
  · refine decompress_delivers hwf ?_ ((restored_length s.stageSet _ _).trans_le hroom)
    rw [decompressResult_of_metadata hfit hstgv hpidxv, decompressBytes_fits _ hroom]
    exact undoBwt_inRange hrange

/-- An error completion neither reads nor writes STAGES. -/
theorem raise_with_stages (k : ErrorLine) (c : ECode) (s : State) (w : Word) :
    State.raise k c { s with stages := w } = { s.raise k c with stages := w } := by
  simp only [State.raise, State.spoil]
  split
  · rfl
  · split <;> rfl

theorem endDecompress_with_stages (s : State) (w : Word) (r : Except ECode (List Byte)) :
    State.endDecompress { s with stages := w } r = { s.endDecompress r with stages := w } := by
  cases r with
  | error c => exact raise_with_stages .decompress c s w
  | ok bs => rfl

/-- The set of stages is read from the three lowest bits of STAGES. -/
theorem stageSet_congr {s t : State} (h : ∀ i, i < 3 → t.stages.getLsbD i = s.stages.getLsbD i) :
    t.stageSet = s.stageSet := by
  rw [State.stageSet, h 0 (by decide), h 1 (by decide), h 2 (by decide), State.stageSet]

/-- DECOMPRESS reads STAGES as the set of stages only. -/
theorem decompressResult_with_stages {s : State} {w : Word}
    (h : State.stageSet { s with stages := w } = s.stageSet) :
    State.decompressResult { s with stages := w } = s.decompressResult := by
  rw [State.decompressResult, h]
  rfl

/-- Settles O35: the two words name the same stages, and neither completion reads STAGES. -/
theorem unknownStagesAreSkipped : Obligations.UnknownStagesAreSkipped := by
  refine fun s w h => ⟨_, exec_decompress s, ?_⟩
  rw [exec_decompress, decompressResult_with_stages (stageSet_congr h), endDecompress_with_stages]

end Sys2Proof.Machine
end

section
/-! The frame's header and the tests of a blob (44_frame.md R160 to R163): the length field read back, and the condition
each test reports. -/

namespace Sys2Proof

/-- The length field of a frame has the value of its four bytes, the most significant first (30_encoding.md R78). -/
theorem ofBe32_toNat (a b c d : Byte) :
    (ofBe32 a b c d).toNat = a.toNat * 2 ^ 24 + b.toNat * 2 ^ 16 + c.toNat * 2 ^ 8 + d.toNat := by
  rw [ofBe32, BitVec.toNat_ofNat, Nat.mod_eq_of_lt (by omega)]

/-- The four bytes of `BE32` read back give the word. -/
theorem ofBe32_extractLsb' (v : Word) :
    ofBe32 (v.extractLsb' 24 8) (v.extractLsb' 16 8) (v.extractLsb' 8 8) (v.extractLsb' 0 8) = v := by
  apply BitVec.eq_of_toNat_eq
  simp only [ofBe32_toNat, BitVec.extractLsb'_toNat, Nat.shiftRight_eq_div_pow]
  omega

end Sys2Proof

namespace Sys2Proof.Machine

section
variable {blob : List Byte}

theorem parseFrame_tooShort (h : blob.length < 7) : parseFrame blob = .error .tooShort :=
  if_pos h

theorem parseFrame_invalidFormat (hlen : 7 ≤ blob.length) (hmagic : blob.take 7 ≠ Config.magic) :
    parseFrame blob = .error .invalidFormat := by
  rw [parseFrame, if_neg (by omega), if_pos hmagic]

theorem parseFrame_truncatedLength (hlen : 7 ≤ blob.length) (hmagic : blob.take 7 = Config.magic)
    (hshort : blob.length < 11) : parseFrame blob = .error .truncatedLength := by
  rw [parseFrame, if_neg (by omega), if_neg (by simp [hmagic]), if_pos (by omega)]

/-- With the header complete, the body check alone decides (R163). -/
theorem parseFrame_of_header (hlen : 11 ≤ blob.length) (hmagic : blob.take 7 = Config.magic) :
    parseFrame blob = if blob.length - 11 < (frameLength blob).toNat then .error .truncatedBody
      else .ok (frameLength blob) := by
  rw [parseFrame, if_neg (by omega), if_neg (by simp [hmagic]), if_neg (by omega)]
  rfl

end

/-- A frame's bytes (R160): the magic, the length and the content. -/
theorem frameOf_eq (len : Word) (content : List Byte) : frameOf len content =
    [0x42#8, 0x57#8, 0x54#8, 0x4A#8, 0x53#8, 0x31#8, 0x00#8] ++
      [len.extractLsb' 24 8, len.extractLsb' 16 8, len.extractLsb' 8 8, len.extractLsb' 0 8] ++ content := rfl

@[simp] theorem frameOf_length (len : Word) (content : List Byte) :
    (frameOf len content).length = 11 + content.length := by
  rw [Nat.add_comm]
  rfl

@[simp] theorem frameLength_frameOf (len : Word) (content : List Byte) : frameLength (frameOf len content) = len :=
  ofBe32_extractLsb' len

/-- The parse of a frame compares its declared length with its content's, as naturals (R163). -/
theorem parseFrame_frameOf (len : Word) (content : List Byte) : parseFrame (frameOf len content) =
    if content.length < len.toNat then .error .truncatedBody else .ok len := by
  have hmagic : (frameOf len content).take 7 = Config.magic := rfl
  rw [parseFrame_of_header (by simp) hmagic, frameLength_frameOf, frameOf_length, Nat.add_sub_cancel_left]

/-- Settles O56: a frame's parse is its body check. -/
theorem bodyCheckNeverWraps : Obligations.BodyCheckNeverWraps := by
  intro len body
  rw [parseFrame_frameOf]
  exact ⟨fun henough => if_neg (Nat.not_lt.mpr henough), fun hshort => if_pos hshort⟩

end Sys2Proof.Machine
end

section
/-! The commands FRAME_EMIT and FRAME_PARSE (44_frame.md R160 to R162). -/

namespace Sys2Proof.Machine

theorem exec_frameEmit_badLength {s : State} (h : s.inst.icap < s.inputLength ∨ s.inputLength < s.mlen.toNat) :
    exec .frameEmit s = .next (s.raise .other .badLength) := by
  rw [exec, execFrameEmit]
  obtain hlong | hmlen := h
  · rw [if_pos ((inputTooLong_iff s).mpr hlong)]
  · rw [if_pos hmlen, ite_self]

/-- The capacity test of FRAME_EMIT, once both length tests are passed. -/
theorem exec_frameEmit_fits {s : State} (hfit : s.inputLength ≤ s.inst.icap) (hmlen : s.mlen.toNat ≤ s.inputLength) :
    exec .frameEmit s = if s.inst.ocap < 11 + s.inputLength then .next (s.raise .other .outputOverflow)
      else .next (s.out (frameOf s.mlen s.input)).complete := by
  rw [exec, execFrameEmit, if_neg (by simpa [inputTooLong_iff]), if_neg (Nat.not_lt.mpr hmlen)]
  rfl

/-- Settles O36: the length tests of FRAME_EMIT, its capacity test, and the frame where that fits. -/
theorem frameEmitPrependsTheHeader : Obligations.FrameEmitPrependsTheHeader := by
  refine ⟨fun _ => rfl, fun s hwf => ⟨fun hbad => ?_, fun hfit hmlen hover => ?_, fun hfit hmlen hroom => ?_⟩⟩
  · exact ⟨_, exec_frameEmit_badLength hbad, raise_spoils_output s (by decide) (by decide), raise_status ..⟩
  · rw [exec_frameEmit_fits hfit hmlen, if_pos hover]
    exact ⟨_, rfl, raise_spoils_output s (by decide) (by decide), raise_status ..⟩
  · rw [exec_frameEmit_fits hfit hmlen, if_neg (Nat.not_lt.mpr hroom), ← frameOf_eq]
    have hlen : (frameOf s.mlen s.input).length = 11 + s.inputLength := by simp
    have hdelivers : Delivers s (s.out (frameOf s.mlen s.input)).complete (frameOf s.mlen s.input) := by
      apply delivers_of (input_lt_of hwf (hlen.trans_le hroom)) <;> rfl
    exact ⟨_, rfl, hdelivers, hdelivers.olen.trans hlen, rfl, rfl, rfl⟩

theorem exec_frameParse_tooLong {s : State} (h : s.inst.icap < s.inputLength) :
    exec .frameParse s = .next (s.raise .frameParse .badLength) :=
  if_pos ((inputTooLong_iff s).mpr h)

theorem exec_frameParse_error {s : State} {c : ECode} (hfit : s.inputLength ≤ s.inst.icap)
    (hparse : parseFrame s.input = .error c) : exec .frameParse s = .next (s.raise .frameParse c) := by
  rw [exec, execFrameParse, if_neg (by simpa [inputTooLong_iff]), hparse]

theorem exec_frameParse_ok {s : State} {len : Word} (hfit : s.inputLength ≤ s.inst.icap)
    (hparse : parseFrame s.input = .ok len) : exec .frameParse s = .next (s.setFrame len).complete := by
  rw [exec, execFrameParse, if_neg (by simpa [inputTooLong_iff]), hparse]

/-- An error completion of FRAME_PARSE zeroes POFF and PLEN and keeps MLEN, the output and the metadata. -/
theorem frameParse_fails {s : State} {c : ECode} (hexec : exec .frameParse s = .next (s.raise .frameParse c)) :
    ∃ t, exec .frameParse s = .next t ∧ Ends s t ∧ KeepsOutput s t ∧
      t.poff = 0#32 ∧ t.plen = 0#32 ∧ t.mlen = s.mlen ∧ t.stages = s.stages ∧ t.pidx = s.pidx ∧
      t.status = { s.status with done := true, busy := false, err := true, fb := false, ecode := c } :=
  ⟨_, hexec, raise_ends .., raise_frameParse_keepsOutput c s, rfl, rfl, rfl, rfl, rfl, raise_status ..⟩

theorem setFrame_complete_ends (s : State) (len : Word) : Ends s (s.setFrame len).complete :=
  ⟨⟨rfl, rfl, rfl, fun _ => rfl, rfl, rfl⟩, rfl, rfl⟩

/-- POFF does not wrap where the metadata block ends below 2^32. -/
theorem setFrame_complete_poff_toNat (s : State) {len : Word} (h : 11 + len.toNat < 2 ^ 32) :
    (s.setFrame len).complete.poff.toNat = 11 + len.toNat := by
  rw [complete_poff, setFrame_poff, Config.headerSize, BitVec.toNat_ofNat, Nat.mod_eq_of_lt h]

/-- PLEN is a part of ILEN, so it does not wrap. -/
theorem setFrame_complete_plen_toNat (s : State) (len : Word) :
    (s.setFrame len).complete.plen.toNat = s.inputLength - 11 - len.toNat := by
  have hilen : s.inputLength < 2 ^ 32 := s.ilen.isLt
  rw [complete_plen, setFrame_plen, Config.headerSize, BitVec.toNat_ofNat, Nat.mod_eq_of_lt (by omega)]

/-- Where the header is complete, the length field of `IN` is bytes 7 to 10 of IBUF. -/
theorem frameLength_input {s : State} (h : 11 ≤ s.inputLength) : (frameLength s.input).toNat =
    (s.ibufByte 7).toNat * 2 ^ 24 + (s.ibufByte 8).toNat * 2 ^ 16 + (s.ibufByte 9).toNat * 2 ^ 8
      + (s.ibufByte 10).toNat := by
  have hbyte (i : Nat) (hi : i < 11) : s.input.getD i 0#8 = s.ibufByte i := by
    have hlt : i < s.input.length := by rw [input_length]; omega
    rw [List.getD_eq_getElem _ _ hlt, input_getElem]
  rw [frameLength, ofBe32_toNat, hbyte 7 (by decide), hbyte 8 (by decide), hbyte 9 (by decide), hbyte 10 (by decide)]

/-- A frame whose body holds the declared length gives its three results, which do not wrap as they lie inside ILEN. -/
theorem frameParse_succeeds {s : State} {len : Word} (hfit : s.inputLength ≤ s.inst.icap)
    (hparse : parseFrame s.input = .ok len) (henough : 11 + len.toNat ≤ s.inputLength) :
    ∃ t, exec .frameParse s = .next t ∧ Ends s t ∧ KeepsOutput s t ∧ t.mlen.toNat = len.toNat ∧
      t.poff.toNat = 11 + len.toNat ∧ t.plen.toNat = s.inputLength - 11 - len.toNat ∧ t.stages = s.stages ∧
      t.pidx = s.pidx ∧ t.status = { s.status with done := true, busy := false } := by
  have hpoff : 11 + len.toNat < 2 ^ 32 := henough.trans_lt s.ilen.isLt
  exact ⟨_, exec_frameParse_ok hfit hparse, setFrame_complete_ends .., ⟨rfl, fun _ => rfl⟩, rfl,
    setFrame_complete_poff_toNat s hpoff, setFrame_complete_plen_toNat .., rfl, rfl, rfl⟩

/-- Settles O37: the tests of FRAME_PARSE in their order, then its three results. -/
theorem frameParseReportsTheFirstFault : Obligations.FrameParseReportsTheFirstFault := by
  refine ⟨fun _ => rfl, fun s _ => ?_⟩
  have hn : s.input.length = s.inputLength := input_length s
  refine ⟨fun hlong => ?_, fun hfit hshort => ?_, fun hfit hlen hmagic => ?_, fun hfit hlen hmagic hshort => ?_,
    fun hfit hlen hmagic hshort => ?_, fun hfit hmagic henough => ?_⟩
  · exact frameParse_fails (exec_frameParse_tooLong hlong)
  · exact frameParse_fails (exec_frameParse_error hfit (parseFrame_tooShort (by omega)))
  · exact frameParse_fails (exec_frameParse_error hfit (parseFrame_invalidFormat (by omega) hmagic))
  · exact frameParse_fails (exec_frameParse_error hfit (parseFrame_truncatedLength (by omega) hmagic (by omega)))
  · refine frameParse_fails (exec_frameParse_error hfit ?_)
    rw [parseFrame_of_header (by omega) hmagic, frameLength_input hlen, if_pos (by omega)]
  · rw [← frameLength_input (Nat.le_of_add_right_le henough)] at henough ⊢
    refine frameParse_succeeds hfit ?_ henough
    rw [parseFrame_of_header (by omega) hmagic, if_neg (by omega)]

end Sys2Proof.Machine
end

section
/-! The error completion (60_exceptions.md R181) and the two tests that come first: the illegal word (R182), and the
input that does not lie inside IBUF (R183). -/

namespace Sys2Proof.Machine

/-- The STATUS of an error completion, field by field: BWT_DEC and DECOMPRESS consume PIDXV, DECOMPRESS alone STGV. -/
theorem consume_fail (k : ErrorLine) (c : ECode) (f : Status) : (f.fail c).consume k = { f with
    err := true, ecode := c, fb := false, done := true, busy := false,
    pidxv := f.pidxv && decide (k ≠ .bwtDec ∧ k ≠ .decompress), stgv := f.stgv && decide (k ≠ .decompress) } := by
  cases k <;> simp [Status.consume, Status.fail]

/-- IllegalCommand on every line but FRAME_PARSE's retires the command and writes STATUS alone. -/
theorem raise_illegalCommand {k : ErrorLine} (s : State) (hk : k ≠ .frameParse) : s.raise k .illegalCommand =
    { s with status := (s.status.fail .illegalCommand).consume k }.retire := by
  rw [State.raise, State.spoil, if_neg hk, if_pos rfl]

/-- Only the line of FRAME_PARSE writes POFF and PLEN. -/
theorem raise_keeps_poff_plen {k : ErrorLine} (c : ECode) (s : State) (hk : k ≠ .frameParse) :
    (s.raise k c).poff = s.poff ∧ (s.raise k c).plen = s.plen := by
  by_cases hc : c = .illegalCommand
  · rw [hc, raise_illegalCommand s hk]
    exact ⟨rfl, rfl⟩
  · have hspoils := raise_spoils_output s hk hc
    exact ⟨hspoils.poff, hspoils.plen⟩

/-- Settles O20: FRAME_PARSE, every other line with IllegalCommand, and every other line with any other condition are
the three branches of `State.spoil`. -/
theorem errorCompletionChangesOnlyItsFields : Obligations.ErrorCompletionChangesOnlyItsFields := by
  intro s k c
  obtain ⟨-, -, hstatus, hstages, hpidx, -, hmlen, -⟩ := raise_spec k c s
  refine ⟨raise_ends k c s, hstages, hpidx, hmlen, hstatus.trans (consume_fail k c s.status), ?_,
    raise_keeps_poff_plen c s, ?_, ?_⟩
  · rintro rfl
    obtain ⟨hpoff, hplen, -⟩ := raise_frameParse c s
    exact ⟨hpoff, hplen, raise_frameParse_keepsOutput c s⟩
  · intro hk hc
    have hspoils := raise_spoils_output s hk hc
    exact ⟨hspoils.olen, hspoils.obuf⟩
  · rintro hk rfl
    rw [raise_illegalCommand s hk]
    exact ⟨rfl, fun _ => rfl⟩

/-- Settles O19: the sequencer's turn takes the error completion of an illegal word, which writes STATUS alone. -/
theorem illegalWordEndsWithIllegalCommand : Obligations.IllegalWordEndsWithIllegalCommand :=
  fun s _ hseq hleft htodo hdec => ⟨_, step_illegalCommand hseq hleft htodo hdec, raise_ends ..,
    raise_illegal_keepsOutput s, raise_status .., rfl, rfl, rfl, rfl, rfl⟩

/-- The line of R181 a command's error completion takes. -/
def errorLineOf : Instr → ErrorLine
  | .bwtDec => .bwtDec
  | .decompress => .decompress
  | .frameParse => .frameParse
  | _ => .other

theorem errorLineOf_eq_frameParse_iff (i : Instr) : errorLineOf i = .frameParse ↔ i = .frameParse := by
  cases i <;> simp [errorLineOf]

/-- An input that does not lie inside IBUF ends every command that exists on the instance in the BadLength completion of
its line, whatever the other operands are. -/
theorem exec_tooLong {s : State} {i : Instr} (hcommand : i.stream = none) (hexists : i.wf s.inst = true)
    (hlong : s.inst.icap < s.inputLength) : exec i s = .next (s.raise (errorLineOf i) .badLength) := by
  have htest : s.inputTooLong = true := (inputTooLong_iff s).mpr hlong
  cases i with
  | bwtEnc => exact exec_bwtEnc_tooLong hlong
  | bwtDec => exact exec_bwtDec_tooLong hlong
  | mtfEnc => exact if_pos htest
  | mtfDec => exact if_pos htest
  | rleEnc => exact if_pos htest
  | rleDec => exact if_pos htest
  | pairEnc => exact (exec_pairEnc_present hexists).trans (if_pos htest)
  | pairDec => exact (exec_pairDec_present hexists).trans (if_pos htest)
  | compress => exact congrArg _ (runCompress_tooLong StageSet.all hlong)
  | compressSub sel => exact congrArg _ (runCompress_tooLong sel hlong)
  | decompress => rw [exec_decompress, decompressResult_tooLong hlong]; rfl
  | frameEmit => exact exec_frameEmit_badLength (.inl hlong)
  | frameParse => exact exec_frameParse_tooLong hlong
  | rleLit | rleEsc3 | pairTok | mtfCode | frameHdr => cases hcommand

/-- Settles O21: the length test is every command's first, and what it ends in is the error completion of O20 on that
command's line. -/
theorem everyCommandTestsItsLengthFirst : Obligations.EveryCommandTestsItsLengthFirst := by
  refine ⟨fun s hmlen => ?_, fun s i hcommand hexists hlong => ?_⟩
  · refine ⟨_, exec_frameEmit_badLength (.inr hmlen), raise_spoils_output s (by decide) (by decide), ?_⟩
    rw [raise_status]
    exact ⟨rfl, rfl⟩
  · obtain ⟨hends, hstages, hpidx, hmlen, hstatus, hparse, hkeeps, hspoils, -⟩ :=
      errorCompletionChangesOnlyItsFields s (errorLineOf i) .badLength
    refine ⟨_, exec_tooLong hcommand hexists hlong, hends, ?_⟩
    rw [hstatus]
    refine ⟨rfl, rfl, rfl, rfl, hstages, hpidx, hmlen, fun hi => ?_, fun hi => ?_⟩
    · exact hparse ((errorLineOf_eq_frameParse_iff i).mpr hi)
    · have hline : errorLineOf i ≠ .frameParse := (errorLineOf_eq_frameParse_iff i).not.mpr hi
      obtain ⟨hpoff, hplen⟩ := hkeeps hline
      exact ⟨hpoff, hplen, (hspoils hline (by decide)).1⟩

end Sys2Proof.Machine
end

section
/-! The decoder and the encoder of command words are inverse to one another (30_encoding.md R60 to R62), and the rows of
the opcode table (section 1b) are a second account of the same words. -/

namespace Sys2Proof

/-- A word with bits 31:12 clear is its opcode and its bits 11:8. -/
theorem word_eq_of_reserved_zero {w : Word} (h : w.extractLsb' 12 20 = 0#20) :
    w = BitVec.ofNat 32 ((w.extractLsb' 0 8).toNat + 2 ^ 8 * (w.extractLsb' 8 4).toNat) := by
  have hhigh := congrArg BitVec.toNat h
  apply BitVec.eq_of_toNat_eq
  simp only [BitVec.extractLsb'_toNat, BitVec.toNat_ofNat, Nat.shiftRight_eq_div_pow] at hhigh ⊢
  omega

/-- Bits 11:8 of a word are SUB and the three bits of SMASK. -/
theorem extractLsb'_eight_four_toNat (w : Word) :
    (w.extractLsb' 8 4).toNat = (w.getLsbD 8).toNat + 2 * (w.extractLsb' 9 3).toNat := by
  simp only [BitVec.getLsbD, Nat.toNat_testBit, BitVec.extractLsb'_toNat, Nat.shiftRight_eq_div_pow]
  omega

theorem extractLsb'_nine_three_toNat (w : Word) : (w.extractLsb' 9 3).toNat =
    (w.getLsbD 9).toNat + 2 * (w.getLsbD 10).toNat + 4 * (w.getLsbD 11).toNat := by
  simp only [BitVec.getLsbD, Nat.toNat_testBit, BitVec.extractLsb'_toNat, Nat.shiftRight_eq_div_pow]
  omega

/-- An opcode decoded from a word whose other bits are 0 is the whole word. -/
theorem encode_of_decodeOpcode {p : Config.Instance} {op : Byte} {i : Instr} (h : decodeOpcode p op = .ok i) :
    i.wf p = true ∧ i.stream = none ∧ encode i = .word (BitVec.ofNat 32 op.toNat) := by
  unfold decodeOpcode at h
  split at h
  case h_7 hop | h_8 hop =>
    split at h
    · next hpair =>
      cases h
      exact ⟨hpair, rfl, by rw [hop]; rfl⟩
    · cases h
  case h_12 => cases h
  all_goals
    next hop =>
    cases h
    exact ⟨rfl, rfl, by rw [hop]; rfl⟩

/-- A decoded command exists on the instance and is encoded as the word it was read from. -/
theorem encode_of_decodeCommand {p : Config.Instance} {w : Word} {i : Instr} (h : decodeCommand p w = .ok i) :
    i.wf p = true ∧ i.stream = none ∧ encode i = .word w := by
  unfold decodeCommand at h
  split_ifs at h with hreserved hop hsub hmask hfields
  all_goals have hw := word_eq_of_reserved_zero (not_not.mp hreserved)
  · rw [hop, extractLsb'_eight_four_toNat, hsub, extractLsb'_nine_three_toNat] at hw
    cases h
    refine ⟨rfl, rfl, congrArg Encoding.word (Eq.trans (congrArg (BitVec.ofNat 32) ?_) hw.symm)⟩
    simp only [BitVec.toNat_ofNat, Bool.toNat_true]
    omega
  · rw [hop, extractLsb'_eight_four_toNat, hmask, Bool.eq_false_of_not_eq_true hsub] at hw
    cases h
    exact ⟨rfl, rfl, congrArg Encoding.word hw.symm⟩
  · rw [not_not.mp hfields] at hw
    rw [hw]
    exact encode_of_decodeOpcode h

/-- The word of a command that exists on the instance decodes to the command. -/
theorem decodeCommand_of_encode {p : Config.Instance} {w : Word} {i : Instr} (hexists : i.wf p = true)
    (hword : encode i = .word w) : decodeCommand p w = .ok i := by
  cases i
  case compressSub sel =>
    obtain ⟨bwt, mtf, rle⟩ := sel
    cases hword
    exact Machine.decodeCommand_compressSub p bwt mtf rle
  case pairEnc | pairDec =>
    cases hword
    exact if_pos hexists
  case rleLit | rleEsc3 | pairTok | mtfCode | frameHdr => cases hword
  all_goals
    cases hword
    rfl

/-- Settles O15: the decoder inverts the encoder field by field, and the encoder's words pass the decoder's tests. -/
theorem commandDecodeInvertsEncode : Obligations.CommandDecodeInvertsEncode := fun _ _ _ =>
  ⟨encode_of_decodeCommand, fun ⟨hexists, _, hword⟩ => decodeCommand_of_encode hexists hword⟩

/-- The table's rows exclude one another: two rows differ in a bit that both masks test. -/
theorem commandRows_pairwise_differ :
    commandRows.Pairwise fun r r' => r.value &&& r'.mask ≠ r'.value &&& r.mask := by
  decide

/-- A word selects no two rows that differ in a bit that both masks test. -/
theorem not_selectedBy_of_differ {p : Config.Instance} {w : Word} {r r' : CommandRow}
    (hdiffer : r.value &&& r'.mask ≠ r'.value &&& r.mask) (h : r.selectedBy p w = true) :
    r'.selectedBy p w = false := by
  by_contra h'
  simp only [CommandRow.selectedBy, Bool.not_eq_false, Bool.and_eq_true, decide_eq_true_eq] at h h'
  apply hdiffer
  rw [← h.1, ← h'.1, BitVec.and_assoc, BitVec.and_assoc, BitVec.and_comm r.mask]

theorem length_filter_selectedBy_le_one (p : Config.Instance) (w : Word) :
    (commandRows.filter fun r => r.selectedBy p w).length ≤ 1 := by
  have hnone : (commandRows.filter fun r => r.selectedBy p w).Pairwise fun _ _ => False :=
    List.pairwise_filter.mpr (commandRows_pairwise_differ.imp fun hdiffer h h' => by
      simp [not_selectedBy_of_differ hdiffer h] at h')
  generalize commandRows.filter _ = rows at hnone ⊢
  match rows with
  | [] | [_] => simp
  | _ :: r :: _ => exact (List.rel_of_pairwise_cons hnone (List.mem_cons_self (a := r))).elim

/-- The words the thirteen rows select, in the order of the table: one word each, but for the row of COMPRESS.SUB. -/
theorem exists_selectedBy_iff (p : Config.Instance) (w : Word) : (∃ r ∈ commandRows, r.selectedBy p w = true) ↔
    w = 0x01#32 ∨ w = 0x02#32 ∨ w = 0x03#32 ∨ w = 0x04#32 ∨ w = 0x05#32 ∨ w = 0x06#32 ∨
    w = 0x07#32 ∧ p.pairPresent = true ∨ w = 0x08#32 ∧ p.pairPresent = true ∨ w = 0x09#32 ∨
    w &&& 0xFFFFF1FF#32 = 0x109#32 ∨ w = 0x0A#32 ∨ w = 0x0B#32 ∨ w = 0x0C#32 := by
  have hfull : w &&& 0xFFFFFFFF#32 = w := BitVec.and_allOnes
  simp [commandRows, CommandRow.selectedBy, hfull]

/-- A word that the row of COMPRESS.SUB selects has bits 31:12 clear, OP 0x09 and SUB set. -/
theorem decodeCommand_of_subMask {w : Word} (p : Config.Instance) (h : w &&& 0xFFFFF1FF#32 = 0x109#32) :
    decodeCommand p w =
      .ok (.compressSub { bwt := w.getLsbD 9, mtf := w.getLsbD 10, rle := w.getLsbD 11 }) := by
  have hfield (lo n : Nat) (hmask : BitVec.extractLsb' lo n 0xFFFFF1FF#32 = BitVec.allOnes n) :
      w.extractLsb' lo n = BitVec.extractLsb' lo n 0x109#32 := by
    rw [← h, BitVec.extractLsb'_and, hmask, BitVec.and_allOnes]
  have hsub : w.getLsbD 8 = true := by
    simpa using congrArg (BitVec.getLsbD · 8) h
  have hreserved : w.extractLsb' 12 20 = 0#20 := hfield 12 20 rfl
  have hop : w.extractLsb' 0 8 = 0x09#8 := hfield 0 8 rfl
  rw [decodeCommand, if_neg (not_not.mpr hreserved), if_pos hop, if_pos hsub]

/-- Settles O14: the rows exclude one another, and the words they select are the words of the commands. -/
theorem commandRowsAreDisjointAndComplete : Obligations.CommandRowsAreDisjointAndComplete := by
  refine fun p w => ⟨length_filter_selectedBy_le_one p w, ?_⟩
  rw [exists_selectedBy_iff]
  constructor
  · rintro ⟨i, hdec⟩
    obtain ⟨hexists, hcommand, hword⟩ := encode_of_decodeCommand hdec
    cases i
    case rleLit | rleEsc3 | pairTok | mtfCode | frameHdr => cases hcommand
    case pairEnc | pairDec =>
      have hpair : p.pairPresent = true := hexists
      cases hword
      simp [hpair]
    case compressSub sel =>
      obtain ⟨bwt, mtf, rle⟩ := sel
      have hsub : compressSubWord ⟨bwt, mtf, rle⟩ &&& 0xFFFFF1FF#32 = 0x109#32 := by
        cases bwt <;> cases mtf <;> cases rle <;> rfl
      cases hword
      simp [hsub]
    all_goals
      cases hword
      simp
  · rintro (rfl | rfl | rfl | rfl | rfl | rfl | ⟨rfl, hpair⟩ | ⟨rfl, hpair⟩ | rfl | hsub | rfl | rfl | rfl)
    any_goals exact ⟨_, rfl⟩
    · exact ⟨_, if_pos hpair⟩
    · exact ⟨_, if_pos hpair⟩
    · exact ⟨_, decodeCommand_of_subMask p hsub⟩

end Sys2Proof
end

section
/-! The decoder and the encoder of the four streams are inverse to one another (30_encoding.md R70 to R78). -/

namespace Sys2Proof

theorem decodeRle_escape (v c : Byte) (rest : List Byte) :
    decodeRle (Config.esc :: v :: c :: rest) = .ok (.rleEsc3 v c, rest) := by
  rw [decodeRle, if_pos rfl]

theorem rleLit_mayPrecede_iff (a : Byte) (rest : List Byte) :
    Instr.mayPrecede rest (.rleLit a) = true ↔ a ≠ Config.esc ∨ rest.length < 2 := by
  simp [Instr.mayPrecede]

theorem decodeRle_literal {a : Byte} {rest : List Byte} (h : a ≠ Config.esc ∨ rest.length < 2) :
    decodeRle (a :: rest) = .ok (.rleLit a, rest) := by
  match rest with
  | [] | [_] => rfl
  | v :: c :: rest => exact if_neg (h.resolve_right (by simp))

/-- The bytes begin with a unit that exists on the instance, belongs to the stream and may stand before the rest. -/
def BeginsWithUnit (p : Config.Instance) (st : Stream) (bs : List Byte) (i : Instr) (rest : List Byte) : Prop :=
  i.wf p = true ∧ i.stream = some st ∧ i.mayPrecede rest = true ∧ bs = encodeUnit i ++ rest

variable {p : Config.Instance} {bs rest : List Byte} {i : Instr}

theorem beginsWithUnit_of_decodeRle (h : decodeRle bs = .ok (i, rest)) :
    BeginsWithUnit p .rle bs i rest := by
  match bs with
  | [] => cases h
  | a :: tail =>
    by_cases hliteral : a ≠ Config.esc ∨ tail.length < 2
    · rw [decodeRle_literal hliteral] at h
      cases h
      exact ⟨rfl, rfl, (rleLit_mayPrecede_iff ..).mpr hliteral, rfl⟩
    · obtain ⟨hesc, hlen⟩ := not_or.mp hliteral
      obtain rfl := not_not.mp hesc
      match tail with
      | [] | [_] => simp at hlen
      | v :: c :: tail =>
        rw [decodeRle_escape] at h
        cases h
        exact ⟨rfl, rfl, rfl, rfl⟩

theorem beginsWithUnit_of_decodePair (hpair : p.pairPresent = true) (h : decodePair bs = .ok (i, rest)) :
    BeginsWithUnit p .pair bs i rest := by
  match bs with
  | [] | [_] => cases h
  | v :: c :: tail =>
    cases h
    exact ⟨hpair, rfl, rfl, rfl⟩

theorem beginsWithUnit_of_decodeMtf (h : decodeMtf bs = .ok (i, rest)) :
    BeginsWithUnit p .mtf bs i rest := by
  match bs with
  | [] => cases h
  | k :: tail =>
    cases h
    exact ⟨rfl, rfl, rfl, rfl⟩

/-- The length field of a frame is written as the four bytes it was read from. -/
theorem be32_ofBe32 (a b c d : Byte) : be32 (ofBe32 a b c d) = [a, b, c, d] := by
  have hbyte (k : Nat) (x : Byte) (h : (ofBe32 a b c d).toNat / 2 ^ k % 2 ^ 8 = x.toNat) :
      (ofBe32 a b c d).extractLsb' k 8 = x := by
    apply BitVec.eq_of_toNat_eq
    rwa [BitVec.extractLsb'_toNat, Nat.shiftRight_eq_div_pow]
  rw [be32, hbyte 24 a, hbyte 16 b, hbyte 8 c, hbyte 0 d] <;> rw [ofBe32_toNat] <;> omega

theorem beginsWithUnit_of_decodeFrame (h : decodeFrame bs = .ok (i, rest)) :
    BeginsWithUnit p .frame bs i rest := by
  rw [decodeFrame] at h
  split_ifs at h with hlen hmagic
  split at h
  · next a b c d tail hdrop =>
    cases h
    refine ⟨rfl, rfl, rfl, ?_⟩
    calc bs = bs.take 7 ++ bs.drop 7 := (List.take_append_drop 7 bs).symm
      _ = Config.magic ++ be32 (ofBe32 a b c d) ++ rest := by
        rw [not_not.mp hmagic, hdrop, be32_ofBe32, List.append_assoc]
        rfl
  · cases h

theorem beginsWithUnit_of_decodeStream {st : Stream} (h : decodeStream p st bs = .ok (i, rest)) :
    BeginsWithUnit p st bs i rest := by
  cases st with
  | rle => exact beginsWithUnit_of_decodeRle h
  | pair =>
    rw [decodeStream] at h
    split_ifs at h with hpair
    exact beginsWithUnit_of_decodePair hpair h
  | mtf => exact beginsWithUnit_of_decodeMtf h
  | frame => exact beginsWithUnit_of_decodeFrame h

/-- A unit that exists on the instance is decoded from its encoding where it may stand. -/
theorem decodeStream_encodeUnit {st : Stream} (hexists : i.wf p = true) (hstream : i.stream = some st)
    (hplace : i.mayPrecede rest = true) :
    decodeStream p st (encodeUnit i ++ rest) = .ok (i, rest) := by
  cases i with
  | rleLit v =>
    cases hstream
    exact decodeRle_literal ((rleLit_mayPrecede_iff v rest).mp hplace)
  | rleEsc3 v c =>
    cases hstream
    exact decodeRle_escape v c rest
  | pairTok v c =>
    cases hstream
    exact if_pos hexists
  | mtfCode k =>
    cases hstream
    rfl
  | frameHdr len =>
    cases hstream
    exact congrArg (fun len => Except.ok (Instr.frameHdr len, rest)) (ofBe32_extractLsb' len)
  | _ => cases hstream

/-- Settles O16: each stream's decoder inverts the encoding of its units. -/
theorem streamDecodeInvertsEncode : Obligations.StreamDecodeInvertsEncode := by
  refine fun p st bs rest i => ⟨beginsWithUnit_of_decodeStream, ?_⟩
  rintro ⟨hexists, hstream, hplace, rfl⟩
  exact decodeStream_encodeUnit hexists hstream hplace

end Sys2Proof
end

section
/-! The host's accesses (20_memory.md R41, R42, R51, 45_common.md R235): each access of the interface's shape, what an
access that has a next state can do, and the accesses that have none. -/

namespace Sys2Proof.Machine

variable {s t : State} {offset : Nat}

theorem access_regRead (s : State) (h : offset % 4 = 0) :
    State.access (.regRead offset 32) s = .next (s.readReg offset) := by
  simp [State.access, registerShape, h]

theorem access_regWrite (s : State) (h : offset % 4 = 0) (v : Word) :
    State.access (.regWrite offset 32 v) s = .next (s.whenIdle (s.writeReg offset v)) := by
  simp [State.access, registerShape, h]

theorem access_ibufWrite {i : Nat} (h : i < s.inst.icap) (b : Byte) :
    State.access (.ibufWrite i 8 b) s = .next (s.whenIdle { s with ibuf := s.ibuf.set i b }) := by
  simp [State.access, h]

theorem access_obufWrite {i : Nat} (h : i < s.inst.ocap) (b : Byte) :
    State.access (.obufWrite i 8 b) s = .next s := by
  simp [State.access, h]

theorem access_ibufRead {i : Nat} (h : i < s.inst.icap) :
    State.access (.ibufRead i 8) s = .next (s.readByte i (s.ibufByte i)) := by
  simp [State.access, h]

theorem access_obufRead {i : Nat} (h : i < s.inst.ocap) :
    State.access (.obufRead i 8) s = .next (s.readByte i (s.obufByte i)) := by
  simp [State.access, h]

theorem whenIdle_idle (h : s.seq = .idle) (written : State) : s.whenIdle written = written := by
  rw [State.whenIdle, h]

theorem whenIdle_busy (h : s.seq = .busy) (written : State) : s.whenIdle written = s := by
  rw [State.whenIdle, h]

theorem readReg_idle (h : s.seq = .idle) (offset : Nat) : s.readReg offset = s.reply (.word (s.regValue offset)) := by
  rw [State.readReg, h]

theorem readByte_idle (h : s.seq = .idle) (i : Nat) (b : Byte) : s.readByte i b = s.reply (.byte b) := by
  rw [State.readByte, h]

/-- What an access that has a next state can do. -/
inductive AccessEffect (s : State) : Access → State → Prop
  /-- A read gives the host a value the block holds. -/
  | reply (a : Access) (r : Reply) : a ≠ .rst → AccessEffect s a (s.reply r)
  /-- A read while BUSY gives the host a value drawn for it. -/
  | replyUnspecified (a : Access) (r : Reply) : a ≠ .rst → s.seq = .busy → AccessEffect s a (s.replyUnspecified r)
  /-- A write is ignored. -/
  | ignored (a : Access) : a ≠ .rst → AccessEffect s a s
  /-- A register is written while IDLE. -/
  | regWrite (offset : Nat) (v : Word) : s.seq = .idle → AccessEffect s (.regWrite offset 32 v) (s.writeReg offset v)
  /-- A byte of IBUF is written while IDLE. -/
  | ibufWrite (i : Nat) (b : Byte) : s.seq = .idle → i < s.inst.icap →
      AccessEffect s (.ibufWrite i 8 b) { s with ibuf := s.ibuf.set i b }
  /-- The reset input. -/
  | rst : AccessEffect s .rst s.applyReset

theorem registerShape_eq_none_iff (offset width : Nat) :
    registerShape offset width = none ↔ width = 32 ∧ offset % 4 = 0 := by
  rw [registerShape]
  split_ifs with hwidth haligned
  · simp [hwidth]
  · simp [haligned]
  · simp [not_not.mp hwidth, not_not.mp haligned]

theorem readReg_effect (s : State) (a : Access) (ha : a ≠ .rst) (offset : Nat) :
    AccessEffect s a (s.readReg offset) := by
  unfold State.readReg
  split
  · exact .reply _ _ ha
  · split
    · exact .reply _ _ ha
    · exact .replyUnspecified _ _ ha ‹_›

theorem readByte_effect (s : State) (a : Access) (ha : a ≠ .rst) (i : Nat) (b : Byte) :
    AccessEffect s a (s.readByte i b) := by
  unfold State.readByte
  split
  · exact .reply _ _ ha
  · exact .replyUnspecified _ _ ha ‹_›

theorem whenIdle_effect {a : Access} {written : State} (ha : a ≠ .rst)
    (h : s.seq = .idle → AccessEffect s a written) : AccessEffect s a (s.whenIdle written) := by
  unfold State.whenIdle
  split
  · exact h ‹_›
  · exact .ignored _ ha

/-- An access that has a next state passes the tests of its shape and its index, and has one of the six effects. -/
theorem access_effect {a : Access} (h : State.access a s = .next t) : AccessEffect s a t := by
  cases a with
  | regRead offset width =>
    simp only [State.access] at h
    split at h <;> cases h
    exact readReg_effect s (.regRead offset width) nofun offset
  | regWrite offset width v =>
    simp only [State.access] at h
    split at h
    · cases h
    · next hshape =>
      obtain ⟨rfl, -⟩ := (registerShape_eq_none_iff ..).mp hshape
      cases h
      exact whenIdle_effect nofun (.regWrite offset v)
  | ibufRead i width =>
    simp only [State.access] at h
    split_ifs at h
    cases h
    exact readByte_effect s (.ibufRead i width) nofun ..
  | ibufWrite i width b =>
    simp only [State.access] at h
    split_ifs at h with hwidth hi
    obtain rfl := not_not.mp hwidth
    cases h
    exact whenIdle_effect nofun (.ibufWrite i b · hi)
  | obufRead i width =>
    simp only [State.access] at h
    split_ifs at h
    cases h
    exact readByte_effect s (.obufRead i width) nofun ..
  | obufWrite i width b =>
    simp only [State.access] at h
    split_ifs at h
    cases h
    exact .ignored _ nofun
  | rst =>
    cases h
    exact .rst

/-- Settles O4: the read of an aligned offset returns the value of that register. -/
theorem idleRegisterReadReturnsTheValue : Obligations.IdleRegisterReadReturnsTheValue := by
  intro s offset hidle haligned
  refine ⟨s.regValue offset, ?_, ?_, ?_, ?_, ?_, ?_, ?_, ?_, ?_, ?_, fun hreserved => ?_⟩
  · rw [access_regRead s haligned, readReg_idle hidle]
    rfl
  iterate 9
    rintro rfl
    rfl
  · unfold State.regValue
    split <;> first | omega | rfl

/-- What a write of STAGES stores is its lowest byte. -/
theorem zeroExtend_extractLsb'_zero_eight (v : Word) :
    (v.extractLsb' 0 8).zeroExtend 32 = BitVec.ofNat 32 (v.toNat % 256) := by
  apply BitVec.eq_of_toNat_eq
  simp

/-- The write of a register other than CMD, by offset. -/
theorem writeReg_of_ne_cmd (s : State) (h : offset ≠ 0x00) (v : Word) : s.writeReg offset v =
    if offset = 0x08 then
      { s with stages := BitVec.ofNat 32 (v.toNat % 256), status := { s.status with stgv := true } }
    else if offset = 0x0C then { s with pidx := v, status := { s.status with pidxv := true } }
    else if offset = 0x10 then { s with ilen := v }
    else if offset = 0x18 then { s with mlen := v }
    else s := by
  unfold State.writeReg
  split
  · contradiction
  · rw [if_pos rfl, ← zeroExtend_extractLsb'_zero_eight]
    rfl
  · rfl
  · rfl
  · rfl
  · next _ h08 h0C h10 h18 => rw [if_neg h08, if_neg h0C, if_neg h10, if_neg h18]

/-- Settles O5: with SEQ IDLE the write is performed, at the offset it names. -/
theorem idleRegisterWriteStoresByOffset : Obligations.IdleRegisterWriteStoresByOffset :=
  fun s _ v hidle haligned hcmd => by
    rw [access_regWrite s haligned, whenIdle_idle hidle, writeReg_of_ne_cmd s hcmd]

/-- Settles O6: with SEQ IDLE a write of CMD is the start step. -/
theorem commandWriteStartsTheCommand : Obligations.CommandWriteStartsTheCommand := fun s w hidle =>
  ⟨s.startCommand w, by rw [access_regWrite s rfl, whenIdle_idle hidle]; rfl, rfl, rfl, rfl, rfl, rfl, rfl, rfl, rfl,
    rfl, rfl, fun _ => rfl, fun _ => rfl, rfl, rfl, rfl⟩

/-- Settles O7: while BUSY a write is ignored, and every other effect but the reset input's is a reply to the host. -/
theorem busyAccessChangesNothingOfTheBlock : Obligations.BusyAccessChangesNothingOfTheBlock := by
  refine ⟨fun s hbusy => ⟨fun offset v haligned => ?_, fun i b hi => ?_, fun i b => (access_obufWrite · b)⟩,
    fun s t a hbusy hrst h => ?_⟩
  · rw [access_regWrite s haligned, whenIdle_busy hbusy]
  · rw [access_ibufWrite hi, whenIdle_busy hbusy]
  · cases access_effect h with
    | reply | replyUnspecified | ignored => exact ⟨by constructor <;> intros <;> rfl, rfl, rfl⟩
    | regWrite _ _ hidle | ibufWrite _ _ hidle => simp [hbusy] at hidle
    | rst => contradiction

/-- Settles O9: the tests of the access come before its effect. -/
theorem badAccessHasNoStep : Obligations.BadAccessHasNoStep := by
  refine fun s => ⟨fun offset width hwidth => ?_, fun offset hoffset => ?_, fun i hi => ?_, fun i hi => ?_,
    fun i width b hwidth => ?_⟩
  · simp [State.access, registerShape, hwidth]
  · simp [State.access, registerShape, hoffset]
  · simp [State.access, Nat.not_lt.mpr hi]
  · simp [State.access, Nat.not_lt.mpr hi]
  · simp [State.access, hwidth]

/-- Settles O10: each access of a buffer by its rule; the byte written is read back, and no other. -/
theorem idleBufferAccessMovesOneByte : Obligations.IdleBufferAccessMovesOneByte := by
  refine fun s hidle => ⟨fun i b hi => ⟨{ s with ibuf := s.ibuf.set i b }, ?_, ?_, fun j hj => ?_, rfl⟩,
    fun i hi => ?_, fun i hi => ?_, fun i b => (access_obufWrite · b)⟩
  · rw [access_ibufWrite hi, whenIdle_idle hidle]
  · simp [State.ibufByte]
  · simp [State.ibufByte, get?_set_other s.ibuf b hj.symm]
  · rw [access_ibufRead hi, readByte_idle hidle]
    rfl
  · rw [access_obufRead hi, readByte_idle hidle]
    rfl

/-- Settles O11: no effect but the start step and the reset step touches the outcome. -/
theorem outcomeStaysUntilTheNextStart : Obligations.OutcomeStaysUntilTheNextStart := by
  intro s t a h hrst hstart
  cases access_effect h with
  | reply | replyUnspecified | ignored | ibufWrite => exact ⟨rfl, rfl, rfl, rfl, rfl⟩
  | regWrite offset v hidle =>
    have hcmd : offset ≠ 0x00 := by
      rintro rfl
      simp [hstart _ _ rfl] at hidle
    rw [writeReg_of_ne_cmd s hcmd]
    split_ifs <;> exact ⟨rfl, rfl, rfl, rfl, rfl⟩
  | rst => contradiction

end Sys2Proof.Machine
end

section
/-! STATUS as a word (10_state.md R21, 60_exceptions.md R180), the registers after reset (R27, 70_reset_and_hazards.md
R210), and the reads while BUSY (20_memory.md R51). -/

namespace Sys2Proof.Machine

/-- A bit of a word by division. -/
theorem getLsbD_eq_of_toNat {w : Word} {i : Nat} {b : Bool} (h : w.toNat / 2 ^ i % 2 = b.toNat) : w.getLsbD i = b := by
  rw [BitVec.getLsbD, Nat.testBit_eq_decide_div_mod_eq, h]
  simp

/-- A field of a word by division. -/
theorem extractLsb'_eq_of_toNat {w : Word} {i n : Nat} {x : BitVec n} (h : w.toNat / 2 ^ i % 2 ^ n = x.toNat) :
    w.extractLsb' i n = x := by
  apply BitVec.eq_of_toNat_eq
  rwa [BitVec.extractLsb'_toNat, Nat.shiftRight_eq_div_pow]

/-- Settles O3: no field of STATUS reaches into the next, so each is read back by division. -/
theorem statusWordHoldsItsFields : Obligations.StatusWordHoldsItsFields := by
  refine ⟨fun f => ?_, rfl, rfl, rfl, rfl, rfl, rfl, rfl, rfl, rfl, rfl, rfl, rfl⟩
  have hbusy := f.busy.toNat_le
  have hdone := f.done.toNat_le
  have herr := f.err.toNat_le
  have hfb := f.fb.toNat_le
  have hstgv := f.stgv.toNat_le
  have hpidxv := f.pidxv.toNat_le
  have hcode := f.ecode.code.isLt
  have hword : f.word.toNat = f.busy.toNat + f.done.toNat * 2 + f.err.toNat * 4 + f.fb.toNat * 8 +
      f.stgv.toNat * 16 + f.pidxv.toNat * 32 + f.ecode.code.toNat * 256 := by
    rw [Status.word, BitVec.toNat_ofNat, Nat.mod_eq_of_lt (by omega)]
  refine ⟨getLsbD_eq_of_toNat ?_, getLsbD_eq_of_toNat ?_, getLsbD_eq_of_toNat ?_, getLsbD_eq_of_toNat ?_,
    getLsbD_eq_of_toNat ?_, getLsbD_eq_of_toNat ?_, extractLsb'_eq_of_toNat ?_, extractLsb'_eq_of_toNat ?_,
    extractLsb'_eq_of_toNat ?_⟩
  all_goals
    simp only [hword, BitVec.toNat_ofNat]
    omega

theorem statusWord_reset : Status.reset.word = 0#32 := by decide

theorem regValue_resetOf (p : Config.Instance) (offset : Nat) : (State.resetOf p).regValue offset = 0#32 := by
  unfold State.regValue
  split
  case h_2 => exact statusWord_reset
  all_goals rfl

/-- Settles O1: every register after reset is 0 and no byte is listed. -/
theorem resetLeavesEveryRegisterZero : Obligations.ResetLeavesEveryRegisterZero :=
  ⟨regValue_resetOf, fun _ => ⟨rfl, rfl, rfl, rfl⟩, rfl⟩

/-- Settles O2: the reset input leaves the registers as after reset, with a draw for each buffer. -/
theorem resetInputAbandonsTheCommand : Obligations.ResetInputAbandonsTheCommand := fun s =>
  ⟨s.applyReset, rfl, regValue_resetOf s.inst, rfl, rfl, rfl, fun _ => rfl, fun _ => rfl, rfl, rfl, rfl⟩

/-- Settles O8: by the invariant no outcome is shown while BUSY; a read of another register is a draw. -/
theorem busyStatusReadShowsNoOutcome : Obligations.BusyStatusReadShowsNoOutcome := by
  intro s hinv hbusy
  have hread (offset : Nat) : s.readReg offset = if offset = 0x04 then s.reply (.word s.status.word)
      else s.replyUnspecified (.word (Config.freeWord s.draws)) := by
    rw [State.readReg, hbusy]
  refine ⟨⟨s.status.word, ?_, ?_⟩, fun offset haligned hoffset => ?_⟩
  · rw [access_regRead s rfl, hread, if_pos rfl]
    rfl
  · have hset : s.status.busy = true := hinv.seq_busy.mp hbusy
    obtain ⟨hdone, herr, hfb, hcode⟩ := hinv.busy_clear hset
    rw [Status.word, hset, hdone, herr, hfb, hcode]
    congr 1
    simp [ECode.code, Nat.mul_comm]
  · rw [access_regRead s haligned, hread, if_neg hoffset]
    rfl

end Sys2Proof.Machine
end

section
/-! Words and bytes written out (30_encoding.md), what the sequencer fetches on its turn (10_state.md R10, R20), the
host's turns (45_common.md R235), the effect of each unit of a stream, and the statistics (43_pipeline.md R152). -/

namespace Sys2Proof.Machine

/-- Settles O12: each word and each sequence decoded. -/
theorem writtenOutWordsDecode : Obligations.WrittenOutWordsDecode := by
  unfold Obligations.WrittenOutWordsDecode
  decide

/-- With no stage left to run the sequencer fetches the command in CMD. -/
theorem fetch_command {s : State} {i : Instr} (htodo : s.work.todo = []) (hdec : decodeCommand s.inst s.cmd = .ok i) :
    s.fetch = .instr i := by
  rw [State.fetch, htodo, hdec]

/-- A stage that is not done fetches the unit of its stream at `ip`. -/
theorem fetch_unit {s : State} {u : Stage} {us : List Stage} {i : Instr} (htodo : s.work.todo = u :: us)
    (hdone : s.work.stageDone u = false) (hunit : u.unitAt (s.work.src.drop s.work.ip) = some i) :
    s.fetch = .instr i := by
  rw [State.fetch, htodo]
  simp [hdone, hunit]

/-- The sequencer's turn runs the instruction it fetches. -/
theorem step_of_fetch_instr {s : State} {i : Instr} (hseq : s.seq = .busy) (hleft : s.busyLeft = 0)
    (hfetch : s.fetch = .instr i) : step s = exec i s := by
  rw [step_eq_sequencerTurn hseq hleft, State.sequencerTurn, hfetch]

/-- What a decoded unit is fetched as. -/
theorem map_fst_of_ok {d : Except Reject (Instr × List Byte)} {i : Instr} {rest : List Byte} (h : d = .ok (i, rest)) :
    d.toOption.map Prod.fst = some i := by
  rw [h]
  rfl

/-- Settles O17: the fetch of a command, and of a unit for each stage that decodes a stream. -/
theorem stepRunsTheDecodedInstruction : Obligations.StepRunsTheDecodedInstruction := by
  intro s i hseq hleft
  have hnotDone (h : s.work.ip < s.work.src.length) : decide (s.work.src.length ≤ s.work.ip) = false := by
    simpa using h
  refine ⟨fun htodo hdec => ?_, fun us rest htodo hip hdec => ?_, fun us rest htodo hip hdec => ?_,
    fun us rest htodo hip hdec => ?_, fun us rest htodo hhdr hdec => ?_⟩
  all_goals apply step_of_fetch_instr hseq hleft
  · exact fetch_command htodo hdec
  · exact fetch_unit htodo (hnotDone hip) (map_fst_of_ok hdec)
  · refine fetch_unit htodo (hnotDone hip) (map_fst_of_ok (rest := rest) ?_)
    rw [decodeStream] at hdec
    split_ifs at hdec
    exact hdec
  · exact fetch_unit htodo (hnotDone hip) (map_fst_of_ok hdec)
  · exact fetch_unit htodo (by simp [Work.stageDone, hhdr]) (map_fst_of_ok hdec)

theorem step_of_idle {s : State} (h : s.seq = .idle) : step s = s.hostTurn := by
  simp only [step, State.turn, h]

theorem step_of_busyLeft {s : State} {k : Nat} (hseq : s.seq = .busy) (hleft : s.busyLeft = k + 1) :
    step s = State.hostTurn { s with busyLeft := k } := by
  simp only [step, State.turn, hseq, hleft]

theorem hostTurn_of_nil {s : State} (h : s.inbox = []) : s.hostTurn = .next s := by
  simp only [State.hostTurn, h]

theorem hostTurn_of_cons {s : State} {a : Access} {as : List Access} (h : s.inbox = a :: as) :
    s.hostTurn = State.access a { s with inbox := as } := by
  simp only [State.hostTurn, h]

/-- Settles O18: the turn of the host with and without a pending access. -/
theorem hostTurnPerformsTheOldestAccess : Obligations.HostTurnPerformsTheOldestAccess := by
  refine fun s => ⟨fun hidle hinbox => ?_, fun a as hidle hinbox => ?_, fun k hbusy hleft hinbox => ?_,
    fun k a as hbusy hleft hinbox => ?_⟩
  · exact (step_of_idle hidle).trans (hostTurn_of_nil hinbox)
  · exact (step_of_idle hidle).trans (hostTurn_of_cons hinbox)
  · exact (step_of_busyLeft hbusy hleft).trans (hostTurn_of_nil hinbox)
  · exact (step_of_busyLeft hbusy hleft).trans (hostTurn_of_cons hinbox)

/-- Settles O38: each token's bytes, by its rule. -/
theorem tokensEmitTheirBytes : Obligations.TokensEmitTheirBytes := by
  refine fun s v c => ⟨rfl, ?_, ?_⟩
  · simp [exec, execRleEsc3, Work.emit]
  · simp [exec, execPairTok, Work.emit]

/-- Settles O39: in a full table every byte is a position. -/
theorem mtfCodeEmitsAndMovesToFront : Obligations.MtfCodeEmitsAndMovesToFront := by
  intro s k hfull
  have hk : k.toNat < s.work.mtf.length := hfull ▸ k.isLt
  have hv := List.getElem?_eq_getElem hk
  refine ⟨s.work.mtf[k.toNat], moveToFront s.work.mtf k.toNat, hv, ?_, ?_, ?_, fun j hj => ?_, fun j hj => ?_⟩
  · simp [exec, execMtfCode, Work.emit, List.getD_eq_getElem?_getD, hv]
  · rw [(moveToFront_perm hk).length_eq, hfull]
  · rw [moveToFront_eq_cons hv, List.getElem?_cons_zero]
  · rw [moveToFront_eq_cons hv, List.getElem?_cons_succ, List.getElem?_append_left (by simp; omega),
      List.getElem?_take_of_lt hj]
  · rw [moveToFront_eq_cons hv]
    obtain ⟨n, rfl⟩ := Nat.exists_eq_add_of_lt hj
    rw [List.getElem?_cons_succ, List.getElem?_append_right (by simp), List.getElem?_drop]
    congr 1
    rw [List.length_take]
    omega

/-- Settles O40: a header moves `ip` behind itself and hands its length to the parser. -/
theorem frameHeaderLatchesTheLength : Obligations.FrameHeaderLatchesTheLength := fun _ _ => rfl

/-- Settles O58: for a positive original size the ratio is a quotient, which is below 1 where the result is shorter. -/
theorem statisticsFollowTheRatio : Obligations.StatisticsFollowTheRatio := by
  refine ⟨fun o c ho => ?_, fun c => ⟨rfl, rfl, rfl⟩, rfl⟩
  have hpos : (0 : Rat) < (o : Rat) := by exact_mod_cast ho
  have hratio : (compressionStats o c).ratio = (c : Rat) / (o : Rat) := by
    simp [compressionStats, compressionRatio, ho.ne']
  have heffective : (compressionStats o c).effective = true ↔ c < o := by
    simp [compressionStats, ho.ne']
  refine ⟨?_, ?_, ?_, ?_, heffective⟩
  · rw [hratio, div_mul_cancel₀ _ hpos.ne']
  · simp [compressionStats, ho.ne']
  · simp [compressionStats, ho.ne']
  · rw [heffective, hratio, div_lt_one hpos, Nat.cast_lt]

end Sys2Proof.Machine
end

section
/-! The function laws of the units: any rank of the BWT (40_bwt.md R98), the MTF table and its round trips (41_mtf.md
R110 to R115), and the round trip and the sizes of the RLE codec (42_rle.md R126). -/

namespace Sys2Proof.Machine

/-- Settles O46: the walk from a rank spells the rotation that stands there. -/
theorem decodingAtARankGivesThatRotation : Obligations.DecodingAtARankGivesThatRotation :=
  fun _ _ _ => bwtDecode_lastColumn

/-! The MTF table. -/

theorem mtfIdentity_getElem? {k : Nat} (h : k < 256) : Config.mtfIdentity[k]? = some (BitVec.ofNat 8 k) := by
  simp [Config.mtfIdentity, h]

section
variable {m : List Byte} (hm : m.Perm Config.mtfIdentity)
include hm

theorem table_length : m.length = 256 := hm.length_eq.trans mtfIdentity_length

theorem table_nodup : m.Nodup := hm.nodup_iff.mpr mtfIdentity_nodup

theorem mem_table (v : Byte) : v ∈ m := by
  refine hm.mem_iff.mpr (List.mem_of_getElem? (i := v.toNat) ?_)
  rw [mtfIdentity_getElem? v.isLt, BitVec.ofNat_toNat, BitVec.setWidth_eq]

theorem table_moveToFront {k : Nat} (hk : k < 256) : (moveToFront m k).Perm Config.mtfIdentity :=
  (moveToFront_perm (hk.trans_eq (table_length hm).symm)).trans hm

/-- The position of a value, and the value that stands there. -/
theorem mtfPosition_spec (v : Byte) : mtfPosition m v < 256 ∧ m[mtfPosition m v]? = some v := by
  have hv := List.getElem?_idxOf (mem_table hm v)
  obtain ⟨hlt, -⟩ := List.getElem?_eq_some_iff.mp hv
  exact ⟨hlt.trans_eq (table_length hm), hv⟩

end

/-- Every value stands at exactly one position of the table. -/
theorem existsUnique_position {m : List Byte} (hm : m.Perm Config.mtfIdentity) (v : Byte) :
    ∃! k : Nat, m[k]? = some v :=
  ⟨mtfPosition m v, (mtfPosition_spec hm v).2, fun _ hk => (mtfPosition_eq_of_getElem? (table_nodup hm) hk).symm⟩

/-- From one table on, decoding undoes encoding: both move the same position to the front. -/
theorem mtfDecodeFrom_mtfEncodeFrom {m : List Byte} (hm : m.Perm Config.mtfIdentity) (x : List Byte) :
    mtfDecodeFrom m (mtfEncodeFrom m x) = x := by
  induction x generalizing m with
  | nil => rfl
  | cons v vs ih =>
    obtain ⟨hlt, hget⟩ := mtfPosition_spec hm v
    have hbyte : (BitVec.ofNat 8 (mtfPosition m v)).toNat = mtfPosition m v := Nat.mod_eq_of_lt hlt
    rw [mtfEncodeFrom, mtfDecodeFrom, hbyte, ih (table_moveToFront hm hlt), List.getD_eq_getElem?_getD, hget,
      Option.getD_some]

/-- From one table on, encoding undoes decoding. -/
theorem mtfEncodeFrom_mtfDecodeFrom {m : List Byte} (hm : m.Perm Config.mtfIdentity) (y : List Byte) :
    mtfEncodeFrom m (mtfDecodeFrom m y) = y := by
  induction y generalizing m with
  | nil => rfl
  | cons k ks ih =>
    have hk : k.toNat < m.length := k.isLt.trans_eq (table_length hm).symm
    have hget : m[k.toNat]? = some (m.getD k.toNat 0#8) := by
      rw [List.getD_eq_getElem _ _ hk, List.getElem?_eq_getElem hk]
    rw [mtfDecodeFrom, mtfEncodeFrom, mtfPosition_eq_of_getElem? (table_nodup hm) hget,
      ih (table_moveToFront hm k.isLt), BitVec.ofNat_toNat, BitVec.setWidth_eq]

theorem mtfDecode_mtfEncode (x : List Byte) : mtfDecode (mtfEncode x) = x := mtfDecodeFrom_mtfEncodeFrom (.refl _) x

/-- Settles O48: the table stays a permutation, so a value has one position, and both directions move the same entry. -/
theorem mtfRoundTripsBothWays : Obligations.MtfRoundTripsBothWays :=
  ⟨fun _ => mtfIdentity_getElem?, fun _ _ hm => table_moveToFront hm, fun _ v hm => existsUnique_position hm v, rfl,
    rfl, fun x => ⟨mtfEncode_length x, mtfDecode_length x⟩, mtfDecode_mtfEncode, mtfEncodeFrom_mtfDecodeFrom (.refl _)⟩

/-! The RLE codec. -/

/-- The token of a run decodes to the run's bytes, whatever follows. -/
theorem rleDecode_rleToken_append {r : Run} (hpos : 1 ≤ r.length) (hmax : r.length ≤ 255) (rest : List Byte) :
    rleDecode (encodeUnit (rleToken r) ++ rest) = r.bytes ++ rleDecode rest := by
  obtain ⟨v, n⟩ := r
  dsimp only at hpos hmax
  rw [encodeUnit_rleToken, Run.bytes]
  split_ifs with hone hesc
  · subst hone hesc
    exact rleDecode_escape ..
  · subst hone
    exact rleDecode_literal (.inl hesc)
  · have hcount : (BitVec.ofNat 8 (n - 1)).toNat + 1 = n := by
      rw [BitVec.toNat_ofNat]
      omega
    have hesc := rleDecode_escape v (BitVec.ofNat 8 (n - 1)) rest
    rwa [hcount] at hesc

theorem rleDecode_flatMap_rleToken {rs : List Run} (h : ∀ r ∈ rs, 1 ≤ r.length ∧ r.length ≤ 255) :
    rleDecode (rs.flatMap fun r => encodeUnit (rleToken r)) = rs.flatMap Run.bytes := by
  induction rs with
  | nil => exact rleDecode_nil
  | cons r rs ih =>
    obtain ⟨⟨hpos, hmax⟩, hrs⟩ := List.forall_mem_cons.mp h
    rw [List.flatMap_cons, rleDecode_rleToken_append hpos hmax, ih hrs, List.flatMap_cons]

theorem rleDecode_rleEncode (x : List Byte) : rleDecode (rleEncode x) = x := by
  rw [rleEncode, rleDecode_flatMap_rleToken (runs_length_bounds x), runs_flatMap_bytes]

/-- A run of one escape byte, the only run whose token is longer than twice the run. -/
def Run.IsLoneEscape (r : Run) : Prop := r.length = 1 ∧ r.value = 0xFF#8

theorem rleToken_length_of_loneEscape {r : Run} (h : r.IsLoneEscape) : (encodeUnit (rleToken r)).length = 3 := by
  obtain ⟨v, n⟩ := r
  obtain ⟨rfl, rfl⟩ : n = 1 ∧ v = 0xFF#8 := h
  rfl

theorem rleToken_length_lt {r : Run} (hpos : 1 ≤ r.length) (h : ¬ r.IsLoneEscape) :
    (encodeUnit (rleToken r)).length < 2 * r.length := by
  obtain ⟨v, n⟩ := r
  rw [encodeUnit_rleToken]
  split_ifs with hone hesc
  · exact absurd ⟨hone, hesc⟩ h
  · simp [hone]
  · have hthree : [0xFF#8, v, BitVec.ofNat 8 (n - 1)].length = 3 := rfl
    dsimp only at hpos ⊢
    omega

/-- The tokens of runs that are neighbours of one value only where the first is full are at most one byte longer than
twice what they spell, and not even that where the first run is no lone escape byte. -/
theorem flatMap_rleToken_length_le {rs : List Run} (hpos : ∀ r ∈ rs, 1 ≤ r.length)
    (hchain : rs.IsChain fun a b => a.value = b.value → a.length = 255) :
    (rs.flatMap fun r => encodeUnit (rleToken r)).length ≤ 2 * (rs.flatMap Run.bytes).length + 1 ∧
    ((∀ r ∈ rs.head?, ¬ r.IsLoneEscape) →
      (rs.flatMap fun r => encodeUnit (rleToken r)).length ≤ 2 * (rs.flatMap Run.bytes).length) := by
  induction rs with
  | nil => simp
  | cons r rs ih =>
    obtain ⟨hr, hrs⟩ := List.forall_mem_cons.mp hpos
    obtain ⟨hnext, hchain⟩ := List.isChain_cons.mp hchain
    obtain ⟨hany, hhead⟩ := ih hrs hchain
    have hbytes : r.bytes.length = r.length := List.length_replicate
    simp only [List.flatMap_cons, List.length_append, hbytes]
    by_cases hlone : r.IsLoneEscape
    · have htoken := rleToken_length_of_loneEscape hlone
      obtain ⟨hone, hesc⟩ := hlone
      have hrest := hhead fun r' hr' ⟨_, hesc'⟩ => by
        have hfull := hnext r' hr' (hesc.trans hesc'.symm)
        omega
      exact ⟨by omega, fun h => absurd ⟨hone, hesc⟩ (h r rfl)⟩
    · have htoken := rleToken_length_lt hr hlone
      exact ⟨by omega, fun _ => by omega⟩

theorem rleEncode_length_le (x : List Byte) : (rleEncode x).length ≤ 2 * x.length + 1 := by
  obtain ⟨hlen, -⟩ := flatMap_rleToken_length_le (fun r hr => (runs_length_bounds x r hr).1) (runs_isChain x)
  rwa [runs_flatMap_bytes] at hlen

/-- Three bytes give at most 256, and any other byte gives one. -/
theorem rleDecode_length_le (y : List Byte) : (rleDecode y).length ≤ 256 * (y.length / 3) + y.length % 3 := by
  fun_induction rleDecode y with
  | case1 v c rest ih =>
    have hcount := c.isLt
    simp only [List.length_append, List.length_replicate, List.length_cons]
    omega
  | case2 a v c rest hlit ih =>
    simp only [List.length_cons] at ih ⊢
    omega
  | case3 a rest hshort ih =>
    simp only [List.length_cons]
    omega
  | case4 => simp

/-- Settles O53: each token decodes to its run; the two bounds, and the one run of up to 255 equal bytes. -/
theorem rleRoundTripAndSize : Obligations.RleRoundTripAndSize := by
  refine ⟨rleDecode_rleEncode, rleEncode_length_le, rleDecode_length_le, fun v r hmin hmax => ?_⟩
  have hone : r ≠ 1 := by omega
  rw [rleEncode, runs_replicate, greedyRuns_of_le (by omega) hmax, List.flatMap_singleton, encodeUnit_rleToken,
    if_neg hone]
  rfl

end Sys2Proof.Machine
end

section
/-! The stage list as a word (30_encoding.md R63, 10_state.md R12): each bit is set by one name. -/

namespace Sys2Proof.Machine

/-- A bit of the list's word is a bit of one of its names. -/
theorem stageListWord_getLsbD_iff (names : List StageName) (i : Nat) :
    (stageListWord names).getLsbD i = true ↔ ∃ n ∈ names, n.bits.getLsbD i = true := by
  induction names with
  | nil => simp [stageListWord]
  | cons n names ih =>
    have hcons : stageListWord (n :: names) = n.bits ||| stageListWord names := rfl
    rw [hcons, BitVec.getLsbD_or, Bool.or_eq_true, ih]
    simp

/-- A bit that one name alone sets is set exactly when that name is in the list. -/
theorem stageListWord_getLsbD_iff_mem {i : Nat} {n : StageName} (h : ∀ m : StageName, m.bits.getLsbD i = true ↔ m = n)
    (names : List StageName) : (stageListWord names).getLsbD i = true ↔ n ∈ names := by
  simp [stageListWord_getLsbD_iff, h, -BitVec.getLsbD_eq_getElem]

theorem bits_getLsbD_zero_iff (n : StageName) : n.bits.getLsbD 0 = true ↔ n = .bwt := by
  obtain _ | _ | _ | _ | _ | j := n
  case unknown.some =>
    revert j
    decide
  all_goals decide

theorem bits_getLsbD_one_iff (n : StageName) : n.bits.getLsbD 1 = true ↔ n = .mtf := by
  obtain _ | _ | _ | _ | _ | j := n
  case unknown.some =>
    revert j
    decide
  all_goals decide

theorem bits_getLsbD_two_iff (n : StageName) : n.bits.getLsbD 2 = true ↔ n = .rle := by
  obtain _ | _ | _ | _ | _ | j := n
  case unknown.some =>
    revert j
    decide
  all_goals decide

theorem bits_getLsbD_unknown_iff (k : Fin 5) (n : StageName) :
    n.bits.getLsbD (3 + k) = true ↔ n = .unknown (some k) := by
  obtain _ | _ | _ | _ | _ | j := n
  case unknown.some =>
    revert j k
    decide
  all_goals
    revert k
    decide

theorem bits_toNat_lt (n : StageName) : n.bits.toNat < 2 ^ 8 := by
  obtain _ | _ | _ | _ | _ | j := n
  case unknown.some =>
    revert j
    decide
  all_goals decide

theorem stageListWord_reserved (names : List StageName) : (stageListWord names).extractLsb' 8 24 = 0#24 := by
  by_contra hreserved
  obtain ⟨i, hlow, -, hbit⟩ := (extractLsb'_ne_zero_iff ..).mp hreserved
  obtain ⟨n, -, hn⟩ := (stageListWord_getLsbD_iff ..).mp hbit
  have hclear : n.bits.toNat.testBit i = false :=
    Nat.testBit_lt_two_pow ((bits_toNat_lt n).trans_le (Nat.pow_le_pow_right (by decide) hlow))
  simp [BitVec.getLsbD, hclear] at hn

/-- Settles O57: each bit of STAGES is set by one name, and the eight words of the block are read back. -/
theorem stageListsSetTheirBits : Obligations.StageListsSetTheirBits := by
  refine ⟨fun names => ⟨stageListWord_getLsbD_iff_mem bits_getLsbD_zero_iff names,
    stageListWord_getLsbD_iff_mem bits_getLsbD_one_iff names, stageListWord_getLsbD_iff_mem bits_getLsbD_two_iff names,
    fun k => stageListWord_getLsbD_iff_mem (bits_getLsbD_unknown_iff k) names, stageListWord_reserved names⟩, ?_, rfl⟩
  rintro fb ⟨bwt, mtf, rle⟩
  revert fb bwt mtf rle
  decide

end Sys2Proof.Machine
end

section
/-! What a command left in OBUF, loaded back into IBUF: DECOMPRESS after COMPRESS (43_pipeline.md R149) and FRAME_PARSE
after FRAME_EMIT (44_frame.md R165). -/

namespace Sys2Proof.Machine

/-- An output loaded back is the next input. -/
theorem input_eq_output {t u : State} (hlen : u.ilen = t.olen)
    (hbytes : ∀ j, j < t.olen.toNat → u.ibufByte j = t.obufByte j) : u.input = t.output := by
  rw [State.input, State.output, State.inputLength, hlen]
  exact List.map_congr_left fun j hj => hbytes j (List.mem_range.mp hj)

/-- Settles O55: the frame loaded back passes every test of the parser, and its content is the input. -/
theorem frameEmitThenParse : Obligations.FrameEmitThenParse := by
  intro s t u hwf hmlen hroom hemit hinst hilen herr hbytes
  have hcaps : s.inst.icap ≤ s.inst.ocap := hwf.2.1
  obtain ⟨-, hemits⟩ := frameEmitPrependsTheHeader
  obtain ⟨-, -, hemits⟩ := hemits s hwf
  obtain ⟨t', hemit', hdelivers, holen, -⟩ := hemits (by omega) hmlen (by omega)
  rw [← frameOf_eq] at hdelivers
  obtain rfl : t' = t := Host.Outcome.next.inj (hemit'.symm.trans hemit)
  have hinput : u.input = frameOf s.mlen s.input := (input_eq_output hilen hbytes).trans hdelivers.output
  have hlength : u.inputLength = 11 + s.inputLength := by rw [State.inputLength, hilen, holen]
  have hparse : parseFrame u.input = .ok s.mlen := by
    rw [hinput, parseFrame_frameOf, input_length, if_neg (Nat.not_lt.mpr hmlen)]
  have hfit : u.inputLength ≤ u.inst.icap := by rw [hlength, hinst, hdelivers.inst]; exact hroom
  obtain ⟨r, hexec, hends, -, hm, hpoff, hplen, -, -, hstatus⟩ := frameParse_succeeds hfit hparse (by omega)
  refine ⟨r, hexec, ?_, BitVec.eq_of_toNat_eq hm, hpoff, by omega, fun j hj => ?_⟩
  · rw [hstatus]
    exact herr
  · have hj : j < s.input.length := by rwa [input_length]
    have hframe : (11 + j) < u.input.length := by rw [hinput, frameOf_length]; omega
    have hcontent : (frameOf s.mlen s.input)[11 + j]? = s.input[j]? := by
      rw [Nat.add_comm]
      rfl
    have hbyte : u.input[11 + j]? = s.input[j]? := by rw [hinput, hcontent]
    rw [List.getElem?_eq_getElem hframe, List.getElem?_eq_getElem hj, input_getElem, input_getElem] at hbyte
    rw [hends.ibuf]
    exact Option.some.inj hbyte

theorem primaryIndex_lt {bs : List Byte} (h : 0 < bs.length) : primaryIndex bs < bs.length :=
  (primaryIndexIsTheRankOfOffsetZero.2 bs h).1

/-- The BWT stage of COMPRESS undone: the primary index lies inside the sequence, where that is not empty. -/
theorem undoBwt_bwtEncode (sel : StageSet) (bs : List Byte) :
    undoBwt sel (compressIndex sel bs) (if sel.bwt then (bwtEncode bs).1 else bs) = .ok bs := by
  rw [undoBwt_inRange fun hbwt => ?_]
  · split
    · next hbwt => rw [compressIndex, if_pos hbwt, bwtRoundTrip bs]
    · rfl
  · rw [compressIndex, if_pos hbwt, if_pos hbwt, bwtEncode_length]
    exact bs.length.eq_zero_or_pos.imp_right primaryIndex_lt

theorem compressIndex_le (sel : StageSet) (bs : List Byte) : compressIndex sel bs ≤ bs.length := by
  rw [compressIndex]
  split
  · obtain hempty | hpos := bs.length.eq_zero_or_pos
    · obtain rfl := List.eq_nil_of_length_eq_zero hempty
      rfl
    · exact (primaryIndex_lt hpos).le
  · exact Nat.zero_le _

/-- The stages of COMPRESS undone give the input back, where it fits OBUF. -/
theorem decompressBytes_compressBytes (sel : StageSet) {bs : List Byte} {ocap : Nat} (hroom : bs.length ≤ ocap) :
    decompressBytes sel (compressIndex sel bs) ocap (compressBytes sel bs) = .ok bs := by
  have hmtf (x : List Byte) : undoMtf sel (if sel.mtf then mtfEncode x else x) = x := by
    rw [undoMtf]
    split
    · exact mtfDecode_mtfEncode x
    · rfl
  have hrle (x : List Byte) : undoRle sel (if sel.rle then rleEncode x else x) = x := by
    rw [undoRle]
    split
    · exact rleDecode_rleEncode x
    · rfl
  have hlen : (undoRle sel (compressBytes sel bs)).length ≤ ocap := by
    rw [compressBytes, hrle]
    split_ifs <;> simpa
  rw [decompressBytes_fits _ hlen, compressBytes, hrle, hmtf, undoBwt_bwtEncode]

/-- What COMPRESS leaves: the output of some stage set with its metadata. The fallback is the empty set. -/
theorem runCompress_delivers {s : State} (sel : StageSet) (hwf : s.inst.wf) (hfit : s.inputLength ≤ s.inst.icap) :
    ∃ sel', Delivers s (s.runCompress sel) (compressBytes sel' s.input) ∧
      (s.runCompress sel).stages = stageWord sel' ∧
      (s.runCompress sel).pidx = BitVec.ofNat 32 (compressIndex sel' s.input) ∧
      (s.runCompress sel).status.stgv = true ∧ (s.runCompress sel).status.pidxv = sel'.bwt := by
  by_cases hroom : (compressBytes sel s.input).length ≤ s.inst.ocap
  · rw [runCompress_fits hfit hroom]
    refine ⟨sel, ?_, rfl, rfl, rfl, rfl⟩
    apply delivers_of (input_lt_of hwf hroom) <;> rfl
  · rw [runCompress_overflow hfit (Nat.lt_of_not_le hroom)]
    refine ⟨⟨false, false, false⟩, ?_, rfl, rfl, rfl, rfl⟩
    apply delivers_of (input_length_lt hwf hfit) <;> rfl

theorem stageSet_stageWord {s : State} {sel : StageSet} (h : s.stages = stageWord sel) : s.stageSet = sel := by
  rw [State.stageSet, h]
  obtain ⟨bwt, mtf, rle⟩ := sel
  cases bwt <;> cases mtf <;> cases rle <;> rfl

/-- Settles O54: in either branch COMPRESS leaves the output of a stage set with its metadata, and DECOMPRESS undoes
it. -/
theorem compressThenDecompress : Obligations.CompressThenDecompress := by
  intro s t u i hinv _ hform hfit hexec hpayload hinst hstgv hpidxv herr hstages hpidx hilen hbytes
  have hwf : s.inst.wf := hinv.inst_wf
  obtain ⟨sel, hrun⟩ : ∃ sel, exec i s = .next (s.runCompress sel) := by
    obtain rfl | ⟨sel, rfl⟩ := hform
    · exact ⟨StageSet.all, rfl⟩
    · exact ⟨sel, rfl⟩
  obtain rfl : s.runCompress sel = t := Host.Outcome.next.inj (hrun.symm.trans hexec)
  obtain ⟨sel', hdelivers, hstages', hpidx', hstgv', hpidxv'⟩ := runCompress_delivers sel hwf hfit
  have hinput : u.input = compressBytes sel' s.input := (input_eq_output hilen hbytes).trans hdelivers.output
  have hset : u.stageSet = sel' := stageSet_stageWord (hstages.trans hstages')
  have hindex : u.pidx.toNat = compressIndex sel' s.input := by
    have hlt := (compressIndex_le sel' s.input).trans_lt (input_length_lt hwf hfit)
    rw [hpidx, hpidx', BitVec.toNat_ofNat, Nat.mod_eq_of_lt hlt]
  have hinst : u.inst = s.inst := hinst.trans hdelivers.inst
  have hroom : s.input.length ≤ u.inst.ocap := by
    rw [input_length, hinst]
    exact hfit.trans hwf.2.1
  have hresult : u.decompressResult = .ok s.input := by
    rw [decompressResult_of_metadata, hset, hindex, hinput, decompressBytes_compressBytes sel' hroom]
    · rw [State.inputLength, hilen, hinst, ← hdelivers.inst]
      exact hpayload
    · exact hstgv.trans hstgv'
    · rw [hset, hpidxv, hpidxv']
      exact id
  obtain ⟨r, hdecompress, hrestored, -, -, hstatus⟩ := decompress_delivers (hinst ▸ hwf) hresult hroom
  refine ⟨r, hdecompress, ?_, hrestored.olen.trans (input_length s), hrestored.output⟩
  rw [hstatus]
  exact herr

end Sys2Proof.Machine
end

section
/-! What each instruction can do, said once: a unit of a stream changes the working state alone; a command ends in an
error, or writes what its stages make of the input, with the metadata it leaves (10_state.md R11, 20_memory.md R46). -/

namespace Sys2Proof.Machine

/-- The working state after a unit of a stream. -/
def Work.unit (w : Work) : Instr → Work
  | .rleLit v => w.emit 1 [v]
  | .rleEsc3 v c => w.emit 3 (List.replicate (c.toNat + 1) v)
  | .pairTok v c => w.emit 2 (List.replicate c.toNat v)
  | .mtfCode k => { w.emit 1 [w.mtf.getD k.toNat 0#8] with mtf := moveToFront w.mtf k.toNat }
  | .frameHdr len => { w with ip := w.ip + Config.headerSize, hdr := some len }
  | _ => w

theorem exec_unit {i : Instr} (hunit : i.stream ≠ none) (s : State) :
    exec i s = .next { s with work := s.work.unit i } := by
  cases i with
  | rleLit | rleEsc3 | pairTok | mtfCode | frameHdr => rfl
  | _ => exact absurd rfl hunit

/-- What the stages of a command make of a sequence, one after the other. -/
def State.stagesOutput (s : State) (stages : List Stage) (bs : List Byte) : List Byte :=
  stages.foldl (fun bs u => u.apply s.pidx.toNat s.mlen bs) bs

/-- No stage ends the command early: the walk of the BWT inverse starts at an index `p` inside its sequence
(60_exceptions.md R186), and the output of the RLE inverse fits OBUF (43_pipeline.md R147). -/
def StagesRun (p : Nat) (len : Word) (ocap : Nat) : List Stage → List Byte → Prop
  | [], _ => True
  | u :: us, bs =>
    u ≠ .frameParse ∧ (u = .bwtDec → bs.length = 0 ∨ p < bs.length) ∧
    (u = .rleDec → (rleDecode bs).length ≤ ocap) ∧ StagesRun p len ocap us (u.apply p len bs)

/-- The stages run to the end with the operands of the state. -/
def State.stagesRun (s : State) : List Stage → List Byte → Prop := StagesRun s.pidx.toNat s.mlen s.inst.ocap

/-- What a command that has a next state can do. -/
inductive CommandEffect (s : State) (i : Instr) : State → Prop
  /-- An error completion, on the line of FRAME_PARSE for that command alone. -/
  | error (k : ErrorLine) (c : ECode) (hcode : c ≠ .none ∧ c ≠ .parseFailed)
      (hline : k = .frameParse ↔ i = .frameParse) : CommandEffect s i (s.raise k c)
  /-- The output of the stages, with PIDX, STAGES and the valid bits as the command leaves them. -/
  | output (stages : List Stage) (p w : Word) (pidxv stgv : Bool) (hplan : s.plan i = some stages)
      (hruns : s.stagesRun stages s.input) (hparse : i ≠ .frameParse)
      (hroom : s.inst.wf → (s.stagesOutput stages s.input).length ≤ s.inst.ocap)
      (hpidx : p = s.pidx ∨ i = .bwtEnc ∨ i = .compress ∨ ∃ sel, i = .compressSub sel)
      (hstages : w = s.stages ∨ w.toNat < 256 ∧ (i = .compress ∨ ∃ sel, i = .compressSub sel)) :
      CommandEffect s i (State.complete { s.out (s.stagesOutput stages s.input) with
        pidx := p, stages := w, status := { s.status with pidxv := pidxv, stgv := stgv } })
  /-- The fallback of COMPRESS. -/
  | fallback (hroom : s.inst.wf → s.input.length ≤ s.inst.ocap)
      (hcompress : i = .compress ∨ ∃ sel, i = .compressSub sel) : CommandEffect s i (s.fallback.setStgv true).complete
  /-- The results of FRAME_PARSE. -/
  | frame (len : Word) (hparse : i = .frameParse) : CommandEffect s i (s.setFrame len).complete

section
variable {s t : State} {i : Instr}

theorem stageWord_toNat_lt (sel : StageSet) : (stageWord sel).toNat < 256 := by
  obtain ⟨bwt, mtf, rle⟩ := sel
  cases bwt <;> cases mtf <;> cases rle <;> decide

/-- A pair command on an instance without the pair variant ends as an illegal one. -/
theorem exec_absent (hcommand : i.stream = none) (habsent : ¬ i.wf s.inst = true) :
    i ≠ .frameParse ∧ exec i s = .next (s.raise .other .illegalCommand) := by
  cases i with
  | pairEnc => exact ⟨nofun, exec_pairEnc_absent (Bool.eq_false_of_not_eq_true habsent)⟩
  | pairDec => exact ⟨nofun, exec_pairDec_absent (Bool.eq_false_of_not_eq_true habsent)⟩
  | rleLit | rleEsc3 | pairTok | mtfCode | frameHdr => cases hcommand
  | _ => exact absurd rfl habsent

theorem input_length_le_ocap (hwf : s.inst.wf) (hfit : s.inputLength ≤ s.inst.icap) : s.input.length ≤ s.inst.ocap :=
  (input_length s).trans_le (hfit.trans hwf.2.1)

/-- A command of one stage that leaves the metadata as it was. -/
theorem effect_of_stage (u : Stage) (hparse : i ≠ .frameParse) (hplan : s.plan i = some [u])
    (hruns : s.stagesRun [u] s.input)
    (hroom : s.inst.wf → (u.apply s.pidx.toNat s.mlen s.input).length ≤ s.inst.ocap) :
    CommandEffect s i (s.out (u.apply s.pidx.toNat s.mlen s.input)).complete :=
  .output [u] s.pidx s.stages s.status.pidxv s.status.stgv hplan hruns hparse hroom (.inl rfl) (.inl rfl)

/-- A command of one stage with the overflow test of `writeOrReport`. -/
theorem effect_of_writeOrReport (u : Stage) (hparse : i ≠ .frameParse) (hplan : s.plan i = some [u])
    (hruns : (u.apply s.pidx.toNat s.mlen s.input).length ≤ s.inst.ocap → s.stagesRun [u] s.input)
    (htest : ¬ s.inputTooLong = true) (h : writeOrReport s (u.apply s.pidx.toNat s.mlen s.input) = .next t) :
    CommandEffect s i t := by
  rw [writeOrReport, if_neg htest] at h
  split_ifs at h with hover
  · cases h
    exact .error _ _ (by decide) (iff_of_false nofun hparse)
  · cases h
    have hroom := Nat.not_lt.mp ((overflows_iff ..).not.mp hover)
    exact effect_of_stage u hparse hplan (hruns hroom) fun _ => hroom

/-- No stage of COMPRESS can end it early. -/
theorem stagesRun_forwardStages (s : State) (sel : StageSet) (bs : List Byte) :
    s.stagesRun (forwardStages sel) bs := by
  obtain ⟨bwt, mtf, rle⟩ := sel
  cases bwt <;> cases mtf <;> cases rle <;> simp [forwardStages, State.stagesRun, StagesRun]

theorem stagesOutput_forwardStages (s : State) (sel : StageSet) (bs : List Byte) :
    s.stagesOutput (forwardStages sel) bs = compressBytes sel bs := by
  obtain ⟨bwt, mtf, rle⟩ := sel
  cases bwt <;> cases mtf <;> cases rle <;> rfl

/-- COMPRESS past its length test: the result, or the fallback where it does not fit. -/
theorem runCompress_effect {sel : StageSet} (hi : i = .compress ∨ ∃ sel, i = .compressSub sel)
    (hplan : s.plan i = some (forwardStages sel)) (hfit : s.inputLength ≤ s.inst.icap) :
    CommandEffect s i (s.runCompress sel) := by
  have hparse : i ≠ .frameParse := by obtain rfl | ⟨_, rfl⟩ := hi <;> nofun
  by_cases hroom : (compressBytes sel s.input).length ≤ s.inst.ocap
  · rw [← stagesOutput_forwardStages s] at hroom
    have heffect := CommandEffect.output (forwardStages sel) (BitVec.ofNat 32 (compressIndex sel s.input))
      (stageWord sel) sel.bwt true hplan (stagesRun_forwardStages s sel s.input) hparse (fun _ => hroom)
      (.inr (.inr hi)) (.inr ⟨stageWord_toNat_lt sel, hi⟩)
    rw [stagesOutput_forwardStages] at hroom heffect
    rw [runCompress_fits hfit hroom]
    exact heffect
  · rw [runCompress_overflow hfit (Nat.lt_of_not_le hroom)]
    exact .fallback (fun hwf => input_length_le_ocap hwf hfit) hi

theorem stagesOutput_backwardStages (s : State) (sel : StageSet) (bs : List Byte) :
    s.stagesOutput (backwardStages sel) bs =
      if sel.bwt then bwtDecode (undoMtf sel (undoRle sel bs)) s.pidx.toNat else undoMtf sel (undoRle sel bs) := by
  obtain ⟨bwt, mtf, rle⟩ := sel
  cases bwt <;> cases mtf <;> cases rle <;> rfl

/-- The two tests between the stages of DECOMPRESS are what lets them run to the end. -/
theorem stagesRun_backwardStages {sel : StageSet} {bs : List Byte}
    (hrle : sel.rle = true → (rleDecode bs).length ≤ s.inst.ocap)
    (hbwt : sel.bwt = true → (undoRle sel bs).length = 0 ∨ s.pidx.toNat < (undoRle sel bs).length) :
    s.stagesRun (backwardStages sel) bs := by
  obtain ⟨bwt, mtf, rle⟩ := sel
  cases bwt <;> cases mtf <;> cases rle <;>
    simp_all [backwardStages, State.stagesRun, StagesRun, Stage.apply, undoRle]

/-- What the BWT stage of DECOMPRESS gives where it raises nothing. -/
theorem undoBwt_ok {st : StageSet} {p : Nat} {x bs : List Byte} (h : undoBwt st p x = .ok bs) :
    (if st.bwt then bwtDecode x p else x) = bs ∧ (st.bwt = true → x.length = 0 ∨ p < x.length) := by
  by_cases hrange : st.bwt = true → x.length = 0 ∨ p < x.length
  · rw [undoBwt_inRange hrange] at h
    exact ⟨Except.ok.inj h, hrange⟩
  · push Not at hrange
    obtain ⟨hbwt, hpos, hp⟩ := hrange
    rw [undoBwt_outOfRange hbwt (Nat.pos_of_ne_zero hpos) hp] at h
    cases h

theorem decompressResult_error_code {c : ECode} (h : s.decompressResult = .error c) : c ≠ .none ∧ c ≠ .parseFailed := by
  simp only [State.decompressResult, decompressBytes, undoBwt] at h
  split_ifs at h <;> cases h <;> decide

theorem parseFrame_error_code {blob : List Byte} {c : ECode} (h : parseFrame blob = .error c) :
    c ≠ .none ∧ c ≠ .parseFailed := by
  rw [parseFrame] at h
  split_ifs at h <;> cases h <;> decide

/-- The metadata tests of DECOMPRESS passed, as the plan of its stages asks for them. -/
theorem metadata_present {stgv bwt pidxv : Bool} : ¬ (!stgv) = true → ¬ (bwt && !pidxv) = true →
    (stgv && (!bwt || pidxv)) = true := by
  revert stgv bwt pidxv
  decide

/-- DECOMPRESS past its length test: the first condition that applies, or the output of its stages in mirror order. -/
theorem decompress_effect (hfit : s.inputLength ≤ s.inst.icap) (h : exec .decompress s = .next t) :
    CommandEffect s .decompress t := by
  rw [exec_decompress] at h
  cases h
  cases hresult : s.decompressResult with
  | error c => exact .error .decompress c (decompressResult_error_code hresult) (by decide)
  | ok bs =>
    rw [State.decompressResult] at hresult
    split_ifs at hresult with htest hstgv hpidxv
    rw [decompressBytes] at hresult
    split_ifs at hresult with hover
    obtain ⟨rfl, hrange⟩ := undoBwt_ok hresult
    rw [undoMtf_length] at hrange
    have hrle : s.stageSet.rle = true → (rleDecode s.input).length ≤ s.inst.ocap := fun hset => by
      simpa [hset, undoRle] using hover
    rw [← stagesOutput_backwardStages]
    refine .output (backwardStages s.stageSet) s.pidx s.stages false false ((if_neg htest).trans (if_pos ?_))
      (stagesRun_backwardStages hrle hrange) nofun (fun hwf => ?_) (.inl rfl) (.inl rfl)
    · exact metadata_present hstgv hpidxv
    · rw [stagesOutput_backwardStages, restored_length, undoRle]
      split
      · exact hrle ‹_›
      · exact input_length_le_ocap hwf hfit

/-- A command that has a next state has one of the four effects: its tests in their order, then its result. -/
theorem command_effect (hcommand : i.stream = none) (h : exec i s = .next t) : CommandEffect s i t := by
  by_cases hexists : i.wf s.inst = true
  case neg =>
    obtain ⟨hparse, hillegal⟩ := exec_absent hcommand hexists
    rw [hillegal] at h
    cases h
    exact .error _ _ (by decide) (iff_of_false nofun hparse)
  by_cases hlong : s.inst.icap < s.inputLength
  case pos =>
    rw [exec_tooLong hcommand hexists hlong] at h
    cases h
    exact .error _ _ (by decide) (errorLineOf_eq_frameParse_iff i)
  have hfit := Nat.not_lt.mp hlong
  have htest : ¬ s.inputTooLong = true := (inputTooLong_iff s).not.mpr hlong
  cases i with
  | bwtEnc =>
    rw [exec_bwtEnc_fits hfit] at h
    cases h
    exact .output [.bwtEnc] (BitVec.ofNat 32 (bwtEncode s.input).2) s.stages true s.status.stgv (if_neg htest)
      ⟨nofun, nofun, nofun, trivial⟩ nofun
      (fun hwf => (bwtEncode_length s.input).trans_le (input_length_le_ocap hwf hfit)) (.inr (.inl rfl)) (.inl rfl)
  | bwtDec =>
    rw [exec_bwtDec_fits hfit] at h
    split_ifs at h with hmissing hrange
    · cases h
      exact .error _ _ (by decide) (by decide)
    · cases h
      exact .error _ _ (by decide) (by decide)
    · cases h
      have hrun : s.input.length = 0 ∨ s.pidx.toNat < s.input.length := by
        rw [input_length]
        omega
      exact .output [.bwtDec] s.pidx s.stages false s.status.stgv
        ((if_neg htest).trans (if_pos (by simpa using hmissing))) ⟨nofun, fun _ => hrun, nofun, trivial⟩ nofun
        (fun hwf => (bwtDecode_length ..).trans_le (input_length_le_ocap hwf hfit)) (.inl rfl) (.inl rfl)
  | mtfEnc =>
    rw [exec, execMtfEnc, if_neg htest] at h
    cases h
    exact effect_of_stage .mtfEnc nofun (if_neg htest) ⟨nofun, nofun, nofun, trivial⟩
      fun hwf => (mtfEncode_length _).trans_le (input_length_le_ocap hwf hfit)
  | mtfDec =>
    rw [exec, execMtfDec, if_neg htest] at h
    cases h
    exact effect_of_stage .mtfDec nofun (if_neg htest) ⟨nofun, nofun, nofun, trivial⟩
      fun hwf => (mtfDecode_length _).trans_le (input_length_le_ocap hwf hfit)
  | rleEnc =>
    exact effect_of_writeOrReport .rleEnc nofun (if_neg htest) (fun _ => ⟨nofun, nofun, nofun, trivial⟩) htest h
  | rleDec =>
    exact effect_of_writeOrReport .rleDec nofun (if_neg htest) (fun hroom => ⟨nofun, nofun, fun _ => hroom, trivial⟩)
      htest h
  | pairEnc =>
    rw [exec_pairEnc_present hexists] at h
    exact effect_of_writeOrReport .pairEnc nofun ((if_neg htest).trans (if_pos hexists))
      (fun _ => ⟨nofun, nofun, nofun, trivial⟩) htest h
  | pairDec =>
    rw [exec_pairDec_present hexists] at h
    exact effect_of_writeOrReport .pairDec nofun ((if_neg htest).trans (if_pos hexists))
      (fun _ => ⟨nofun, nofun, nofun, trivial⟩) htest h
  | compress =>
    cases h
    exact runCompress_effect (.inl rfl) (if_neg htest) hfit
  | compressSub sel =>
    cases h
    exact runCompress_effect (.inr ⟨sel, rfl⟩) (if_neg htest) hfit
  | decompress => exact decompress_effect hfit h
  | frameEmit =>
    by_cases hmlen : s.mlen.toNat ≤ s.inputLength
    · rw [exec_frameEmit_fits hfit hmlen] at h
      split_ifs at h with hover
      · cases h
        exact .error _ _ (by decide) (by decide)
      · cases h
        exact effect_of_stage .frameEmit nofun ((if_neg htest).trans (if_pos hmlen)) ⟨nofun, nofun, nofun, trivial⟩
          fun _ => (frameOf_length ..).trans_le (by rw [input_length]; exact Nat.not_lt.mp hover)
    · rw [exec_frameEmit_badLength (.inr (Nat.lt_of_not_le hmlen))] at h
      cases h
      exact .error _ _ (by decide) (by decide)
  | frameParse =>
    cases hparse : parseFrame s.input with
    | error c =>
      rw [exec_frameParse_error hfit hparse] at h
      cases h
      exact .error _ _ (parseFrame_error_code hparse) (by decide)
    | ok len =>
      rw [exec_frameParse_ok hfit hparse] at h
      cases h
      exact .frame len rfl
  | rleLit | rleEsc3 | pairTok | mtfCode | frameHdr => cases hcommand

end

end Sys2Proof.Machine
end

section
/-! What each instruction leaves alone (10_state.md R11, 20_memory.md R46), from what it can do. -/

namespace Sys2Proof.Machine

variable {s t : State} {i : Instr}

/-- An error completion writes neither the metadata nor MLEN. -/
theorem raise_keeps_metadata (k : ErrorLine) (c : ECode) (s : State) :
    (s.raise k c).stages = s.stages ∧ (s.raise k c).pidx = s.pidx ∧ (s.raise k c).mlen = s.mlen := by
  obtain ⟨-, -, -, hstages, hpidx, -, hmlen, -⟩ := raise_spec k c s
  exact ⟨hstages, hpidx, hmlen⟩

theorem effect_keepsInputs (h : CommandEffect s i t) : KeepsInputs s t := by
  cases h with
  | error k c => exact (raise_ends k c s).toKeepsInputs
  | output | fallback | frame => exact ⟨rfl, rfl, rfl, fun _ => rfl, rfl, rfl⟩

theorem effect_keeps_stages (h : CommandEffect s i t) (hcompress : i ≠ .compress) (hsub : ∀ sel, i ≠ .compressSub sel) :
    t.stages = s.stages := by
  have hnot : ¬ (i = .compress ∨ ∃ sel, i = .compressSub sel) := by simp [hcompress, hsub]
  cases h with
  | error k c =>
    obtain ⟨hstages, -, -⟩ := raise_keeps_metadata k c s
    exact hstages
  | output _ _ _ _ _ _ _ _ _ _ hstages => exact hstages.resolve_right fun h => hnot h.2
  | fallback _ hform => exact absurd hform hnot
  | frame => rfl

theorem effect_keeps_pidx (h : CommandEffect s i t) (hcompress : i ≠ .compress) (hsub : ∀ sel, i ≠ .compressSub sel)
    (henc : i ≠ .bwtEnc) : t.pidx = s.pidx := by
  have hnot : ¬ (i = .compress ∨ ∃ sel, i = .compressSub sel) := by simp [hcompress, hsub]
  cases h with
  | error k c =>
    obtain ⟨-, hpidx, -⟩ := raise_keeps_metadata k c s
    exact hpidx
  | output _ _ _ _ _ _ _ _ _ hpidx => exact hpidx.resolve_right fun h => hnot (h.resolve_left henc)
  | fallback _ hform => exact absurd hform hnot
  | frame => rfl

theorem effect_keeps_frame (h : CommandEffect s i t) (hparse : i ≠ .frameParse) :
    t.mlen = s.mlen ∧ t.poff = s.poff ∧ t.plen = s.plen := by
  cases h with
  | error k c _ hline =>
    obtain ⟨-, -, hmlen⟩ := raise_keeps_metadata k c s
    exact ⟨hmlen, raise_keeps_poff_plen c s (hline.not.mpr hparse)⟩
  | output | fallback => exact ⟨rfl, rfl, rfl⟩
  | frame _ h => exact absurd h hparse

theorem effect_keepsOutput (h : CommandEffect s i t) (hparse : i = .frameParse) : KeepsOutput s t := by
  cases h with
  | error k c _ hline =>
    obtain rfl := hline.mpr hparse
    exact raise_frameParse_keepsOutput c s
  | output _ _ _ _ _ _ _ hother => exact absurd hparse hother
  | fallback _ hform => simp [hparse] at hform
  | frame => exact ⟨rfl, fun _ => rfl⟩

theorem effect_ends (h : CommandEffect s i t) : t.seq = .idle ∧ t.status.done = true ∧ t.status.busy = false := by
  cases h with
  | error k c =>
    rw [raise_status, consume_fail]
    exact ⟨rfl, rfl, rfl⟩
  | output | fallback | frame => exact ⟨rfl, rfl, rfl⟩

/-- Settles O22: a unit of a stream changes the working state alone, and a command what its effect names. -/
theorem instructionsWriteOnlyTheirRegisters : Obligations.InstructionsWriteOnlyTheirRegisters := by
  intro s t i h
  by_cases hcommand : i.stream = none
  · have heffect := command_effect hcommand h
    exact ⟨effect_keepsInputs heffect, effect_keeps_stages heffect, effect_keeps_pidx heffect,
      effect_keeps_frame heffect, effect_keepsOutput heffect, fun hunit => absurd hcommand hunit,
      fun _ => effect_ends heffect⟩
  · rw [exec_unit hcommand] at h
    cases h
    have hkeeps : KeepsOutput s { s with work := s.work.unit i } := ⟨rfl, fun _ => rfl⟩
    exact ⟨⟨rfl, rfl, rfl, fun _ => rfl, rfl, rfl⟩, fun _ _ => rfl, fun _ _ _ => rfl, fun _ => ⟨rfl, rfl, rfl⟩,
      fun _ => hkeeps, fun _ => ⟨hkeeps, rfl, rfl⟩, fun h => absurd h hcommand⟩

end Sys2Proof.Machine
end

section
/-! The invariant (45_common.md R234, 10_state.md R12 to R27, 20_memory.md R47). Its part about the registers and
buffers is kept by every operation of a command; the rest follows where the command starts, runs or ends. -/

namespace Sys2Proof.Machine

/-- The outcome fields of STATUS agree with one another. -/
structure Status.Coherent (f : Status) : Prop where
  code_set : f.ecode = .none ↔ f.err = false ∧ f.fb = false
  fallback_code : f.fb = true → f.err = false ∧ f.ecode = .outputOverflow
  never_parseFailed : f.ecode ≠ .parseFailed

/-- The part of the invariant that speaks of the registers and buffers alone. -/
structure VisibleInv (s : State) : Prop where
  inst_wf : s.inst.wf
  coherent : s.status.Coherent
  stages_reserved : s.stages.toNat < 256
  ibuf_wf : Memory.wf s.ibuf ∧ ∀ c ∈ s.ibuf, c.1 < s.inst.icap
  obuf_wf : Memory.wf s.obuf
  obuf_known : ∀ i, (Memory.get? s.obuf i).isSome = decide (i < s.olen.toNat)
  olen_le : s.olen.toNat ≤ s.inst.ocap
  draws_fresh : s.ibufDraw < s.draws ∧ s.obufDraw < s.draws ∧ s.ibufDraw ≠ s.obufDraw

/-- The part of the invariant that speaks of the working state. -/
structure Work.Inv (w : Work) : Prop where
  mtf_perm : w.mtf.Perm Config.mtfIdentity
  op_end : w.op = w.dst.length

section
variable {s t : State}

theorem Inv.visible (h : Inv s) : VisibleInv s :=
  { h with coherent := { h with } }

theorem Inv.working (h : Inv s) : s.work.Inv := { h with }

/-- While BUSY the invariant asks for the busy STATUS of R51. -/
theorem VisibleInv.inv_of_busy (h : VisibleInv s) (hseq : s.seq = .busy) (hstatus : s.status.busy = true ∧
    s.status.done = false ∧ s.status.err = false ∧ s.status.fb = false ∧ s.status.ecode = .none) (hwork : s.work.Inv) :
    Inv s :=
  { h, h.coherent, hwork with
    seq_busy := iff_of_true hseq hstatus.1
    busy_clear := fun _ => hstatus.2
    idle_clear := by simp [hseq] }

theorem clear_inv : Work.clear.Inv := ⟨.refl _, rfl⟩

/-- A state that has returned to IDLE. -/
theorem VisibleInv.inv_retire (h : VisibleInv s) (hbusy : s.status.busy = false) : Inv s.retire :=
  { h, h.coherent, clear_inv with
    seq_busy := by simp [hbusy]
    busy_clear := by simp [hbusy]
    idle_clear := fun _ => ⟨rfl, rfl⟩ }

theorem VisibleInv.inv_complete (h : VisibleInv s) : Inv s.complete :=
  VisibleInv.inv_retire (s := { s with status := s.status.complete }) { h with coherent := { h.coherent with } } rfl

theorem VisibleInv.out {bs : List Byte} (h : VisibleInv s) (hroom : bs.length ≤ s.inst.ocap) :
    VisibleInv (s.out bs) := by
  have hlen : (s.out bs).olen.toNat = bs.length := by
    simpa using input_lt_of h.inst_wf hroom
  obtain ⟨hibuf, -, -⟩ := h.draws_fresh
  exact { h with
    obuf_wf := ofBytes_wf 0 bs
    obuf_known := fun i => by
      rw [hlen, out_obuf, get?_ofBytes, Bool.eq_iff_iff]
      simp
    olen_le := hlen.trans_le hroom
    draws_fresh := ⟨Nat.lt_succ_of_lt hibuf, Nat.lt_succ_self _, Nat.ne_of_lt hibuf⟩ }

theorem VisibleInv.spoil (k : ErrorLine) (c : ECode) (h : VisibleInv s) : VisibleInv (s.spoil k c) := by
  obtain ⟨hibuf, -, -⟩ := h.draws_fresh
  rw [State.spoil]
  split_ifs
  · exact { h with }
  · exact h
  · exact { h with
      obuf_wf := .nil
      obuf_known := fun i => by simp
      olen_le := Nat.zero_le _
      draws_fresh := ⟨Nat.lt_succ_of_lt hibuf, Nat.lt_succ_self _, Nat.ne_of_lt hibuf⟩ }

theorem VisibleInv.with_status (h : VisibleInv s) {f : Status} (hf : f.Coherent) :
    VisibleInv { s with status := f } :=
  { h with coherent := hf }

theorem coherent_consume_fail (k : ErrorLine) {c : ECode} (f : Status) (hc : c ≠ .none ∧ c ≠ .parseFailed) :
    ((f.fail c).consume k).Coherent := by
  rw [consume_fail]
  exact ⟨by simp [hc.1], nofun, hc.2⟩

theorem VisibleInv.inv_raise (k : ErrorLine) {c : ECode} (h : VisibleInv s) (hc : c ≠ .none ∧ c ≠ .parseFailed) :
    Inv (s.raise k c) := by
  refine ((h.with_status (coherent_consume_fail k s.status hc)).spoil k c).inv_retire ?_
  have hstatus := raise_status k c s
  rw [consume_fail] at hstatus
  exact congrArg Status.busy hstatus

/-- The end of a command keeps the invariant: a busy state shows no error, so the fallback's annotation is alone. -/
theorem CommandEffect.inv {i : Instr} (h : CommandEffect s i t) (hinv : Inv s) (hbusy : s.seq = .busy) : Inv t := by
  have hvisible := hinv.visible
  cases h with
  | error k c hcode => exact hvisible.inv_raise k hcode
  | output stages p w pidxv stgv _ _ _ hroom _ hw =>
    have hout := (hvisible.out (hroom hvisible.inst_wf)).with_status
      (f := { s.status with pidxv := pidxv, stgv := stgv }) { hvisible.coherent with }
    have hreserved : w.toNat < 256 := by
      obtain rfl | ⟨hlt, -⟩ := hw
      · exact hvisible.stages_reserved
      · exact hlt
    exact VisibleInv.inv_complete { hout with stages_reserved := hreserved }
  | fallback hroom =>
    obtain ⟨-, herr, -⟩ := hinv.busy_clear (hinv.seq_busy.mp hbusy)
    have hcoherent : Status.Coherent { s.status.annotate with pidxv := false, stgv := true } :=
      ⟨by simp [Status.annotate], fun _ => ⟨herr, rfl⟩, nofun⟩
    have hout := (hvisible.out (hroom hvisible.inst_wf)).with_status hcoherent
    exact VisibleInv.inv_complete { hout with stages_reserved := (by decide : (0#32).toNat < 256) }
  | frame len => exact VisibleInv.inv_complete { hvisible with }

/-! The working state. -/

theorem load_inv (todo : List Stage) (src : List Byte) (p : Nat) : (Work.load todo src p).Inv := by
  refine ⟨.refl _, ?_⟩
  rw [Work.load]
  split_ifs <;> rfl

section
variable {w : Work} (h : w.Inv)
include h

theorem emit_inv (n : Nat) (bs : List Byte) : (w.emit n bs).Inv :=
  ⟨h.mtf_perm, by simp [h.op_end]⟩

theorem abandon_inv : w.abandon.Inv := ⟨h.mtf_perm, h.op_end⟩

theorem handOver_inv (rest : List Stage) (p : Nat) : (w.handOver rest p).Inv := by
  cases rest with
  | nil => exact ⟨h.mtf_perm, h.op_end⟩
  | cons u us => exact load_inv ..

/-- Both directions of the recoder move an entry of the table to its front. -/
theorem emit_moveToFront_inv (bs : List Byte) {k : Nat} (hk : k < 256) :
    Work.Inv { w.emit 1 bs with mtf := moveToFront w.mtf k } :=
  { emit_inv h 1 bs with mtf_perm := table_moveToFront h.mtf_perm hk }

theorem runStep_inv (token : Run → Instr) : (w.runStep token).Inv := by
  rw [Work.runStep]
  split
  · exact abandon_inv h
  · next r _ _ => exact { emit_inv h r.length (encodeUnit (token r)) with }

theorem stageStep_inv (len : Word) (u : Stage) : (w.stageStep len u).Inv := by
  cases u with
  | bwtEnc => exact emit_inv h ..
  | bwtDec =>
    rw [Work.stageStep, Work.bwtDecStep]
    split
    · exact { emit_inv h 1 [w.src.getD (w.tmap.getD w.cursor 0) 0#8] with }
    · exact abandon_inv h
  | mtfEnc => exact emit_moveToFront_inv h _ (mtfPosition_spec h.mtf_perm _).1
  | rleEnc | pairEnc => exact runStep_inv h _
  | pairDec | frameEmit => exact emit_inv h ..
  | mtfDec | rleDec | frameParse => exact abandon_inv h

theorem unit_inv (i : Instr) : (w.unit i).Inv := by
  cases i with
  | rleLit | rleEsc3 | pairTok => exact emit_inv h ..
  | mtfCode k => exact emit_moveToFront_inv h _ k.isLt
  | frameHdr => exact ⟨h.mtf_perm, h.op_end⟩
  | _ => exact h

end

theorem hiddenStep_inv (h : s.work.Inv) : s.hiddenStep.work.Inv := by
  rw [State.hiddenStep]
  split
  · exact h
  · split_ifs
    · exact abandon_inv h
    · exact handOver_inv h ..
    · exact stageStep_inv h ..

theorem startWork_inv (s : State) (w : Word) : (s.startWork w).Inv := by
  rw [State.startWork]
  split
  · split
    · exact load_inv ..
    · exact clear_inv
  · exact clear_inv

theorem Inv.with_work (h : Inv s) (hbusy : s.seq = .busy) {w : Work} (hw : w.Inv) : Inv { s with work := w } :=
  { hw, h with idle_clear := by simp [hbusy] }

/-! The host's accesses. -/

theorem startCommand_inv (h : Inv s) (w : Word) : Inv (s.startCommand w) := by
  obtain ⟨hibuf, hobuf, hne⟩ := h.draws_fresh
  have hcoherent : s.status.start.Coherent := ⟨by simp [Status.start], nofun, nofun⟩
  exact VisibleInv.inv_of_busy
    { h.visible with
      coherent := hcoherent
      draws_fresh := ⟨Nat.lt_succ_of_lt hibuf, Nat.lt_succ_of_lt hobuf, hne⟩ }
    rfl ⟨rfl, rfl, rfl, rfl, rfl⟩ (startWork_inv s w)

theorem writeReg_inv (h : Inv s) (offset : Nat) (v : Word) : Inv (s.writeReg offset v) := by
  by_cases hcmd : offset = 0x00
  · subst hcmd
    exact startCommand_inv h v
  · rw [writeReg_of_ne_cmd s hcmd]
    have hbyte : (BitVec.ofNat 32 (v.toNat % 256)).toNat < 256 := by
      rw [BitVec.toNat_ofNat]
      omega
    split_ifs
    · exact { h with stages_reserved := hbyte }
    all_goals exact { h with }

theorem coherent_reset : Status.reset.Coherent := ⟨by decide, nofun, nofun⟩

theorem resetOf_visible {p : Config.Instance} (hwf : p.wf) : VisibleInv (State.resetOf p) where
  inst_wf := hwf
  coherent := coherent_reset
  stages_reserved := (by decide : (0#32).toNat < 256)
  ibuf_wf := ⟨.nil, nofun⟩
  obuf_wf := .nil
  obuf_known := fun i => by simp [State.resetOf]
  olen_le := Nat.zero_le _
  draws_fresh := (by decide : 0 < 2 ∧ 1 < 2 ∧ 0 ≠ 1)

theorem applyReset_inv (hwf : s.inst.wf) : Inv s.applyReset := by
  have hvisible : VisibleInv s.applyReset := { resetOf_visible hwf with draws_fresh := by simp [State.applyReset] }
  exact hvisible.inv_retire rfl

theorem AccessEffect.inv {a : Access} (h : AccessEffect s a t) (hinv : Inv s) : Inv t := by
  cases h with
  | reply => exact { hinv with }
  | replyUnspecified =>
    obtain ⟨hibuf, hobuf, hne⟩ := hinv.draws_fresh
    exact { hinv with draws_fresh := ⟨Nat.lt_succ_of_lt hibuf, Nat.lt_succ_of_lt hobuf, hne⟩ }
  | ignored => exact hinv
  | regWrite offset v => exact writeReg_inv hinv offset v
  | ibufWrite i b _ hi =>
    obtain ⟨hcanonical, hinside⟩ := hinv.ibuf_wf
    exact { hinv with
      ibuf_wf := ⟨set_wf hcanonical i b, fun c hc => by
        obtain rfl | hc := mem_set hc
        · exact hi
        · exact hinside c hc⟩ }
  | rst => exact applyReset_inv hinv.inst_wf

theorem hostTurn_inv (hinv : Inv s) (h : s.hostTurn = .next t) : Inv t := by
  cases hinbox : s.inbox with
  | nil =>
    rw [hostTurn_of_nil hinbox] at h
    cases h
    exact hinv
  | cons a as =>
    rw [hostTurn_of_cons hinbox] at h
    exact (access_effect h).inv { hinv with }

/-- What an instruction does on the sequencer's turn keeps the invariant. -/
theorem exec_inv {i : Instr} (hinv : Inv s) (hbusy : s.seq = .busy) (h : exec i s = .next t) : Inv t := by
  by_cases hcommand : i.stream = none
  · exact (command_effect hcommand h).inv hinv hbusy
  · rw [exec_unit hcommand] at h
    cases h
    exact hinv.with_work hbusy (unit_inv hinv.working i)

/-- Settles O59: nothing is listed, shown or running after reset. -/
theorem resetMeetsTheInvariant : Obligations.ResetMeetsTheInvariant :=
  ⟨fun _ hwf => (resetOf_visible hwf).inv_retire rfl, (resetOf_visible (by decide)).inv_retire rfl⟩

/-- Settles O60: the host's turn, the instruction the sequencer fetches, the illegal command and the hidden step each
keep the invariant. -/
theorem everyStepKeepsTheInvariant : Obligations.EveryStepKeepsTheInvariant := by
  intro s t hinv h
  obtain ⟨-, h⟩ | ⟨k, hbusy, -, h⟩ | ⟨i, hbusy, -, -, h⟩ | ⟨-, -, -, rfl⟩ | ⟨hbusy, -, -, rfl⟩ := step_cases h
  · exact hostTurn_inv hinv h
  · exact hostTurn_inv (s := { s with busyLeft := k }) { hinv with idle_clear := by simp [hbusy] } h
  · exact exec_inv hinv hbusy h
  · exact hinv.visible.inv_raise _ (by decide)
  · rw [hiddenStep_eq]
    exact hinv.with_work hbusy (hiddenStep_inv hinv.working)

end

end Sys2Proof.Machine
end

section
/-! The sequencer's turns between the start and the completion of a command (10_state.md R16 to R20, R25): the step of a
stage that is done and of one that is not, and that every stage ends. -/

namespace Sys2Proof.Machine

/-- The working state after the sequencer's turn on a stage that is not done: the unit of its stream at `ip` runs, or
the stage takes a hidden step. -/
def Work.turn (len : Word) (w : Work) (u : Stage) : Work :=
  match u.unitAt (w.src.drop w.ip) with
  | some i => w.unit i
  | none => w.stageStep len u

/-- The working state after a stage that is done: it hands its output on, but for an RLE inverse whose output is too
long (43_pipeline.md R147). -/
def State.afterStage (s : State) (u : Stage) (us : List Stage) : Work :=
  if u = .rleDec ∧ s.overflows s.work.dst = true then s.work.abandon else s.work.handOver us s.pidx.toNat

/-- The stream whose units a stage reads. -/
def Stage.stream : Stage → Option Stream
  | .rleDec => some .rle
  | .pairDec => some .pair
  | .mtfDec => some .mtf
  | .frameParse => some .frame
  | _ => none

/-- The unit a stage reads belongs to its stream and begins the bytes at `ip`. -/
theorem unitAt_eq_some {u : Stage} {bs : List Byte} {i : Instr} (h : u.unitAt bs = some i) :
    ∃ st rest, u.stream = some st ∧ BeginsWithUnit Config.defaultInstance st bs i rest := by
  have hok {d : Except Reject (Instr × List Byte)} (h : d.toOption.map Prod.fst = some i) :
      ∃ rest, d = .ok (i, rest) := by
    obtain _ | ⟨i', rest⟩ := d
    · cases h
    · cases h
      exact ⟨rest, rfl⟩
  cases u with
  | rleDec =>
    obtain ⟨rest, h⟩ := hok h
    exact ⟨_, rest, rfl, beginsWithUnit_of_decodeRle h⟩
  | pairDec =>
    obtain ⟨rest, h⟩ := hok h
    exact ⟨_, rest, rfl, beginsWithUnit_of_decodePair rfl h⟩
  | mtfDec =>
    obtain ⟨rest, h⟩ := hok h
    exact ⟨_, rest, rfl, beginsWithUnit_of_decodeMtf h⟩
  | frameParse =>
    obtain ⟨rest, h⟩ := hok h
    exact ⟨_, rest, rfl, beginsWithUnit_of_decodeFrame h⟩
  | _ => cases h

section
variable {s : State} {u : Stage} {us : List Stage} (hseq : s.seq = .busy) (hleft : s.busyLeft = 0)
  (htodo : s.work.todo = u :: us)
include hseq hleft htodo

theorem step_stageDone (hdone : s.work.stageDone u = true) : step s = .next { s with work := s.afterStage u us } := by
  have hfetch : s.fetch = .hidden := by simp [State.fetch, htodo, hdone]
  rw [step_eq_sequencerTurn hseq hleft, State.sequencerTurn, hfetch, State.afterStage]
  simp only [State.hiddenStep, htodo, hdone, if_true]
  split_ifs <;> rfl

/-- A stage that is not done takes its turn. -/
theorem step_stageTurn (hdone : s.work.stageDone u = false) :
    step s = .next { s with work := s.work.turn s.mlen u } := by
  rw [step_eq_sequencerTurn hseq hleft, State.sequencerTurn, Work.turn]
  cases hunit : u.unitAt (s.work.src.drop s.work.ip) with
  | some i =>
    obtain ⟨st, _, -, -, hstream, -⟩ := unitAt_eq_some hunit
    rw [fetch_unit htodo hdone hunit]
    exact exec_unit (by simp [hstream]) s
  | none =>
    have hfetch : s.fetch = .hidden := by simp [State.fetch, htodo, hdone, hunit]
    rw [hfetch]
    simp [State.hiddenStep, htodo, hdone]

end

/-! A unit of a stream moves `ip` behind itself and keeps the stages and the input. -/

@[simp] theorem unit_todo (w : Work) (i : Instr) : (w.unit i).todo = w.todo := by
  cases i <;> rfl

@[simp] theorem unit_src (w : Work) (i : Instr) : (w.unit i).src = w.src := by
  cases i <;> rfl

theorem unit_ip (w : Work) {i : Instr} (h : i.stream ≠ none) : (w.unit i).ip = w.ip + (encodeUnit i).length := by
  cases i with
  | rleLit | rleEsc3 | pairTok | mtfCode | frameHdr => rfl
  | _ => exact absurd rfl h

theorem encodeUnit_length_pos {i : Instr} (h : i.stream ≠ none) : 0 < (encodeUnit i).length := by
  cases i with
  | rleLit | rleEsc3 | pairTok | mtfCode | frameHdr => exact Nat.succ_pos _
  | _ => exact absurd rfl h

/-- What a stage still has to do, in turns at most. -/
def Work.turnsLeft (w : Work) : Stage → Nat
  | .frameEmit => if w.dst = [] then 1 else 0
  | .frameParse => if w.hdr.isSome then 0 else 1
  | _ => w.src.length - w.ip

/-- A stage that reads its input byte by byte is done where `ip` is at its end. -/
theorem stageDone_eq_false_iff (w : Work) {u : Stage} : w.stageDone u = false ↔ 0 < w.turnsLeft u := by
  cases u with
  | frameEmit =>
    by_cases h : w.dst = [] <;> simp [Work.stageDone, Work.turnsLeft, h]
  | frameParse => cases h : w.hdr <;> simp [Work.stageDone, Work.turnsLeft, h]
  | _ => simp [Work.stageDone, Work.turnsLeft]

/-- A turn ends the stages, or keeps them and leaves the running one less to do. -/
def Work.Progresses (u : Stage) (w w' : Work) : Prop :=
  w'.todo = [] ∨ w'.todo = w.todo ∧ w'.turnsLeft u < w.turnsLeft u

/-- A stage that is no part of the frame unit has its unread bytes to do. -/
theorem turnsLeft_eq_sub {u : Stage} (hu : u ≠ .frameEmit ∧ u ≠ .frameParse) (w : Work) :
    w.turnsLeft u = w.src.length - w.ip := by
  cases u with
  | frameEmit | frameParse => simp at hu
  | _ => rfl

/-- A stage that is no part of the frame unit progresses where `ip` moves. -/
theorem progresses_of_ip {w w' : Work} {u : Stage} (hdone : w.stageDone u = false)
    (hu : u ≠ .frameEmit ∧ u ≠ .frameParse) (htodo : w'.todo = w.todo) (hsrc : w'.src = w.src) (hip : w.ip < w'.ip) :
    Work.Progresses u w w' := by
  rw [stageDone_eq_false_iff, turnsLeft_eq_sub hu] at hdone
  refine .inr ⟨htodo, ?_⟩
  rw [turnsLeft_eq_sub hu, turnsLeft_eq_sub hu, hsrc]
  omega

theorem unit_progresses {w : Work} {u : Stage} {i : Instr} (hdone : w.stageDone u = false)
    (hunit : u.unitAt (w.src.drop w.ip) = some i) : Work.Progresses u w (w.unit i) := by
  obtain ⟨st, _, hu, -, hstream, -⟩ := unitAt_eq_some hunit
  have hunit : i.stream ≠ none := by simp [hstream]
  by_cases hparse : u = .frameParse
  · subst hparse
    cases hu
    obtain ⟨len, rfl⟩ : ∃ len, i = .frameHdr len := by cases i <;> simp [Instr.stream] at hstream ⊢
    rw [stageDone_eq_false_iff] at hdone
    exact .inr ⟨rfl, hdone⟩
  · have hemit : u ≠ .frameEmit := by
      rintro rfl
      cases hu
    refine progresses_of_ip hdone ⟨hemit, hparse⟩ (unit_todo w i) (unit_src w i) ?_
    rw [unit_ip w hunit]
    exact Nat.lt_add_of_pos_right (encodeUnit_length_pos hunit)

theorem runStep_progresses {w : Work} {u : Stage} {token : Run → Instr} (hdone : w.stageDone u = false)
    (hu : u ≠ .frameEmit ∧ u ≠ .frameParse) : Work.Progresses u w (w.runStep token) := by
  rw [Work.runStep]
  split
  · exact .inl rfl
  · next r _ hruns =>
    have hpos := (runs_length_bounds _ r (hruns ▸ List.mem_cons_self)).1
    exact progresses_of_ip hdone hu rfl rfl (Nat.lt_add_of_pos_right hpos)

theorem stageStep_progresses (len : Word) {w : Work} {u : Stage} (hdone : w.stageDone u = false) :
    Work.Progresses u w (w.stageStep len u) := by
  have hbyte {w' : Work} (hu : u ≠ .frameEmit ∧ u ≠ .frameParse) (htodo : w'.todo = w.todo) (hsrc : w'.src = w.src)
      (hip : w'.ip = w.ip + 1) : Work.Progresses u w w' :=
    progresses_of_ip hdone hu htodo hsrc (by omega)
  cases u with
  | bwtEnc | mtfEnc | pairDec => exact hbyte ⟨nofun, nofun⟩ rfl rfl rfl
  | bwtDec =>
    rw [Work.stageStep, Work.bwtDecStep]
    split
    · exact hbyte ⟨nofun, nofun⟩ rfl rfl rfl
    · exact .inl rfl
  | rleEnc | pairEnc => exact runStep_progresses hdone ⟨nofun, nofun⟩
  | frameEmit =>
    rw [stageDone_eq_false_iff] at hdone
    have hwritten : (w.stageStep len .frameEmit).dst ≠ [] := by
      simp [Work.stageStep, frameOf_eq]
    exact .inr ⟨rfl, by simpa only [Work.turnsLeft, if_neg hwritten] using hdone⟩
  | mtfDec | rleDec | frameParse => exact .inl rfl

theorem turn_progresses (len : Word) {w : Work} {u : Stage} (hdone : w.stageDone u = false) :
    Work.Progresses u w (w.turn len u) := by
  rw [Work.turn]
  split
  · exact unit_progresses hdone ‹_›
  · exact stageStep_progresses len hdone

end Sys2Proof.Machine
end

section
/-! Every command completes (70_reset_and_hazards.md R221, 45_common.md R231): the busy time is a number of host turns,
each stage ends, and the completion step comes to IDLE. -/

namespace Sys2Proof.Machine

section
variable {s : State} {u : Stage} {us : List Stage}

/-- A stage's turns, one after the other, up to its end or the end of all stages, with what every turn keeps. -/
theorem run_stage {P : Work → Prop} (hseq : s.seq = .busy) (hleft : s.busyLeft = 0) (htodo : s.work.todo = u :: us)
    (hkeeps : ∀ w : Work, w.todo = u :: us → w.stageDone u = false → P w → P (w.turn s.mlen u)) (hstart : P s.work) :
    ∃ k w, Sys2Proof.core.run k s = .next { s with work := w } ∧ P w ∧
      (w.todo = [] ∨ w.todo = u :: us ∧ w.stageDone u = true) := by
  induction hn : s.work.turnsLeft u using Nat.strong_induction_on generalizing s with
  | h n ih =>
    by_cases hdone : s.work.stageDone u = true
    · exact ⟨0, s.work, rfl, hstart, .inr ⟨htodo, hdone⟩⟩
    · have hdone := Bool.eq_false_of_not_eq_true hdone
      have hstep := step_stageTurn hseq hleft htodo hdone
      have hturn := hkeeps s.work htodo hdone hstart
      obtain hend | ⟨hsame, hless⟩ := turn_progresses s.mlen hdone
      · exact ⟨1, s.work.turn s.mlen u, run_succ 0 hstep, hturn, .inl hend⟩
      · obtain ⟨k, w, hrun, hw⟩ := ih _ (hn ▸ hless) (s := { s with work := s.work.turn s.mlen u }) hseq hleft
          (hsame.trans htodo) hkeeps hturn rfl
        exact ⟨k + 1, w, (run_succ k hstep).trans hrun, hw⟩

/-- After a stage the others are left to run, or none. -/
theorem afterStage_todo (s : State) (u : Stage) (us : List Stage) :
    (s.afterStage u us).todo = [] ∨ (s.afterStage u us).todo = us := by
  rw [State.afterStage]
  split
  · exact .inl rfl
  · exact .inr (by cases us <;> rfl)

/-- The stages of a command end, whatever the working state holds. -/
theorem run_stages (hseq : s.seq = .busy) (hleft : s.busyLeft = 0) :
    ∃ k w, Sys2Proof.core.run k s = .next { s with work := w } ∧ w.todo = [] := by
  induction htodo : s.work.todo generalizing s with
  | nil => exact ⟨0, s.work, rfl, htodo⟩
  | cons u us ih =>
    obtain ⟨k, w, hrun, -, hend | ⟨htodo, hdone⟩⟩ :=
      run_stage (P := fun _ => True) hseq hleft htodo (fun _ _ _ _ => trivial) trivial
    · exact ⟨k, w, hrun, hend⟩
    · have hstep := step_stageDone (s := { s with work := w }) hseq hleft htodo hdone
      have hafter := (run_add 1 hrun).trans (run_succ 0 hstep)
      obtain hnone | hrest := afterStage_todo { s with work := w } u us
      · exact ⟨k + 1, _, hafter, hnone⟩
      · obtain ⟨m, w', hrun', hend⟩ :=
          ih (s := { s with work := State.afterStage { s with work := w } u us }) hseq hleft hrest
        exact ⟨k + 1 + m, w', (run_add m hafter).trans hrun', hend⟩

theorem exists_next_ite {c : Prop} [Decidable c] {a b : Host.Outcome State Fault Refusal} (ha : ∃ t, a = .next t)
    (hb : ∃ t, b = .next t) : ∃ t, (if c then a else b) = .next t := by
  split
  · exact ha
  · exact hb

/-- Every instruction has a next state: each of its tests ends in one. -/
theorem exists_exec (i : Instr) (s : State) : ∃ t, exec i s = .next t := by
  have hlast (t : State) : ∃ t', (.next t : Host.Outcome State Fault Refusal) = .next t' := ⟨t, rfl⟩
  cases i with
  | bwtEnc | mtfEnc | mtfDec => exact exists_next_ite (hlast _) (hlast _)
  | rleEnc | rleDec => exact exists_next_ite (hlast _) (exists_next_ite (hlast _) (hlast _))
  | pairEnc | pairDec | frameEmit =>
    exact exists_next_ite (hlast _) (exists_next_ite (hlast _) (exists_next_ite (hlast _) (hlast _)))
  | bwtDec =>
    exact exists_next_ite (hlast _) (exists_next_ite (hlast _) (exists_next_ite (hlast _)
      (exists_next_ite (hlast _) (hlast _))))
  | decompress => exact ⟨_, exec_decompress s⟩
  | frameParse =>
    refine exists_next_ite (hlast _) ?_
    cases parseFrame s.input <;> exact hlast _
  | compress | compressSub | rleLit | rleEsc3 | pairTok | mtfCode | frameHdr => exact hlast _

/-- With no stage left to run the command completes, an illegal one too. -/
theorem step_completes (hseq : s.seq = .busy) (hleft : s.busyLeft = 0) (htodo : s.work.todo = []) :
    ∃ t, step s = .next t ∧ t.seq = .idle := by
  cases hdec : decodeCommand s.inst s.cmd with
  | ok i =>
    obtain ⟨t, hexec⟩ := exists_exec i s
    obtain ⟨-, hcommand, -⟩ := encode_of_decodeCommand hdec
    rw [step_of_fetch_instr hseq hleft (fetch_command htodo hdec)]
    exact ⟨t, hexec, (effect_ends (command_effect hcommand hexec)).1⟩
  | error e => exact ⟨_, step_illegalCommand hseq hleft htodo hdec, (raise_ends ..).seq⟩

/-- A command whose busy time is used up completes. -/
theorem run_completes (hseq : s.seq = .busy) (hleft : s.busyLeft = 0) :
    ∃ k t, Sys2Proof.core.run k s = .next t ∧ t.seq = .idle := by
  obtain ⟨k, w, hrun, htodo⟩ := run_stages hseq hleft
  obtain ⟨t, hstep, hidle⟩ := step_completes (s := { s with work := w }) hseq hleft htodo
  exact ⟨k + 1, t, (run_add 1 hrun).trans (run_succ 0 hstep), hidle⟩

end

/-- Settles O23: the busy time runs out or the reset input ends it, then the stages end, then the command. -/
theorem everyCommandCompletes : Obligations.EveryCommandCompletes := by
  intro s hseq haccess
  induction hleft : s.busyLeft generalizing s with
  | zero => exact run_completes hseq hleft
  | succ n ih =>
    have hstep := step_of_busyLeft hseq hleft
    have hgo {t : State} (hstep : step s = .next t) (hbusy : t.seq = .busy) (hn : t.busyLeft = n)
        (hinst : t.inst = s.inst) (hinbox : ∀ a ∈ t.inbox, a ∈ s.inbox) :
        ∃ k t, Sys2Proof.core.run k s = .next t ∧ t.seq = .idle := by
      obtain ⟨k, u, hrun, hidle⟩ := ih t hbusy (fun a ha v hv => haccess a (hinbox a ha) v (hv.trans hinst)) hn
      exact ⟨k + 1, u, (run_succ k hstep).trans hrun, hidle⟩
    cases hinbox : s.inbox with
    | nil =>
      exact hgo (hstep.trans (hostTurn_of_nil hinbox)) hseq rfl rfl fun a => id
    | cons a as =>
      obtain ⟨u, hu⟩ := haccess a (hinbox ▸ List.mem_cons_self) { s with busyLeft := n, inbox := as } rfl
      have hstep := (hstep.trans (hostTurn_of_cons hinbox)).trans hu
      by_cases hrst : a = .rst
      · subst hrst
        cases hu
        exact ⟨1, _, run_succ 0 hstep, rfl⟩
      · obtain ⟨hsame, hn, hrest⟩ :=
          busyAccessChangesNothingOfTheBlock.2 { s with busyLeft := n, inbox := as } u a hseq hrst hu
        refine hgo hstep (hsame.seq.trans hseq) hn hsame.inst fun b hb => ?_
        have hrest : u.inbox = as := hrest
        rw [hrest] at hb
        exact hinbox ▸ List.mem_cons_of_mem a hb

end Sys2Proof.Machine
end

section
/-! The stages of a command compute its result (10_state.md R16 to R26): what a stage has written and what it still has
to write are together the function of its unit, at every turn. -/

namespace Sys2Proof.Machine

/-- The bytes a stage still has to write from its working state on. -/
def Work.pending (len : Word) (w : Work) : Stage → List Byte
  | .bwtEnc => (w.ofs.drop w.ip).map (precedingByte w.src)
  | .bwtDec => inverseWalk w.src w.tmap (w.src.length - w.ip) w.cursor
  | .mtfEnc => mtfEncodeFrom w.mtf (w.src.drop w.ip)
  | .mtfDec => mtfDecodeFrom w.mtf (w.src.drop w.ip)
  | .rleEnc => rleEncode (w.src.drop w.ip)
  | .rleDec => rleDecode (w.src.drop w.ip)
  | .pairEnc => pairEncode (w.src.drop w.ip)
  | .pairDec => pairDecode (w.src.drop w.ip)
  | .frameEmit => if w.dst = [] then frameOf len w.src else []
  | .frameParse => []

/-- The arrays of a stage are those of its input, and the walk of the BWT inverse is inside it. -/
def Work.Ready (w : Work) : Stage → Prop
  | .bwtEnc => w.ofs.length = w.src.length
  | .bwtDec => w.tmap = inverseMap w.src ∧ (w.src.length = 0 ∨ w.cursor < w.src.length)
  | _ => True

/-- The running stage, its input and its arrays are as they were, and it will have written `bs` in the end. -/
structure Work.Writes (len : Word) (todo : List Stage) (u : Stage) (bs : List Byte) (w : Work) : Prop where
  todo : w.todo = todo
  ready : w.Ready u
  written : w.dst ++ w.pending len u = bs

section
variable {len : Word} {todo : List Stage} {u : Stage} {bs : List Byte} {w : Work}

/-- A stage that is done has written everything. -/
theorem Work.Writes.dst_of_done (h : w.Writes len todo u bs) (hdone : w.stageDone u = true) : w.dst = bs := by
  have hpending : w.pending len u = [] := by
    cases u with
    | bwtEnc =>
      have hend : w.ofs.length ≤ w.ip := h.ready.trans_le (of_decide_eq_true hdone)
      simp [Work.pending, hend]
    | bwtDec => simp [Work.pending, Nat.sub_eq_zero_of_le (of_decide_eq_true hdone), inverseWalk]
    | frameEmit => exact if_neg (of_decide_eq_true hdone)
    | frameParse => rfl
    | _ =>
      have hend : w.src.drop w.ip = [] := List.drop_eq_nil_of_le (of_decide_eq_true hdone)
      simp [Work.pending, hend, mtfEncodeFrom, mtfDecodeFrom, rleEncode, pairEncode]
  rw [← h.written, hpending, List.append_nil]

/-- A stage starts with its whole output to write. -/
theorem load_writes (us : List Stage) (src : List Byte) (p : Nat) (hparse : u ≠ .frameParse)
    (hrun : u = .bwtDec → src.length = 0 ∨ p < src.length) :
    (Work.load (u :: us) src p).Writes len (u :: us) u (u.apply p len src) := by
  refine ⟨rfl, ?_, ?_⟩
  · cases u with
    | bwtEnc => exact rotationOrder_length src
    | bwtDec => exact ⟨rfl, hrun rfl⟩
    | _ => trivial
  · cases u with
    | frameParse => exact absurd rfl hparse
    | _ => rfl

theorem drop_ip_eq_cons (h : w.ip < w.src.length) :
    w.src.drop w.ip = w.src.getD w.ip 0#8 :: w.src.drop (w.ip + 1) := by
  rw [List.drop_eq_getElem_cons h, List.getD_eq_getElem _ _ h]

/-- One turn writes the first of the bytes that were still to write. -/
theorem Work.Writes.of_turn {w' : Work} {out : List Byte} (h : w.Writes len todo u bs) (htodo : w'.todo = w.todo)
    (hready : w'.Ready u) (hdst : w'.dst = w.dst ++ out) (hpending : w.pending len u = out ++ w'.pending len u) :
    w'.Writes len todo u bs :=
  ⟨htodo.trans h.todo, hready, by rw [← h.written, hdst, hpending, List.append_assoc]⟩

/-- A unit of a stream writes its bytes and leaves the rest of the stream to decode. -/
theorem Work.Writes.unit {i : Instr} (h : w.Writes len todo u bs) (hunit : u.unitAt (w.src.drop w.ip) = some i)
    (hparse : u ≠ .frameParse) : (w.unit i).Writes len todo u bs := by
  obtain ⟨st, rest, hu, -, hstream, hplace, hbytes⟩ := unitAt_eq_some hunit
  have hrest : (w.unit i).src.drop (w.unit i).ip = rest := by
    rw [unit_src, unit_ip w (by simp [hstream]), ← List.drop_drop, hbytes, List.drop_left]
  have hstage {v : Stage} (hv : v.stream = some st) : u = v := by
    cases u <;> cases hu <;> cases v <;> cases hv <;> rfl
  cases i with
  | rleLit v =>
    cases hstream
    obtain rfl := hstage (v := .rleDec) rfl
    refine h.of_turn (out := [v]) rfl trivial rfl ?_
    rw [Work.pending, Work.pending, hrest, hbytes]
    exact rleDecode_literal ((rleLit_mayPrecede_iff v rest).mp hplace)
  | rleEsc3 v c =>
    cases hstream
    obtain rfl := hstage (v := .rleDec) rfl
    refine h.of_turn (out := List.replicate (c.toNat + 1) v) rfl trivial rfl ?_
    rw [Work.pending, Work.pending, hrest, hbytes]
    exact rleDecode_escape v c rest
  | pairTok v c =>
    cases hstream
    obtain rfl := hstage (v := .pairDec) rfl
    refine h.of_turn (out := List.replicate c.toNat v) rfl trivial rfl ?_
    rw [Work.pending, Work.pending, hrest, hbytes]
    exact pairDecode_pair v c rest
  | mtfCode k =>
    cases hstream
    obtain rfl := hstage (v := .mtfDec) rfl
    refine h.of_turn (out := [w.mtf.getD k.toNat 0#8]) rfl trivial rfl ?_
    rw [Work.pending, Work.pending, hrest, hbytes]
    rfl
  | frameHdr =>
    cases hstream
    exact absurd (hstage (v := .frameParse) rfl) hparse
  | _ => cases hstream

/-- The next run of an encoder starts at `ip`, and the others behind it. -/
theorem runs_drop_ip (h : w.ip < w.src.length) :
    ∃ r, runs (w.src.drop w.ip) = r :: runs (w.src.drop (w.ip + r.length)) := by
  obtain ⟨r, -, -, -, -, hruns⟩ := runs_cons (w.src.getD w.ip 0#8) (w.src.drop (w.ip + 1))
  rw [← drop_ip_eq_cons h, List.drop_drop] at hruns
  exact ⟨r, hruns⟩

/-- Every byte of an RLE stream begins a token. -/
theorem unitAt_rleDec_ne_none (a : Byte) (rest : List Byte) : Stage.unitAt (a :: rest) .rleDec ≠ none := by
  match rest with
  | [] | [_] => nofun
  | v :: c :: rest =>
    rw [Stage.unitAt, decodeRle]
    split <;> nofun

theorem Work.Writes.hiddenStep (h : w.Writes len todo u bs) (hdone : w.stageDone u = false)
    (hunit : u.unitAt (w.src.drop w.ip) = none) (hparse : u ≠ .frameParse) :
    (w.stageStep len u).Writes len todo u bs := by
  have hip (hu : u ≠ .frameEmit) : w.ip < w.src.length := by
    rw [stageDone_eq_false_iff, turnsLeft_eq_sub ⟨hu, hparse⟩] at hdone
    exact Nat.lt_of_sub_pos hdone
  cases u with
  | bwtEnc =>
    have hofs : w.ip < w.ofs.length := (hip nofun).trans_eq h.ready.symm
    refine h.of_turn (out := [precedingByte w.src (w.ofs.getD w.ip 0)]) rfl h.ready rfl ?_
    rw [Work.pending, List.drop_eq_getElem_cons hofs, List.getD_eq_getElem _ _ hofs]
    rfl
  | bwtDec =>
    obtain ⟨hmap, hcursor⟩ := h.ready
    have hcursor : w.cursor < w.src.length := hcursor.resolve_left (Nat.ne_of_gt (Nat.zero_lt_of_lt (hip nofun)))
    have hnext : w.tmap.getD w.cursor 0 < w.src.length := hmap ▸ inverseMap_lt hcursor
    rw [Work.stageStep, Work.bwtDecStep, if_pos hcursor]
    refine h.of_turn (out := [w.src.getD (w.tmap.getD w.cursor 0) 0#8]) rfl ⟨hmap, .inr hnext⟩ rfl ?_
    have hleft : w.src.length - w.ip = w.src.length - (w.ip + 1) + 1 := by
      have := hip nofun
      omega
    rw [Work.pending, hleft]
    rfl
  | mtfEnc =>
    refine h.of_turn (out := [_]) rfl trivial rfl ?_
    rw [Work.pending, drop_ip_eq_cons (hip nofun)]
    rfl
  | rleEnc =>
    obtain ⟨r, hruns⟩ := runs_drop_ip (hip nofun)
    rw [Work.stageStep, Work.runStep, hruns]
    refine h.of_turn (out := encodeUnit (rleToken r)) rfl trivial rfl ?_
    rw [Work.pending, rleEncode, hruns, List.flatMap_cons]
    rfl
  | pairEnc =>
    obtain ⟨r, hruns⟩ := runs_drop_ip (hip nofun)
    rw [Work.stageStep, Work.runStep, hruns]
    refine h.of_turn (out := encodeUnit (pairToken r)) rfl trivial rfl ?_
    rw [Work.pending, pairEncode, hruns, List.flatMap_cons]
    rfl
  | pairDec =>
    refine h.of_turn (out := [w.src.getD w.ip 0#8]) rfl trivial rfl ?_
    rw [drop_ip_eq_cons (hip nofun)] at hunit
    have hlast : w.src.drop (w.ip + 1) = [] := by
      cases hrest : w.src.drop (w.ip + 1) with
      | nil => rfl
      | cons c rest =>
        rw [hrest] at hunit
        cases hunit
    rw [Work.pending, drop_ip_eq_cons (hip nofun), hlast, pairDecode_singleton]
    show _ = [_] ++ pairDecode (w.src.drop (w.ip + 1))
    rw [hlast, pairDecode_nil, List.append_nil]
  | frameEmit =>
    have hempty : w.dst = [] := by simpa [Work.stageDone] using hdone
    refine h.of_turn (out := frameOf len w.src) rfl trivial rfl ?_
    simp [Work.pending, Work.stageStep, hempty, frameOf_eq]
  | mtfDec =>
    rw [drop_ip_eq_cons (hip nofun)] at hunit
    cases hunit
  | rleDec =>
    rw [drop_ip_eq_cons (hip nofun)] at hunit
    exact absurd hunit (unitAt_rleDec_ne_none _ _)
  | frameParse => exact absurd rfl hparse

theorem Work.Writes.turn (h : w.Writes len todo u bs) (hdone : w.stageDone u = false) (hparse : u ≠ .frameParse) :
    (w.turn len u).Writes len todo u bs := by
  rw [Work.turn]
  split
  · exact h.unit ‹_› hparse
  · exact h.hiddenStep hdone ‹_› hparse

end

/-- Where no stage ends the command early, each turns the output of the one before it into its own. -/
theorem run_stages_output {s : State} {stages : List Stage} {src : List Byte} (hseq : s.seq = .busy)
    (hleft : s.busyLeft = 0) (hwork : s.work = Work.load stages src s.pidx.toNat) (hruns : s.stagesRun stages src) :
    ∃ k w, Sys2Proof.core.run k s = .next { s with work := w } ∧ w.todo = [] ∧ w.dst = s.stagesOutput stages src := by
  induction stages generalizing s src with
  | nil => exact ⟨0, s.work, rfl, hwork ▸ rfl, hwork ▸ rfl⟩
  | cons u us ih =>
    obtain ⟨hparse, hbwt, hrle, hrest⟩ := hruns
    obtain ⟨k, w, hrun, hwrites, hend⟩ := run_stage hseq hleft (congrArg Work.todo hwork)
      (fun _ _ hdone hw => Work.Writes.turn hw hdone hparse) (hwork ▸ load_writes us src s.pidx.toNat hparse hbwt)
    obtain hnone | ⟨htodo, hdone⟩ := hend
    · simp [hwrites.todo] at hnone
    · have hdst := hwrites.dst_of_done hdone
      have hafter : State.afterStage { s with work := w } u us = w.handOver us s.pidx.toNat := by
        refine if_neg fun ⟨hu, hover⟩ => ?_
        rw [overflows_iff] at hover
        subst hu
        have hdecoded : w.dst = rleDecode src := hdst
        exact absurd hover (Nat.not_lt.mpr (hdecoded ▸ hrle rfl))
      have hstep := step_stageDone (s := { s with work := w }) hseq hleft htodo hdone
      rw [hafter] at hstep
      have hrun := (run_add 1 hrun).trans (run_succ 0 hstep)
      cases us with
      | nil => exact ⟨k + 1, _, hrun, rfl, hdst⟩
      | cons v vs =>
        obtain ⟨m, w', hrun', hw'⟩ := ih (s := { s with work := Work.load (v :: vs) w.dst s.pidx.toNat })
          hseq hleft rfl (hdst ▸ hrest)
        exact ⟨k + 1 + m, w', (run_add m hrun).trans hrun', hw'.1, hw'.2.trans (hdst ▸ rfl)⟩

theorem startWork_eq_load {s : State} {i : Instr} {stages : List Stage} (hdec : decodeCommand s.inst s.cmd = .ok i)
    (hplan : s.plan i = some stages) : s.startWork s.cmd = Work.load stages s.input s.pidx.toNat := by
  simp only [State.startWork, hdec, hplan]

/-- Settles O24: a command that completes without an error and without a fallback writes the output of its stages, and
they run to it from the working state of the start step. -/
theorem stagesComputeTheResult : Obligations.StagesComputeTheResult := by
  intro s u i hwf hseq hleft hdec hparse hwork _ _ hexec herr hfb
  obtain ⟨-, hcommand, -⟩ := encode_of_decodeCommand hdec
  cases command_effect hcommand hexec with
  | error k c =>
    rw [raise_status, consume_fail] at herr
    cases herr
  | output stages p w pidxv stgv hplan hruns _ hroom =>
    obtain ⟨k, w', hrun, htodo, hdst⟩ :=
      run_stages_output hseq hleft (hwork.trans (startWork_eq_load hdec hplan)) hruns
    refine ⟨k, { s with work := w' }, hrun, rfl, htodo, hdst.trans ?_⟩
    exact (out_output s (input_lt_of hwf (hroom hwf))).symm
  | fallback => cases hfb
  | frame _ h => exact absurd h hparse

end Sys2Proof.Machine
end
